-- ==== Sys2Proof/Word.lean ====
section
/-! DEFINITION. The word types (00_scope.md R11): every byte is unsigned, bit 7 the most significant; a level or a pixel
is one bit. -/

namespace Sys2Proof

/-- A byte, unsigned, bit 7 most significant (R11). -/
abbrev Byte := BitVec 8

/-- One bit: a pin level, a sample of BUSY or a pixel value; `true` is 1 (R13, R62). -/
abbrev Bit := Bool

end Sys2Proof
end

