-- ==== Sys2Proof/Config.lean ====
section
/-! DEFINITION. What an implementation fixes (00_scope.md R8, 10_state.md R31) and the free values. The machine reads
its configuration from `State.cfg`; this file gives the record, its reference value, and the constants with no body. -/

namespace Sys2Proof

/-- The closed set of controller commands (30_encoding.md R98, R100), in the table's order. -/
inductive Command where
  | psr | pwr | pon | btst | dslp | dtm1 | dsp | drf | dtm2 | pll | cdi | tres | vdcs
  deriving DecidableEq, Repr

/-- The thirteen commands, in the order of R98. -/
def Command.all : List Command :=
  [.psr, .pwr, .pon, .btst, .dslp, .dtm1, .dsp, .drf, .dtm2, .pll, .cdi, .tres, .vdcs]

/-- The opcode byte of each controller command, a configuration table (R98, D2). -/
structure Opc where
  psr : Byte
  pwr : Byte
  pon : Byte
  btst : Byte
  dslp : Byte
  dtm1 : Byte
  dsp : Byte
  drf : Byte
  dtm2 : Byte
  pll : Byte
  cdi : Byte
  tres : Byte
  vdcs : Byte
  deriving DecidableEq, Repr

/-- `OPC(m)` (R98). -/
def Opc.code (t : Opc) : Command → Byte
  | .psr => t.psr
  | .pwr => t.pwr
  | .pon => t.pon
  | .btst => t.btst
  | .dslp => t.dslp
  | .dtm1 => t.dtm1
  | .dsp => t.dsp
  | .drf => t.drf
  | .dtm2 => t.dtm2
  | .pll => t.pll
  | .cdi => t.cdi
  | .tres => t.tres
  | .vdcs => t.vdcs

/-- The reference opcode bytes of R98 (PRESUMED by the spec itself, "from general knowledge": log 4). -/
def Opc.reference : Opc :=
  { psr := 0x00, pwr := 0x01, pon := 0x04, btst := 0x06, dslp := 0x07, dtm1 := 0x10, dsp := 0x11,
    drf := 0x12, dtm2 := 0x13, pll := 0x30, cdi := 0x50, tres := 0x61, vdcs := 0x82 }

/-- The configuration record `CFG` (R8). `NBUF`, the TRES payload and the fixed parameters are computed from it or
stand as constants in Machine/Operands.lean. -/
structure Cfg where
  /-- `W`, panel width in pixels. -/
  width : Nat
  /-- `H`, panel height in pixels. -/
  height : Nat
  /-- `IDLE_LEVEL`, the BUSY level that means idle (D4). -/
  idleLevel : Bit
  /-- `BUSY_TIMEOUT`, in non-idle samples (D5). -/
  busyTimeout : Option Nat
  /-- `TRANSPORT_CAN_FAIL` (D6). -/
  transportCanFail : Bool
  /-- `CHUNKING(NBUF)`, the list of chunk lengths for this `NBUF` (D7, R192). -/
  chunking : List Nat
  /-- `OPC`. -/
  opc : Opc
  /-- `P_PWR`, 5 bytes, OPEN. -/
  pPwr : List Byte
  /-- `P_PSR`, 1 byte, OPEN. -/
  pPsr : List Byte
  /-- `P_PLL`, 1 byte, OPEN. -/
  pPll : List Byte
  /-- `P_VDCS`, 1 byte, OPEN. -/
  pVdcs : List Byte
  /-- `P_CDI`, 1 byte, OPEN. -/
  pCdi : List Byte
  /-- `P_DSLP`, 0 or more bytes, OPEN. -/
  pDslp : List Byte
  deriving DecidableEq, Repr

namespace Config

/-- Free value: the BUSY level of the n-th sample the environment has not scripted (R9, R286; log 2). No body. -/
opaque freeLevel : Nat → Bit

/-- Free value: whether the n-th unscripted write fails, read only when `TRANSPORT_CAN_FAIL` (R9, R287; log 3). -/
opaque freeFails : Nat → Bool

/-- The OPEN payload bytes of R8 (D3, I20; log 4): nothing is known of them but their number. -/
opaque pwrByte : Nat → Byte
/-- The OPEN byte of `P_PSR` (log 4). -/
opaque psrByte : Byte
/-- The OPEN byte of `P_PLL` (log 4). -/
opaque pllByte : Byte
/-- The OPEN byte of `P_VDCS` (log 4). -/
opaque vdcsByte : Byte
/-- The OPEN byte of `P_CDI` (log 4). -/
opaque cdiByte : Byte
/-- The OPEN payload `P_DSLP`, of any length (log 4). -/
opaque dslpBytes : List Byte

end Config

/-- The reference configuration (R8): 400 × 300, one chunk, no timeout, a transport that does not fail. The OPEN
payloads are the free constants above (log 4). -/
def Cfg.reference : Cfg :=
  { width := 400, height := 300, idleLevel := true, busyTimeout := none, transportCanFail := false,
    chunking := [15000], opc := Opc.reference,
    pPwr := [Config.pwrByte 0, Config.pwrByte 1, Config.pwrByte 2, Config.pwrByte 3, Config.pwrByte 4],
    pPsr := [Config.psrByte], pPll := [Config.pllByte], pVdcs := [Config.vdcsByte], pCdi := [Config.cdiByte],
    pDslp := Config.dslpBytes }

end Sys2Proof
end

