-- ==== Sys2Proof/Syntax.lean ====
section
/-! DEFINITION. The instructions: one constructor for each row of spec/opcode_table.json. The first twelve are the host
operations of 30_encoding.md R93, the last thirteen the controller commands of R98 (00_scope.md R4). -/

namespace Sys2Proof

/-- An instruction of either level (R4). A controller command carries no operand: its payload is a literal, a
configuration parameter or computed from `W` and `H` (R98, R99). `showBuf` is SHOW (the word is taken in Lean). -/
inductive Instr where
  /-- RESET, format N (R160). -/
  | reset
  /-- INIT, format F, `BLANK` (R163). -/
  | init (blank : Bit)
  /-- DISPLAY, format B, `L` and `DATA` (R190). -/
  | display (len : BitVec 32) (data : List Byte)
  /-- SHOW, format N (R196). -/
  | showBuf
  /-- CLEAR, format N (R197). -/
  | clear
  /-- SLEEP, format N (R220). -/
  | sleep
  /-- WAKE, format N (R223). -/
  | wake
  /-- DRAW, format B, `L` and `DATA` (R240). -/
  | draw (len : BitVec 32) (data : List Byte)
  /-- FILL, format V, `VAL` (R241). -/
  | fill (val : Byte)
  /-- SETPIX, format PW, `X`, `Y`, `v` (R242). -/
  | setpix (x y : BitVec 16) (v : Bit)
  /-- GETPIX, format P, `X`, `Y` (R243). -/
  | getpix (x y : BitVec 16)
  /-- READBUF, format N (R244). -/
  | readbuf
  /-- PSR, panel setting (R168). -/
  | psr
  /-- PWR, power setting (R165). -/
  | pwr
  /-- PON, power on (R166). -/
  | pon
  /-- BTST, booster soft-start control (R164). -/
  | btst
  /-- DSLP, deep-sleep-mode command (R221). -/
  | dslp
  /-- DTM1, start transmission 1 (R198). -/
  | dtm1
  /-- DSP, data stop (R193). -/
  | dsp
  /-- DRF, display refresh (R194). -/
  | drf
  /-- DTM2, start transmission 2 (R191). -/
  | dtm2
  /-- PLL, PLL control (R169). -/
  | pll
  /-- CDI, VCOM and data-interval setting (R172). -/
  | cdi
  /-- TRES, resolution setting (R170). -/
  | tres
  /-- VDCS, VCOM DC setting (R171). -/
  | vdcs
  deriving DecidableEq, Repr

end Sys2Proof
end

