-- ==== Sys2Proof/WellFormed.lean ====
section
/-! DEFINITION. Well-formed instructions: what the format of 30_encoding.md R91 asks of the operands beyond their types.
Only format B asks something: `DATA` has exactly `L` bytes (R95 (a)). Every other operand is a whole field. -/

namespace Sys2Proof

/-- The check of R95 (a) on a term: a format-B operation carries exactly `L` data bytes. -/
def Instr.wellFormed : Instr → Bool
  | .display len data => data.length == len.toNat
  | .draw len data => data.length == len.toNat
  | .reset | .init _ | .showBuf | .clear | .sleep | .wake | .fill _ | .setpix _ _ _ | .getpix _ _ | .readbuf => true
  | .psr | .pwr | .pon | .btst | .dslp | .dtm1 | .dsp | .drf | .dtm2 | .pll | .cdi | .tres | .vdcs => true

end Sys2Proof
end

