-- ==== Sys2Proof/Decode.lean ====
section
/-! DEFINITION. Decoding and encoding (30_encoding.md R90 to R102). Two spaces meet at the block: host requests on HREQ
and the command-phase byte on the bus. The decoder is total on any bytes and rejects by name. -/

namespace Sys2Proof

/-- Which of the two encodings a byte string is read in (R90, R97). -/
inductive Space where
  | request
  | command
  deriving DecidableEq, Repr

/-- Why a byte string is no instruction. All of the request reasons are `IllegalOperation` to the host (R276). -/
inductive DecodeError where
  /-- No byte 0 (log 12). -/
  | empty
  /-- A reserved host operation code (R94). -/
  | reservedOp (op : Byte)
  /-- The length differs from the format's (R95 (a)). -/
  | wrongLength
  /-- A reserved bit of FLAGS or PV is 1 (R95 (b)). -/
  | reservedBits
  /-- A command-phase byte outside the closed set (R100). -/
  | unknownCommand (op : Byte)
  deriving DecidableEq, Repr

/-! ### Field assembly (R92) -/

/-- A big-endian 16-bit field. -/
def be16 (hi lo : Byte) : BitVec 16 :=
  (hi.setWidth 16 <<< 8) ||| lo.setWidth 16

/-- A big-endian 32-bit field. -/
def be32 (b3 b2 b1 b0 : Byte) : BitVec 32 :=
  (b3.setWidth 32 <<< 24) ||| (b2.setWidth 32 <<< 16) ||| (b1.setWidth 32 <<< 8) ||| b0.setWidth 32

/-- Byte `n` of a word, byte 0 the least significant: bits `8n+7` down to `8n`. -/
def byteOf {w : Nat} (x : BitVec w) (n : Nat) : Byte := x.extractLsb' (8 * n) 8

/-- The reserved bits 7:1 of FLAGS and PV are all 0 (R91). -/
def reservedClear (b : Byte) : Bool := (b &&& 0xFE) == 0

/-- A FLAGS or PV byte holding one bit (R91). -/
def flagByte (v : Bit) : Byte := if v then 1 else 0

/-! ### Host requests (R91 to R95) -/

/-- Format N: byte 0 alone. -/
def formatN (i : Instr) : List Byte → Except DecodeError Instr
  | [] => .ok i
  | _ => .error .wrongLength

/-- Format F: FLAGS, whose bit 0 is `BLANK`. -/
def formatF (mk : Bit → Instr) : List Byte → Except DecodeError Instr
  | [flags] => if reservedClear flags then .ok (mk (flags.getLsbD 0)) else .error .reservedBits
  | _ => .error .wrongLength

/-- Format V: `VAL`, a full byte. -/
def formatV (mk : Byte → Instr) : List Byte → Except DecodeError Instr
  | [val] => .ok (mk val)
  | _ => .error .wrongLength

/-- Format B: `L` in four bytes, then exactly `L` data bytes. -/
def formatB (mk : BitVec 32 → List Byte → Instr) : List Byte → Except DecodeError Instr
  | b3 :: b2 :: b1 :: b0 :: data =>
    if data.length = (be32 b3 b2 b1 b0).toNat then .ok (mk (be32 b3 b2 b1 b0) data) else .error .wrongLength
  | _ => .error .wrongLength

/-- Format P: `X` and `Y`. -/
def formatP (mk : BitVec 16 → BitVec 16 → Instr) : List Byte → Except DecodeError Instr
  | [x1, x0, y1, y0] => .ok (mk (be16 x1 x0) (be16 y1 y0))
  | _ => .error .wrongLength

/-- Format PW: `X`, `Y` and PV, whose bit 0 is the pixel value. -/
def formatPW (mk : BitVec 16 → BitVec 16 → Bit → Instr) : List Byte → Except DecodeError Instr
  | [x1, x0, y1, y0, pv] =>
    if reservedClear pv then .ok (mk (be16 x1 x0) (be16 y1 y0) (pv.getLsbD 0)) else .error .reservedBits
  | _ => .error .wrongLength

/-- The host operation map (R93); every other code is reserved (R94). -/
def decodeOp (op : Byte) (rest : List Byte) : Except DecodeError Instr :=
  if op = 0x01 then formatN .reset rest
  else if op = 0x02 then formatF .init rest
  else if op = 0x03 then formatB .display rest
  else if op = 0x04 then formatN .showBuf rest
  else if op = 0x05 then formatN .clear rest
  else if op = 0x06 then formatN .sleep rest
  else if op = 0x07 then formatN .wake rest
  else if op = 0x08 then formatB .draw rest
  else if op = 0x09 then formatV .fill rest
  else if op = 0x0A then formatPW .setpix rest
  else if op = 0x0B then formatP .getpix rest
  else if op = 0x0C then formatN .readbuf rest
  else .error (.reservedOp op)

/-- A host request (R90): byte 0 is the operation code. -/
def decodeRequest : List Byte → Except DecodeError Instr
  | [] => .error .empty
  | op :: rest => decodeOp op rest

/-- The length of a request, read from byte 0 and, in format B, from bytes 1 to 4 (R102); `none` for a reserved code
or for a format-B request too short to hold `L`. -/
def requestLength : List Byte → Option Nat
  | [] => none
  | op :: rest =>
    if op ∈ [(0x01 : Byte), 0x04, 0x05, 0x06, 0x07, 0x0C] then some 1
    else if op ∈ [(0x02 : Byte), 0x09] then some 2
    else if op = 0x0B then some 5
    else if op = 0x0A then some 6
    else if op ∈ [(0x03 : Byte), 0x08] then
      match rest with
      | b3 :: b2 :: b1 :: b0 :: _ => some (5 + (be32 b3 b2 b1 b0).toNat)
      | _ => none
    else none

/-! ### Controller commands (R97, R98) -/

/-- The instruction a command of the closed set is. -/
def Command.instr : Command → Instr
  | .psr => .psr
  | .pwr => .pwr
  | .pon => .pon
  | .btst => .btst
  | .dslp => .dslp
  | .dtm1 => .dtm1
  | .dsp => .dsp
  | .drf => .drf
  | .dtm2 => .dtm2
  | .pll => .pll
  | .cdi => .cdi
  | .tres => .tres
  | .vdcs => .vdcs

/-- The command whose opcode byte is `b` in the table `t` (R98). -/
def Opc.command (t : Opc) (b : Byte) : Option Command :=
  Command.all.find? (fun c => t.code c == b)

/-- A command phase on the bus: exactly one byte, of the closed set (R97, R100). -/
def decodeCommand (t : Opc) : List Byte → Except DecodeError Instr
  | [] => .error .empty
  | [b] =>
    match t.command b with
    | some c => .ok c.instr
    | none => .error (.unknownCommand b)
  | _ => .error .wrongLength

/-- Decoding in either space. -/
def decode (t : Opc) : Space → List Byte → Except DecodeError Instr
  | .request, bytes => decodeRequest bytes
  | .command, bytes => decodeCommand t bytes

/-! ### Encoding -/

/-- The request bytes of a format-B operation (R91). -/
def encodeB (op : Byte) (len : BitVec 32) (data : List Byte) : List Byte :=
  op :: byteOf len 3 :: byteOf len 2 :: byteOf len 1 :: byteOf len 0 :: data

/-- The request bytes of a pixel operation, up to `Y` (R91). -/
def encodeP (op : Byte) (x y : BitVec 16) : List Byte :=
  [op, byteOf x 1, byteOf x 0, byteOf y 1, byteOf y 0]

/-- The words of an instruction, and the space they belong to (R91, R93, R98). -/
def encode (t : Opc) : Instr → Space × List Byte
  | .reset => (.request, [0x01])
  | .init blank => (.request, [0x02, flagByte blank])
  | .display len data => (.request, encodeB 0x03 len data)
  | .showBuf => (.request, [0x04])
  | .clear => (.request, [0x05])
  | .sleep => (.request, [0x06])
  | .wake => (.request, [0x07])
  | .draw len data => (.request, encodeB 0x08 len data)
  | .fill val => (.request, [0x09, val])
  | .setpix x y v => (.request, encodeP 0x0A x y ++ [flagByte v])
  | .getpix x y => (.request, encodeP 0x0B x y)
  | .readbuf => (.request, [0x0C])
  | .psr => (.command, [t.code .psr])
  | .pwr => (.command, [t.code .pwr])
  | .pon => (.command, [t.code .pon])
  | .btst => (.command, [t.code .btst])
  | .dslp => (.command, [t.code .dslp])
  | .dtm1 => (.command, [t.code .dtm1])
  | .dsp => (.command, [t.code .dsp])
  | .drf => (.command, [t.code .drf])
  | .dtm2 => (.command, [t.code .dtm2])
  | .pll => (.command, [t.code .pll])
  | .cdi => (.command, [t.code .cdi])
  | .tres => (.command, [t.code .tres])
  | .vdcs => (.command, [t.code .vdcs])

/-! ### The opcode table's words -/

/-- The first `n` bytes of an instruction whose bits are `w`, byte 0 first. -/
def wordBytes (n w : Nat) : List Byte :=
  (List.range n).map (fun i => BitVec.ofNat 8 (w / 256 ^ i))

/-- The request that a table word stands for: the word's own bytes, and zeros up to the length of R102. -/
def tableRequest (nbits w : Nat) : List Byte :=
  let n := (nbits + 7) / 8
  let bits := w % 2 ^ nbits
  wordBytes (max n ((requestLength (wordBytes 5 bits)).getD n)) bits

/-- The space in which a table word is read: the host request where that decodes, else the command phase. The table
lists both spaces with the same eight bits, and four bytes (01, 04, 06, 07) stand in both (log 8). -/
def tableWordSpace (nbits w : Nat) : Space :=
  match decodeRequest (tableRequest nbits w) with
  | .ok _ => .request
  | .error _ => .command

/-- The instruction the decoder reads from a table word, at the reference `OPC` (log 8). -/
def decodeTableWord (nbits w : Nat) : Option Instr :=
  match tableWordSpace nbits w with
  | .request => (decode Opc.reference .request (tableRequest nbits w)).toOption
  | .command => (decode Opc.reference .command (wordBytes ((nbits + 7) / 8) (w % 2 ^ nbits))).toOption

end Sys2Proof
end

