-- ==== Sys2Proof/Machine/State.lean ====
section
/-! DEFINITION. The state of the block as plain data (10_state.md R30 to R40), the environment's inputs and outputs at the
block's ports (00_scope.md R9, R10), the reasons a step can stop, and the state after construction
(70_reset_and_hazards.md R300). -/

namespace Sys2Proof.Machine

/-- The output pins (R10). -/
inductive Pin where
  | csN
  | dc
  | rstN
  deriving DecidableEq, Repr

/-- The level a pin register holds: not driven yet, or the level last driven (R34 to R36). -/
inductive PinLevel where
  | unknown
  | driven (v : Bit)
  deriving DecidableEq, Repr

/-- The transport's answer to one write (R10, R13). -/
inductive Answer where
  | ok
  | fail
  deriving DecidableEq, Repr

/-- The events of the trace (R13, R39). -/
inductive Event where
  | drive (p : Pin) (v : Bit)
  | write (s : List Byte) (r : Answer)
  | sample (l : Bit)
  | hold (ms : Nat)
  deriving DecidableEq, Repr

/-- The values of `STATE` (R32); the reserved code 7 has no value, since it is never written. -/
inductive Ctrl where
  | uninitialized
  | resetting
  | initializing
  | idle
  | busy
  | sleeping
  | failed
  deriving DecidableEq, Repr

/-- `SEQ` (R37): waiting for a request, or at port primitive `k` of operation `op`. `aborting op k` stands between the
two primitives of abortTransfer, after the write at `k` failed (R135; log 7). -/
inductive Seq where
  | ready
  | running (op : Instr) (k : Nat)
  | aborting (op : Instr) (k : Nat)
  deriving DecidableEq, Repr

/-- A memory of bytes in one canonical form: addresses strictly rising, no entry equal to `Memory.unlisted`. -/
abbrev Memory := List Host.Cell

/-- What an address that is not listed reads as (log 1). -/
def Memory.unlisted : Byte := 0

/-- `PB` (R40, R60): bit `b` of byte `a` of `written` is 1 where that pixel was ever written; `value` holds the written
pixels, and 0 for the others. Nothing listed is a buffer with every pixel unwritten. -/
structure PixelBuffer where
  written : Memory
  value : Memory
  deriving DecidableEq, Repr

/-- The state of the block, and of the environment as far as the block's steps meet it. -/
structure State where
  /-- `CFG` (R31), read-only. -/
  cfg : Cfg
  /-- `STATE` (R32). -/
  ctrl : Ctrl
  /-- `STATUS` (R33). -/
  status : Byte
  /-- `PIN_CS_N` (R34). -/
  csN : PinLevel
  /-- `PIN_DC` (R35). -/
  dc : PinLevel
  /-- `PIN_RST_N` (R36). -/
  rstN : PinLevel
  /-- `SEQ` (R37). -/
  seq : Seq
  /-- `POLLS` (R38). -/
  polls : Nat
  /-- `TRACE` (R39), oldest event first. -/
  trace : List Event
  /-- `PB` (R40). -/
  pb : PixelBuffer
  /-- HREQ: the requests the host will issue, oldest first; one is taken when `SEQ` is Ready (R90, R290; log 5). -/
  hreq : List (List Byte)
  /-- HRSP: the responses sent so far, oldest first (R96; log 5). -/
  hrsp : List (List Byte)
  /-- BUSY: the levels of the next samples (R9, R41; log 2). -/
  busyIn : List Bit
  /-- SPI_W: the answers to the next writes, read only when `TRANSPORT_CAN_FAIL` (R9, R13; log 3). -/
  answerIn : List Answer
  /-- How many free draws were taken after `busyIn` or `answerIn` ran out (log 2, log 3). -/
  drawCount : Nat
  deriving DecidableEq, Repr

/-- Why the machine stops: the model faults of 60_exceptions.md R291. -/
inductive Fault where
  /-- Raised by `construct` on a configuration that breaks R300. Safe: no block exists, and nothing runs. -/
  | badConfig
  /-- Raised by SHOW, GETPIX and READBUF, and by the blank refresh, on a pixel never written (R14, R291, D14). Safe: the
  source fixes no initial content, and the spec asks for this fault. -/
  | readUnwritten
  deriving DecidableEq, Repr

/-- Why an instruction is given no step in a state. -/
inductive Refusal where
  /-- Raised by `exec` for an instruction with no meaning yet; there is none left. Safe. -/
  | notModelled (mnemonic : String)
  /-- Raised by a host operation met while another operation runs: the spec gives such a request no meaning (R290).
  `step` never does it. Safe. -/
  | requestWhileRunning
  /-- Raised by a controller command met where the sequencer does not stand in its transaction: the framer is internal,
  and nothing else emits it (R2, R100, R134). `step` never does it. Safe. -/
  | commandNotDue
  deriving DecidableEq, Repr

/-- The state right after construction with the configuration `c` (R300), no request issued and nothing scripted. -/
def State.initial (c : Cfg) : State :=
  { cfg := c, ctrl := .uninitialized, status := 0x00, csN := .unknown, dc := .unknown, rstN := .unknown,
    seq := .ready, polls := 0, trace := [], pb := { written := [], value := [] },
    hreq := [], hrsp := [], busyIn := [], answerIn := [], drawCount := 0 }

/-- The machine right after reset: construction with the reference configuration (R8, R300; log 4). -/
def State.reset : State := State.initial Cfg.reference

end Sys2Proof.Machine
end

