-- ==== Sys2Proof/Machine/Flags.lean ====
section
/-! DEFINITION. The codes. The block has no condition flags but `STATUS` (10_state.md R43): this file gives the result
codes (60_exceptions.md R270), the codes of `STATE` (10_state.md R32) and the acceptance table (R46). -/

namespace Sys2Proof.Machine

/-- The result of a host operation (R270). -/
inductive Result where
  | ok
  | sizeMismatch
  | invalidState
  | busTransferFailure
  | busyTimeout
  | outOfRange
  | illegalOperation
  deriving DecidableEq, Repr

/-- The code written to `STATUS` (R270). -/
def Result.code : Result → Byte
  | .ok => 0x00
  | .sizeMismatch => 0x01
  | .invalidState => 0x02
  | .busTransferFailure => 0x03
  | .busyTimeout => 0x04
  | .outOfRange => 0x05
  | .illegalOperation => 0x06

/-- The 3-bit code of `STATE` (R32). -/
def Ctrl.code : Ctrl → BitVec 3
  | .uninitialized => 0
  | .resetting => 1
  | .initializing => 2
  | .idle => 3
  | .busy => 4
  | .sleeping => 5
  | .failed => 6

/-- The stable values of `STATE`, in which a request can be met (R32, R44). -/
def Ctrl.stable : Ctrl → Bool
  | .uninitialized | .idle | .sleeping | .failed => true
  | .resetting | .initializing | .busy => false

/-- The acceptance table (R46), as the pseudocode of each operation checks it: DISPLAY, SHOW, CLEAR and SLEEP in Idle,
WAKE in Sleeping, the others without a check. A controller command is no request and is met by no check. -/
def accepts : Instr → Ctrl → Bool
  | .display _ _, c => c == .idle
  | .showBuf, c => c == .idle
  | .clear, c => c == .idle
  | .sleep, c => c == .idle
  | .wake, c => c == .sleeping
  | .reset, _ | .init _, _ | .draw _ _, _ | .fill _, _ | .setpix _ _ _, _ | .getpix _ _, _ | .readbuf, _ => true
  | .psr, _ | .pwr, _ | .pon, _ | .btst, _ | .dslp, _ | .dtm1, _ | .dsp, _ | .drf, _ | .dtm2, _ => true
  | .pll, _ | .cdi, _ | .tres, _ | .vdcs, _ => true

end Sys2Proof.Machine
end

