-- ==== Sys2Proof/Machine/Operands.lean ====
section
/-! DEFINITION. Operands: the fixed parameters, `NBUF`, the payload of each controller command (30_encoding.md R98 to
R101), pixel addresses (20_memory.md R61), chunking (42_refresh.md R192), and the legality of a configuration
(70_reset_and_hazards.md R300). -/

namespace Sys2Proof.Machine

/-- `T_RST_HI` in ms: the minimum hold after the first reset-high drive (R8, R161). -/
def tRstHi : Nat := 1

/-- `T_RST_LO` in ms: the minimum hold of reset low (R8, R161). -/
def tRstLo : Nat := 10

/-- `F_SPI_MAX` in Hz: a requirement on the transport, which the block neither reads nor checks (R8, R287; log 13). -/
def fSpiMax : Nat := 20000000

/-- `P_BTST`, the booster soft-start payload (R8, R164). -/
def pBtst : List Byte := [0x17, 0x17, 0x17]

/-- A white byte: eight pixels of value 1 (R62). -/
def whiteByte : Byte := 0xFF

/-- `NBUF = W*H/8` (R8, R60). -/
def nbuf (c : Cfg) : Nat := c.width * c.height / 8

/-- The resolution payload: `W` then `H`, each two bytes big-endian (R101). -/
def tresPayload (c : Cfg) : List Byte :=
  [BitVec.ofNat 8 (c.width / 256), BitVec.ofNat 8 c.width, BitVec.ofNat 8 (c.height / 256), BitVec.ofNat 8 c.height]

/-- The payload each command is sent with (R98). The image bytes after DTM1 and DTM2 are separate data phases. -/
def payload (c : Cfg) : Command → List Byte
  | .psr => c.pPsr
  | .pwr => c.pPwr
  | .pon => []
  | .btst => pBtst
  | .dslp => c.pDslp
  | .dtm1 => []
  | .dsp => []
  | .drf => []
  | .dtm2 => []
  | .pll => c.pPll
  | .cdi => c.pCdi
  | .tres => tresPayload c
  | .vdcs => c.pVdcs

/-- The number of payload bytes the command set gives each command; any number for DSLP (R98, R99). -/
def arity : Command → Option Nat
  | .psr => some 1
  | .pwr => some 5
  | .pon => some 0
  | .btst => some 3
  | .dslp => none
  | .dtm1 => some 0
  | .dsp => some 0
  | .drf => some 0
  | .dtm2 => some 0
  | .pll => some 1
  | .cdi => some 1
  | .tres => some 4
  | .vdcs => some 1

/-- The byte address of pixel (x, y) (R61). -/
def pixByte (c : Cfg) (x y : Nat) : Nat := y * (c.width / 8) + x / 8

/-- The bit position of pixel (x, y) in its byte: the leftmost pixel is bit 7 (R61). -/
def pixBit (x : Nat) : Nat := 7 - x % 8

/-- The coordinates name a pixel of the panel (R61, R275). -/
def inPanel (c : Cfg) (x y : BitVec 16) : Bool := x.toNat < c.width && y.toNat < c.height

/-- A pixel value as a result byte, `zext_8(v)` (R243). -/
def pixelByte (v : Bit) : Byte := if v then 0x01 else 0x00

/-- Where the bytes of a write come from: given bytes, or `n` bytes of the pixel buffer from `a` on, read when they are
streamed (R76). -/
inductive Source where
  | bytes (s : List Byte)
  | buffer (a n : Nat)
  deriving DecidableEq, Repr

/-- `split(D, lens)` (R192): consecutive pieces of the given lengths. -/
def split (d : List Byte) : List Nat → List (List Byte)
  | [] => []
  | n :: lens => d.take n :: split (d.drop n) lens

/-- The chunks of a buffer the host sent (R190, R192). -/
def dataChunks (c : Cfg) (d : List Byte) : List Source := (split d c.chunking).map Source.bytes

/-- The chunks of the pixel buffer from address `a` on (R76, R192). -/
def chunksFrom (a : Nat) : List Nat → List Source
  | [] => []
  | n :: lens => .buffer a n :: chunksFrom (a + n) lens

/-- The chunks of the whole pixel buffer (R76, R192). -/
def bufferChunks (c : Cfg) : List Source := chunksFrom 0 c.chunking

/-- The thirteen opcode bytes are distinct (R98, R300 (d)). -/
def opcDistinct (t : Opc) : Bool := (Command.all.map t.code).Nodup

/-- A legal configuration (R300 (a) to (g)); (f), that the idle level is 0 or 1, holds by its type. -/
def legal (c : Cfg) : Bool :=
  c.width % 8 == 0
    && (8 ≤ c.width && c.width ≤ 65528 && 1 ≤ c.height && c.height ≤ 65535)
    && (c.pPwr.length == 5 && c.pPsr.length == 1 && c.pPll.length == 1 && c.pVdcs.length == 1 && c.pCdi.length == 1)
    && opcDistinct c.opc
    && c.busyTimeout != some 0
    && (c.chunking != [] && c.chunking.all (0 < ·) && c.chunking.sum == nbuf c)

end Sys2Proof.Machine
end

