-- ==== Sys2Proof/Machine/Ops.lean ====
section
/-! DEFINITION. The named operations over memory, the pixel buffer, the pins, the environment's inputs and the response:
the port primitives of 00_scope.md R13, the memory primitives of R14, and how an operation ends, well or in error
(60_exceptions.md R277, R278). -/

namespace Sys2Proof.Machine

/-! ### Memory -/

/-- The byte at an address. -/
def Memory.read : Memory → Nat → Byte
  | [], _ => Memory.unlisted
  | (b, v) :: m, a => if b = a then v else Memory.read m a

/-- List `v` at address `a`, in address order. -/
def Memory.insert : Memory → Nat → Byte → Memory
  | [], a, v => [(a, v)]
  | (b, u) :: m, a, v =>
    if a < b then (a, v) :: (b, u) :: m
    else if a = b then (a, v) :: m
    else (b, u) :: Memory.insert m a v

/-- Write one byte: the value an unlisted address reads as is not listed. -/
def Memory.write (m : Memory) (a : Nat) (v : Byte) : Memory :=
  if v = Memory.unlisted then m.filter (fun e => e.1 != a) else Memory.insert m a v

/-- The canonical form: addresses strictly rising, no entry equal to what an unlisted address reads as. -/
def Memory.wf : Memory → Bool
  | [] => true
  | (a, v) :: m => v != Memory.unlisted && m.all (fun e => a < e.1) && Memory.wf m

/-! ### The pixel buffer (R14, R60, R61) -/

/-- `MemRead(a, 1)`: the byte, or nothing where a pixel of it was never written. -/
def PixelBuffer.readByte (p : PixelBuffer) (a : Nat) : Option Byte :=
  if p.written.read a = 0xFF then some (p.value.read a) else none

/-- `MemRead(a, n)`: bytes `a` to `a+n-1`, or nothing where a pixel of them was never written. -/
def PixelBuffer.readBytes (p : PixelBuffer) (a : Nat) : Nat → Option (List Byte)
  | 0 => some []
  | n + 1 =>
    match p.readByte a, PixelBuffer.readBytes p (a + 1) n with
    | some v, some vs => some (v :: vs)
    | _, _ => none

/-- `MemWrite(a, 1, [v])`: all eight pixels of the byte are written. -/
def PixelBuffer.writeByte (p : PixelBuffer) (a : Nat) (v : Byte) : PixelBuffer :=
  { written := p.written.write a 0xFF, value := p.value.write a v }

/-- `MemWrite(a, n, s)`. -/
def PixelBuffer.writeBytes (p : PixelBuffer) (a : Nat) : List Byte → PixelBuffer
  | [] => p
  | v :: vs => PixelBuffer.writeBytes (p.writeByte a v) (a + 1) vs

/-- The byte with only bit `b` set. -/
def bitMask (b : Nat) : Byte := (1 : Byte) <<< b

/-- The pixel at bit `b` of byte `a`, or nothing where it was never written. -/
def PixelBuffer.readPixel (p : PixelBuffer) (a b : Nat) : Option Bit :=
  if (p.written.read a).getLsbD b then some ((p.value.read a).getLsbD b) else none

/-- Write the pixel at bit `b` of byte `a`; the other seven stay as they were (R61, R73). -/
def PixelBuffer.writePixel (p : PixelBuffer) (a b : Nat) (v : Bit) : PixelBuffer :=
  { written := p.written.write a (p.written.read a ||| bitMask b),
    value := p.value.write a (if v then p.value.read a ||| bitMask b else p.value.read a &&& ~~~bitMask b) }

/-- The invariant of `PB` (R40, R60): both lists canonical, no address outside the buffer, and no value kept for a pixel
that was never written. -/
def PixelBuffer.wf (n : Nat) (p : PixelBuffer) : Bool :=
  p.written.wf && p.value.wf && p.written.all (fun e => e.1 < n)
    && p.value.all (fun e => e.2 &&& ~~~p.written.read e.1 == 0)

/-- The bytes a write's source gives, or nothing where it would read an unwritten pixel (R76, R291). -/
def Source.get (p : PixelBuffer) : Source → Option (List Byte)
  | .bytes s => some s
  | .buffer a n => p.readBytes a n

/-! ### Registers and ports (R12, R13) -/

/-- `STATE <- c`. -/
def State.setCtrl (s : State) (c : Ctrl) : State := { s with ctrl := c }

/-- `SEQ <- q`. -/
def State.setSeq (s : State) (q : Seq) : State := { s with seq := q }

/-- `POLLS <- n`. -/
def State.setPolls (s : State) (n : Nat) : State := { s with polls := n }

/-- `PB <- p`. -/
def State.setPb (s : State) (p : PixelBuffer) : State := { s with pb := p }

/-- Append one event to `TRACE` (R39). -/
def State.emit (s : State) (e : Event) : State := { s with trace := s.trace ++ [e] }

/-- The level of an output pin register. -/
def State.pin (s : State) : Pin → PinLevel
  | .csN => s.csN
  | .dc => s.dc
  | .rstN => s.rstN

/-- The pin register alone, without its event. -/
def State.setPin (s : State) (p : Pin) (v : PinLevel) : State :=
  match p with
  | .csN => { s with csN := v }
  | .dc => { s with dc := v }
  | .rstN => { s with rstN := v }

/-- `Drive(p, v)` (R13). -/
def State.drive (s : State) (p : Pin) (v : Bit) : State := (s.setPin p (.driven v)).emit (.drive p v)

/-- The level the next sample reads: scripted, else free (R9, R13; log 2). -/
def State.nextLevel (s : State) : Bit :=
  match s.busyIn with
  | l :: _ => l
  | [] => Config.freeLevel s.drawCount

/-- The level is used up. -/
def State.takeLevel (s : State) : State :=
  match s.busyIn with
  | _ :: ls => { s with busyIn := ls }
  | [] => { s with drawCount := s.drawCount + 1 }

/-- `Sample()`: take that level and record it (R13). -/
def State.busSample (s : State) : State := s.takeLevel.emit (.sample s.nextLevel)

/-- The answer the next write gets: always ok from a transport that cannot fail, else scripted, else free (R13, R135;
log 3). -/
def State.nextAnswer (s : State) : Answer :=
  if s.cfg.transportCanFail then
    match s.answerIn with
    | r :: _ => r
    | [] => if Config.freeFails s.drawCount then .fail else .ok
  else .ok

/-- The answer is used up, where one was drawn. -/
def State.takeAnswer (s : State) : State :=
  if s.cfg.transportCanFail then
    match s.answerIn with
    | _ :: rs => { s with answerIn := rs }
    | [] => { s with drawCount := s.drawCount + 1 }
  else s

/-- `Write(bs)`: take that answer and record the write (R13). -/
def State.busWrite (s : State) (bs : List Byte) : State := s.takeAnswer.emit (.write bs s.nextAnswer)

/-! ### How an operation ends (R33, R96, R277, R278) -/

/-- The end of an operation: `STATUS` gets the code, the response `[STATUS, STATE, result]` is sent, and `SEQ` is Ready
again (R33, R96). -/
def State.finish (s : State) (r : Result) (result : List Byte) : State :=
  { s with status := r.code, seq := .ready,
           hrsp := s.hrsp ++ [r.code :: s.ctrl.code.setWidth 8 :: result] }

/-- An error of any kind, taken in the one way the block has: no handler, no saved state, the operation ends and the
response names the error (R279, R280). A fatal error leaves `STATE` Failed (R278); a pre-check error leaves it (R277). -/
def State.raise (s : State) (r : Result) : State :=
  match r with
  | .busTransferFailure | .busyTimeout => (s.setCtrl .failed).finish r []
  | .ok | .sizeMismatch | .invalidState | .outOfRange | .illegalOperation => s.finish r []

/-- `abortTransfer()` after the failed write: chip select goes inactive and the operation ends (R135). -/
def State.abort (s : State) : State := (s.drive .csN true).raise .busTransferFailure

/-! ### Checks before execution (R281) -/

/-- The operand check: the length of DISPLAY and DRAW, the coordinates of SETPIX and GETPIX (R271, R275). -/
def operandError (c : Cfg) : Instr → Option Result
  | .display len _ => if len.toNat = nbuf c then none else some .sizeMismatch
  | .draw len _ => if len.toNat = nbuf c then none else some .sizeMismatch
  | .setpix x y _ => if inPanel c x y then none else some .outOfRange
  | .getpix x y => if inPanel c x y then none else some .outOfRange
  | .reset | .init _ | .showBuf | .clear | .sleep | .wake | .fill _ | .readbuf => none
  | .psr | .pwr | .pon | .btst | .dslp | .dtm1 | .dsp | .drf | .dtm2 | .pll | .cdi | .tres | .vdcs => none

/-- The first failing check after decoding: state, then operand (R281). -/
def preCheck (i : Instr) (s : State) : Option Result :=
  if accepts i s.ctrl then operandError s.cfg i else some .invalidState

/-! ### Construction (R300) -/

/-- Construction: refuses an illegal configuration with the model fault BadConfig, else sets every register. -/
def construct (c : Cfg) : Host.Outcome State Fault Refusal :=
  if legal c then .next (State.initial c) else .fault .badConfig

end Sys2Proof.Machine
end

