-- ==== Sys2Proof/Machine/Framer.lean ====
section
/-! DEFINITION. The Bus Framer's micro-operations and the other pieces an operation's body is made of, as lists of the
port primitives in the order their rules give (40_bus_framer.md R130, R131, R136; 41_reset_init.md R161). -/

namespace Sys2Proof.Machine

/-- One port primitive, or one pixel-buffer access, of an operation's body (R13, R14, R37). -/
inductive Prim where
  | drive (p : Pin) (v : Bit)
  | hold (ms : Nat)
  | write (src : Source)
  /-- The repeated sample of a wait-until-idle (R136). -/
  | sample
  | memWrite (a : Nat) (s : List Byte)
  /-- `MemRead(0, NBUF)` (R163, R196). -/
  | memReadAll
  deriving DecidableEq, Repr

/-- A register write that follows a primitive in the pseudocode, in the same step. -/
inductive Action where
  | setCtrl (c : Ctrl)
  /-- `POLLS <- 0`, the start of a wait (R136). -/
  | clearPolls
  deriving DecidableEq, Repr

/-- One position of a body: its primitive, the controller command whose transaction it belongs to, and the register
writes that follow it. -/
structure Micro where
  prim : Prim
  cmd : Option Command
  after : List Action
  deriving DecidableEq, Repr

/-- A position with no register write after it. -/
def micro (cmd : Option Command) (p : Prim) : Micro := { prim := p, cmd := cmd, after := [] }

/-- Let register writes follow the last position of a list. -/
def andThen : List Micro → List Action → List Micro
  | [], _ => []
  | [m], as => [{ m with after := m.after ++ as }]
  | m :: n :: ms, as => m :: andThen (n :: ms) as

/-- `sendData(s)` (R131). -/
def sendData (cmd : Option Command) (src : Source) : List Micro :=
  [micro cmd (.drive .dc true), micro cmd (.drive .csN false), micro cmd (.write src), micro cmd (.drive .csN true)]

/-- The command phase of `sendCommand` (R130). -/
def commandPhase (c : Cfg) (m : Command) : List Micro :=
  [micro (some m) (.drive .csN true), micro (some m) (.drive .dc false), micro (some m) (.drive .csN false),
   micro (some m) (.write (.bytes [c.opc.code m])), micro (some m) (.drive .csN true)]

/-- The data phase of `sendCommand`: none for an empty payload (R130, D16). -/
def payloadPhase (m : Command) : List Byte → List Micro
  | [] => []
  | p :: ps => sendData (some m) (.bytes (p :: ps))

/-- `sendCommand(OPC(m), payload)`: one transaction (R97, R130). -/
def sendCommand (c : Cfg) (m : Command) : List Micro := commandPhase c m ++ payloadPhase m (payload c m)

/-- `waitUntilIdle()` after the given positions, then the given register writes (R136). -/
def thenWait (ms : List Micro) (as : List Action) : List Micro :=
  andThen ms [.clearPolls] ++ [{ prim := .sample, cmd := none, after := as }]

/-- `resetPulse()` (R161). -/
def resetPulse : List Micro :=
  [micro none (.drive .rstN true), micro none (.hold tRstHi), micro none (.drive .rstN false),
   micro none (.hold tRstLo), micro none (.drive .rstN true)]

/-- One-byte writes of one value to `n` consecutive bytes of `PB` from address `a` on. -/
def memWrites (v : Byte) (a : Nat) : Nat → List Micro
  | 0 => []
  | n + 1 => micro none (.memWrite a [v]) :: memWrites v (a + 1) n

/-- The loop that writes one value to every byte of `PB`, one byte at a time (R163, R241). -/
def fillLoop (c : Cfg) (v : Byte) : List Micro := memWrites v 0 (nbuf c)

end Sys2Proof.Machine
end

