-- ==== Sys2Proof/Machine/Sequencer.lean ====
section
/-! DEFINITION. The operation sequencer (10_state.md R37): the body of each host operation, unrolled into port primitives,
one step at one position of it, and the shapes an instruction's meaning has. -/

namespace Sys2Proof.Machine

/-! ### Bodies -/

/-- `DISPLAY-body` over the given chunks (R190). -/
def displayBody (c : Cfg) (chunks : List Source) : List Micro :=
  sendCommand c .dtm2 ++ chunks.flatMap (sendData none) ++ sendCommand c .dsp
    ++ thenWait (andThen (sendCommand c .drf) [.setCtrl .busy]) [.setCtrl .idle]

/-- The blank refresh (R173): fill `PB` white, read it, run DISPLAY-body on it. -/
def blankRefresh (c : Cfg) : List Micro :=
  fillLoop c whiteByte ++ [micro none .memReadAll] ++ displayBody c (bufferChunks c)

/-- The body of INIT, and of WAKE with `blank` false, from the reset pulse on (R163, R223). -/
def initBody (c : Cfg) (blank : Bit) : List Micro :=
  andThen resetPulse [.setCtrl .initializing]
    ++ sendCommand c .btst
    ++ sendCommand c .pwr
    ++ thenWait (sendCommand c .pon) []
    ++ sendCommand c .psr
    ++ sendCommand c .pll
    ++ sendCommand c .tres
    ++ sendCommand c .vdcs
    ++ andThen (sendCommand c .cdi) [.setCtrl .idle]
    ++ if blank then blankRefresh c else []

/-- The body of RESET (R160). -/
def resetBody : List Micro := andThen resetPulse [.setCtrl .uninitialized]

/-- The body of SHOW (R196). -/
def showBody (c : Cfg) : List Micro := micro none .memReadAll :: displayBody c (bufferChunks c)

/-- The body of CLEAR: one data phase for each byte of an all-white image (R197). -/
def clearBody (c : Cfg) : List Micro :=
  sendCommand c .dtm1 ++ (List.replicate (nbuf c) (sendData none (.bytes [whiteByte]))).flatten

/-- The body of SLEEP (R220). -/
def sleepBody (c : Cfg) : List Micro := thenWait (sendCommand c .dslp) [.setCtrl .sleeping]

/-- The body of each operation that the sequencer runs. The operations of a single pixel-buffer access end in the step
that accepts them, and a controller command runs inside its operation's body: none of these has a body of its own. -/
def body (c : Cfg) : Instr → List Micro
  | .reset => resetBody
  | .init blank => initBody c blank
  | .display _ data => displayBody c (dataChunks c data)
  | .showBuf => showBody c
  | .clear => clearBody c
  | .sleep => sleepBody c
  | .wake => initBody c false
  | .fill val => fillLoop c val
  | .draw _ _ | .setpix _ _ _ | .getpix _ _ | .readbuf => []
  | .psr | .pwr | .pon | .btst | .dslp | .dtm1 | .dsp | .drf | .dtm2 | .pll | .cdi | .tres | .vdcs => []

/-- The controller command whose transaction position `k` of an operation's body belongs to. -/
def commandAt (c : Cfg) (op : Instr) (k : Nat) : Option Command := ((body c op)[k]?).bind Micro.cmd

/-! ### One step at a position -/

/-- A register write that follows a primitive. -/
def State.act (s : State) : Action → State
  | .setCtrl c => s.setCtrl c
  | .clearPolls => s.setPolls 0

/-- The register writes that follow a primitive, in order (R12). -/
def State.acts (s : State) (as : List Action) : State := as.foldl State.act s

/-- After the primitive at `k`: its register writes, then the next position, or the end of the operation with `STATUS` OK
(R37). -/
def advance (op : Instr) (k : Nat) (m : Micro) (s : State) : State :=
  let s' := s.acts m.after
  if k + 1 < (body s.cfg op).length then s'.setSeq (.running op (k + 1)) else s'.finish .ok []

/-- One sample of a wait (R136): the idle level ends it; another is counted, and the `t`-th of them raises BusyTimeout
when a timeout is configured, else the wait goes on at the same position. -/
def poll (op : Instr) (k : Nat) (m : Micro) (s : State) : State :=
  let s' := s.busSample
  if s.nextLevel = s.cfg.idleLevel then advance op k m s'
  else
    let s'' := s'.setPolls (s.polls + 1)
    match s.cfg.busyTimeout with
    | some t => if t ≤ s.polls + 1 then s''.raise .busyTimeout else s''.setSeq (.running op k)
    | none => s''.setSeq (.running op k)

/-- One write (R13): ok goes on, fail enters abortTransfer (R130, R131, R135). -/
def transfer (op : Instr) (k : Nat) (m : Micro) (bs : List Byte) (s : State) : State :=
  match s.nextAnswer with
  | .ok => advance op k m (s.busWrite bs)
  | .fail => (s.busWrite bs).setSeq (.aborting op k)

/-- Perform the primitive at position `k` of operation `op`, and what follows it up to the next primitive (R37). -/
def perform (op : Instr) (k : Nat) (m : Micro) (s : State) : Host.Outcome State Fault Refusal :=
  match m.prim with
  | .drive p v => .next (advance op k m (s.drive p v))
  | .hold ms => .next (advance op k m (s.emit (.hold ms)))
  | .write src =>
    match src.get s.pb with
    | some bs => .next (transfer op k m bs s)
    | none => .fault .readUnwritten
  | .sample => .next (poll op k m s)
  | .memWrite a bs => .next (advance op k m (s.setPb (s.pb.writeBytes a bs)))
  | .memReadAll =>
    match s.pb.readBytes 0 (nbuf s.cfg) with
    | some _ => .next (advance op k m s)
    | none => .fault .readUnwritten

/-- The step at position `k` of operation `op`. A body with nothing left to do ends the operation (log 15). -/
def performAt (op : Instr) (k : Nat) (s : State) : Host.Outcome State Fault Refusal :=
  match (body s.cfg op)[k]? with
  | some m => perform op k m s
  | none => .next (s.finish .ok [])

/-! ### The shapes of a meaning -/

/-- A host operation that the sequencer runs: accepted when `SEQ` is Ready, after the checks (R46, R281), with its entry
writes and its first primitive in one step; carried on while it runs; ended by abortTransfer after a failed write
(R135). A request met while another operation runs has no meaning (R290). -/
def sequenced (op : Instr) (entry : List Action) (s : State) : Host.Outcome State Fault Refusal :=
  match s.seq with
  | .ready =>
    match preCheck op s with
    | some e => .next (s.raise e)
    | none => performAt op 0 (s.acts entry)
  | .running op' k => if op' = op then performAt op k s else .refused .requestWhileRunning
  | .aborting op' _ => if op' = op then .next s.abort else .refused .requestWhileRunning

/-- A host operation of one pixel-buffer access: checks, access, end and response in one step (R37, R281). -/
def immediate (op : Instr) (effect : State → Host.Outcome State Fault Refusal) (s : State) :
    Host.Outcome State Fault Refusal :=
  match s.seq with
  | .ready =>
    match preCheck op s with
    | some e => .next (s.raise e)
    | none => effect s
  | .running _ _ => .refused .requestWhileRunning
  | .aborting _ _ => .refused .requestWhileRunning

/-- A controller command: the next primitive of its transaction, where the sequencer stands in it (R97, R134; log 9). -/
def transaction (c : Command) (s : State) : Host.Outcome State Fault Refusal :=
  match s.seq with
  | .ready => .refused .commandNotDue
  | .running op k => if commandAt s.cfg op k = some c then performAt op k s else .refused .commandNotDue
  | .aborting op k => if commandAt s.cfg op k = some c then .next s.abort else .refused .commandNotDue

/-! ### What the sequencer runs next -/

/-- The instruction the sequencer stands in: the controller command whose transaction is under way, else the operation
itself (log 9). -/
def currentAt (c : Cfg) (op : Instr) (k : Nat) : Instr :=
  match commandAt c op k with
  | some m => m.instr
  | none => op

/-- Take the oldest request of the host (R290). -/
def State.takeRequest (s : State) : State := { s with hreq := s.hreq.tail }

/-- A request that decodes to nothing: IllegalOperation (R94, R95, R276, R277). -/
def State.illegalRequest (s : State) : State := s.raise .illegalOperation

/-! ### Placing an instruction to run next (log 8) -/

/-- An operation whose body emits the given command (R98, "emitted by"). -/
def emitter : Command → Instr
  | .btst | .pwr | .pon | .psr | .pll | .tres | .vdcs | .cdi => .init false
  | .dslp => .sleep
  | .dtm1 => .clear
  | .dtm2 | .dsp | .drf => .showBuf

/-- The sequencer at the first primitive of a command's transaction, in an operation that emits it. -/
def State.standAt (s : State) (c : Command) : State :=
  s.setSeq (.running (emitter c) ((body s.cfg (emitter c)).findIdx (fun m => m.cmd == some c)))

/-- The oldest request the host issues, with the sequencer waiting for it. -/
def State.placeRequest (s : State) (bytes : List Byte) : State :=
  { s with seq := .ready, hreq := bytes :: s.hreq }

/-- Place a table word where the machine takes its next instruction: a request on HREQ, or a command's position in the
sequencer. -/
def State.placeTableWord (s : State) (nbits w : Nat) : State :=
  match tableWordSpace nbits w with
  | .request => s.placeRequest (tableRequest nbits w)
  | .command =>
    match Opc.reference.command (BitVec.ofNat 8 w) with
    | some c => s.standAt c
    | none => s.placeRequest (tableRequest nbits w)

end Sys2Proof.Machine
end

