-- ==== Sys2Proof/Machine/Pixel.lean ====
section
/-! DEFINITION. The pixel-buffer operations (44_pixel_buffer.md): no event, no change of `STATE`, accepted in every stable
state. -/

namespace Sys2Proof.Machine

/-- DRAW (R240): copy a host buffer of exactly `NBUF` bytes into `PB`. -/
def execDraw (len : BitVec 32) (data : List Byte) (s : State) : Host.Outcome State Fault Refusal :=
  immediate (.draw len data) (fun s => .next ((s.setPb (s.pb.writeBytes 0 data)).finish .ok [])) s

/-- FILL (R241): one value to every byte of `PB`, a byte a step. -/
def execFill (val : Byte) (s : State) : Host.Outcome State Fault Refusal := sequenced (.fill val) [] s

/-- SETPIX (R242): write one pixel; the other seven of its byte are unchanged. -/
def execSetpix (x y : BitVec 16) (v : Bit) (s : State) : Host.Outcome State Fault Refusal :=
  immediate (.setpix x y v)
    (fun s => .next ((s.setPb (s.pb.writePixel (pixByte s.cfg x.toNat y.toNat) (pixBit x.toNat) v)).finish .ok [])) s

/-- GETPIX (R243): one pixel as the result byte; an unwritten one is the model fault ReadUnwritten. -/
def execGetpix (x y : BitVec 16) (s : State) : Host.Outcome State Fault Refusal :=
  immediate (.getpix x y)
    (fun s =>
      match s.pb.readPixel (pixByte s.cfg x.toNat y.toNat) (pixBit x.toNat) with
      | some v => .next (s.finish .ok [pixelByte v])
      | none => .fault .readUnwritten) s

/-- READBUF (R244): the `NBUF` bytes of `PB` as the result; an unwritten pixel is the model fault ReadUnwritten. -/
def execReadbuf (s : State) : Host.Outcome State Fault Refusal :=
  immediate .readbuf
    (fun s =>
      match s.pb.readBytes 0 (nbuf s.cfg) with
      | some d => .next (s.finish .ok d)
      | none => .fault .readUnwritten) s

end Sys2Proof.Machine
end

