-- ==== Sys2Proof/Machine/Refresh.lean ====
section
/-! DEFINITION. DISPLAY, SHOW and CLEAR, and the controller commands they emit (42_refresh.md). -/

namespace Sys2Proof.Machine

/-- DISPLAY (R190): Idle only, `L = NBUF`; the host's buffer to bank 2, then a refresh and its wait. -/
def execDisplay (len : BitVec 32) (data : List Byte) (s : State) : Host.Outcome State Fault Refusal :=
  sequenced (.display len data) [] s

/-- SHOW (R196): DISPLAY of the block's own pixel buffer. -/
def execShow (s : State) : Host.Outcome State Fault Refusal := sequenced .showBuf [] s

/-- CLEAR (R197): an all-white image to bank 1, one byte at a time, with no refresh. -/
def execClear (s : State) : Host.Outcome State Fault Refusal := sequenced .clear [] s

/-- DTM2 (R191): start transmission 2, no payload. -/
def execDtm2 (s : State) : Host.Outcome State Fault Refusal := transaction .dtm2 s

/-- DSP (R193): data stop, no payload. -/
def execDsp (s : State) : Host.Outcome State Fault Refusal := transaction .dsp s

/-- DRF (R194): display refresh, no payload, then `STATE <- Busy` and the wait. -/
def execDrf (s : State) : Host.Outcome State Fault Refusal := transaction .drf s

/-- DTM1 (R198): start transmission 1, no payload. -/
def execDtm1 (s : State) : Host.Outcome State Fault Refusal := transaction .dtm1 s

end Sys2Proof.Machine
end

