-- ==== Sys2Proof/Machine/ResetInit.lean ====
section
/-! DEFINITION. RESET and INIT, and the controller commands of the initialization sequence (41_reset_init.md). -/

namespace Sys2Proof.Machine

/-- RESET (R160): accepted in every stable state; `STATE <- Resetting`, the pulse, `STATE <- Uninitialized`. -/
def execReset (s : State) : Host.Outcome State Fault Refusal := sequenced .reset [.setCtrl .resetting] s

/-- INIT (R163, R173, R174): accepted in every stable state; `STATE <- Resetting`, the pulse, nine steps, and with BLANK
the blank refresh. -/
def execInit (blank : Bit) (s : State) : Host.Outcome State Fault Refusal :=
  sequenced (.init blank) [.setCtrl .resetting] s

/-- BTST (R164), step 1: payload `17 17 17`. -/
def execBtst (s : State) : Host.Outcome State Fault Refusal := transaction .btst s

/-- PWR (R165), step 2: payload `P_PWR`. -/
def execPwr (s : State) : Host.Outcome State Fault Refusal := transaction .pwr s

/-- PON (R166, R167), step 3: no payload, then the wait. -/
def execPon (s : State) : Host.Outcome State Fault Refusal := transaction .pon s

/-- PSR (R168), step 5: payload `P_PSR`. -/
def execPsr (s : State) : Host.Outcome State Fault Refusal := transaction .psr s

/-- PLL (R169), step 6: payload `P_PLL`. -/
def execPll (s : State) : Host.Outcome State Fault Refusal := transaction .pll s

/-- TRES (R170, R101), step 7: width and height, big-endian. -/
def execTres (s : State) : Host.Outcome State Fault Refusal := transaction .tres s

/-- VDCS (R171), step 8: payload `P_VDCS`. -/
def execVdcs (s : State) : Host.Outcome State Fault Refusal := transaction .vdcs s

/-- CDI (R172), step 9: payload `P_CDI`, then `STATE <- Idle`. -/
def execCdi (s : State) : Host.Outcome State Fault Refusal := transaction .cdi s

end Sys2Proof.Machine
end

