-- ==== Sys2Proof/Machine/SleepWake.lean ====
section
/-! DEFINITION. SLEEP and WAKE, and the deep-sleep command (43_sleep_wake.md). -/

namespace Sys2Proof.Machine

/-- SLEEP (R220): Idle only; DSLP, the wait, `STATE <- Sleeping`. -/
def execSleep (s : State) : Host.Outcome State Fault Refusal := sequenced .sleep [] s

/-- WAKE (R223): Sleeping only; INIT's body with BLANK 0. -/
def execWake (s : State) : Host.Outcome State Fault Refusal := sequenced .wake [.setCtrl .resetting] s

/-- DSLP (R221): payload `P_DSLP`, which may be empty. -/
def execDslp (s : State) : Host.Outcome State Fault Refusal := transaction .dslp s

end Sys2Proof.Machine
end

