-- ==== Sys2Proof/Machine/Dispatch.lean ====
section
/-! DEFINITION. One arm for each constructor of Instr: the host operations (30_encoding.md R93), then the controller
commands (R98). -/

namespace Sys2Proof.Machine

def exec (i : Instr) (s : State) : Host.Outcome State Fault Refusal :=
  match i with
  | .reset => Sys2Proof.Machine.execReset s
  | .init blank => Sys2Proof.Machine.execInit blank s
  | .display len data => Sys2Proof.Machine.execDisplay len data s
  | .showBuf => Sys2Proof.Machine.execShow s
  | .clear => Sys2Proof.Machine.execClear s
  | .sleep => Sys2Proof.Machine.execSleep s
  | .wake => Sys2Proof.Machine.execWake s
  | .draw len data => Sys2Proof.Machine.execDraw len data s
  | .fill val => Sys2Proof.Machine.execFill val s
  | .setpix x y v => Sys2Proof.Machine.execSetpix x y v s
  | .getpix x y => Sys2Proof.Machine.execGetpix x y s
  | .readbuf => Sys2Proof.Machine.execReadbuf s
  | .psr => Sys2Proof.Machine.execPsr s
  | .pwr => Sys2Proof.Machine.execPwr s
  | .pon => Sys2Proof.Machine.execPon s
  | .btst => Sys2Proof.Machine.execBtst s
  | .dslp => Sys2Proof.Machine.execDslp s
  | .dtm1 => Sys2Proof.Machine.execDtm1 s
  | .dsp => Sys2Proof.Machine.execDsp s
  | .drf => Sys2Proof.Machine.execDrf s
  | .dtm2 => Sys2Proof.Machine.execDtm2 s
  | .pll => Sys2Proof.Machine.execPll s
  | .cdi => Sys2Proof.Machine.execCdi s
  | .tres => Sys2Proof.Machine.execTres s
  | .vdcs => Sys2Proof.Machine.execVdcs s

end Sys2Proof.Machine
end

