-- ==== Sys2Proof/Machine/Step.lean ====
section
/-! DEFINITION. One step of the block (10_state.md R37): at Ready it takes the host's oldest request, and otherwise it
performs the next primitive of the running operation. -/

namespace Sys2Proof.Machine

/-- One step. At Ready with no request the block waits (R69; log 5). A request that decodes to nothing ends at once with
IllegalOperation (R276). While an operation runs, the instruction the sequencer stands in is executed (R37; log 9). -/
def step (s : State) : Host.Outcome State Fault Refusal :=
  match s.seq with
  | .ready =>
    match s.hreq with
    | [] => .next s
    | req :: _ =>
      match decode s.cfg.opc .request req with
      | .ok i => exec i s.takeRequest
      | .error _ => .next s.takeRequest.illegalRequest
  | .running op k => exec (currentAt s.cfg op k) s
  | .aborting op k => exec (currentAt s.cfg op k) s

/-- `s` with the instruction of a table word placed where the next step takes it (log 8). -/
def State.withFetchWord (s : State) (nbits w : Nat) : State := s.placeTableWord nbits w

end Sys2Proof.Machine
end

