-- ==== Sys2Proof/Machine/Observe.lean ====
section
/-! DEFINITION. The observation of a run: the projection of the trace into phases and transactions (30_encoding.md R103,
R105, 40_bus_framer.md R140). The block never reads it. -/

namespace Sys2Proof.Machine

/-- One transfer on the bus (R103, R105): `CMD` where DC was 0 at the write, `DATA` where it was 1. -/
inductive Phase where
  | cmd (s : List Byte)
  | data (s : List Byte)
  deriving DecidableEq, Repr

/-- A command phase and the data phases that follow it up to the next command phase (R140). -/
structure Txn where
  cmd : List Byte
  data : List (List Byte)
  deriving DecidableEq, Repr

/-- The transfers of a trace, from the DC level in force at its start. A write with DC not driven is no transfer of
either kind; the framer never makes one (R131; log 17). -/
def phasesFrom : PinLevel → List Event → List Phase
  | _, [] => []
  | _, .drive .dc v :: es => phasesFrom (.driven v) es
  | lv, .drive .csN _ :: es => phasesFrom lv es
  | lv, .drive .rstN _ :: es => phasesFrom lv es
  | lv, .sample _ :: es => phasesFrom lv es
  | lv, .hold _ :: es => phasesFrom lv es
  | .driven false, .write s _ :: es => .cmd s :: phasesFrom (.driven false) es
  | .driven true, .write s _ :: es => .data s :: phasesFrom (.driven true) es
  | .unknown, .write _ _ :: es => phasesFrom .unknown es

/-- The transfers of a trace from construction, when DC is not driven yet (R35). -/
def phases (es : List Event) : List Phase := phasesFrom .unknown es

/-- The data phases before the first command phase, and the transactions after them. -/
def groupPhases : List Phase → List (List Byte) × List Txn
  | [] => ([], [])
  | .data s :: ps => (s :: (groupPhases ps).1, (groupPhases ps).2)
  | .cmd s :: ps => ([], { cmd := s, data := (groupPhases ps).1 } :: (groupPhases ps).2)

/-- `txns(TRACE)` (R140). -/
def txns (es : List Event) : List Txn := (groupPhases (phases es)).2

end Sys2Proof.Machine
end

