-- ==== Sys2Proof/Safety.lean ====
section
/-! DEFINITION. The terms the claims use: the event sequences the rules give, written from the rules and not from the
bodies; the invariants of the state; and the watch over the bus that R304 to R306 ask for. -/

namespace Sys2Proof.Machine

/-! ### Event sequences -/

/-- The events of `sendData(s)` (R131). -/
def dataEvents (s : List Byte) : List Event :=
  [.drive .dc true, .drive .csN false, .write s .ok, .drive .csN true]

/-- The events of the command phase of `sendCommand` (R130). -/
def phaseEvents (op : Byte) : List Event :=
  [.drive .csN true, .drive .dc false, .drive .csN false, .write [op] .ok, .drive .csN true]

/-- The events of `sendCommand(op, p)`: no data phase for an empty payload (R130, D16). -/
def commandEvents (op : Byte) : List Byte → List Event
  | [] => phaseEvents op
  | p :: ps => phaseEvents op ++ dataEvents (p :: ps)

/-- The events of `resetPulse()` (R161). -/
def pulseEvents : List Event :=
  [.drive .rstN true, .hold 1, .drive .rstN false, .hold 10, .drive .rstN true]

/-- The events of a wait that meets `n` levels that are not idle and then the idle level (R136). -/
def waitEvents (c : Cfg) (n : Nat) : List Event :=
  List.replicate n (.sample (!c.idleLevel)) ++ [.sample c.idleLevel]

/-- The levels of such a wait. -/
def waitLevels (c : Cfg) (n : Nat) : List Bit := List.replicate n (!c.idleLevel) ++ [c.idleLevel]

/-- The events of INIT with BLANK 0, or of WAKE (R163). -/
def initEvents (c : Cfg) (n : Nat) : List Event :=
  pulseEvents
    ++ commandEvents c.opc.btst [0x17, 0x17, 0x17]
    ++ commandEvents c.opc.pwr c.pPwr
    ++ commandEvents c.opc.pon []
    ++ waitEvents c n
    ++ commandEvents c.opc.psr c.pPsr
    ++ commandEvents c.opc.pll c.pPll
    ++ commandEvents c.opc.tres
        [BitVec.ofNat 8 (c.width / 256), BitVec.ofNat 8 c.width, BitVec.ofNat 8 (c.height / 256),
          BitVec.ofNat 8 c.height]
    ++ commandEvents c.opc.vdcs c.pVdcs
    ++ commandEvents c.opc.cdi c.pCdi

/-- The events of DISPLAY-body on the buffer `d`, up to the end of DRF (R190, R192). -/
def refreshEvents (c : Cfg) (d : List Byte) : List Event :=
  commandEvents c.opc.dtm2 []
    ++ (split d c.chunking).flatMap dataEvents
    ++ commandEvents c.opc.dsp []
    ++ commandEvents c.opc.drf []

/-- The events of DISPLAY-body on the buffer `d`, with a wait that meets `n` levels that are not idle (R190). -/
def displayEvents (c : Cfg) (d : List Byte) (n : Nat) : List Event := refreshEvents c d ++ waitEvents c n

/-- The events of CLEAR (R197). -/
def clearEvents (c : Cfg) : List Event :=
  commandEvents c.opc.dtm1 [] ++ (List.replicate (nbuf c) (dataEvents [0xFF])).flatten

/-- A wait that meets `n` levels that are not idle does not time out (R136). -/
def withinTimeout (c : Cfg) (n : Nat) : Bool :=
  match c.busyTimeout with
  | some t => n < t
  | none => true

/-- The transport answers ok to the next `n` writes: it cannot fail, or those answers are scripted (R135). -/
def State.answersOk (s : State) (n : Nat) : Bool :=
  !s.cfg.transportCanFail || s.answerIn.take n == List.replicate n .ok

/-- The answers left after `n` writes. -/
def State.answersAfter (s : State) (n : Nat) : List Answer :=
  if s.cfg.transportCanFail then s.answerIn.drop n else s.answerIn

/-- Every byte of the buffer has all its pixels written (R14). -/
def State.pbWritten (s : State) : Bool := (s.pb.readBytes 0 (nbuf s.cfg)).isSome

/-! ### Invariants -/

/-- `PB` is well formed for this configuration (R40, R60, R245). -/
def State.PbOk (s : State) : Prop := s.pb.wf (nbuf s.cfg) = true

/-- `STATE` after a register write. -/
def ctrlAct (c : Ctrl) : Action → Ctrl
  | .setCtrl d => d
  | .clearPolls => c

/-- `STATE` after the positions of a list, from the value `c` (R45). -/
def ctrlAfter (c : Ctrl) (ms : List Micro) : Ctrl := ms.foldl (fun c m => m.after.foldl ctrlAct c) c

/-- `STATE` when the first primitive of an operation is performed; none for FILL, which takes any stable value (R45). -/
def entryCtrl : Instr → Option Ctrl
  | .reset | .init _ | .wake => some .resetting
  | .display _ _ | .showBuf | .clear | .sleep => some .idle
  | .fill _ | .draw _ _ | .setpix _ _ _ | .getpix _ _ | .readbuf => none
  | .psr | .pwr | .pon | .btst | .dslp | .dtm1 | .dsp | .drf | .dtm2 | .pll | .cdi | .tres | .vdcs => none

/-- `STATE` is the value the operation has reached at position `k`, or a stable one where the operation never writes it;
and the position lies in the body. -/
def ctrlFits (s : State) (op : Instr) (k : Nat) : Prop :=
  k < (body s.cfg op).length ∧
    match entryCtrl op with
    | some c => s.ctrl = ctrlAfter c ((body s.cfg op).take k)
    | none => s.ctrl.stable = true

/-- `STATE` follows the sequencer: stable at Ready (R44), and the value of R45 at every position of a running operation. -/
def State.CtrlOk (s : State) : Prop :=
  match s.seq with
  | .ready => s.ctrl.stable = true
  | .running op k => ctrlFits s op k
  | .aborting op k => ctrlFits s op k

/-- The level the positions of a list last drive on a pin. -/
def pinAfter (p : Pin) (ms : List Micro) : Option Bit :=
  ms.foldl (fun v m => match m.prim with
    | .drive q b => if q = p then some b else v
    | .hold _ | .write _ | .sample | .memWrite _ _ | .memReadAll => v) none

/-- A pin register fits the positions performed so far: it holds the level they last drove, and where they drove none,
CS_N and RST_N are not low. -/
def pinFits (s : State) (p : Pin) (ms : List Micro) : Prop :=
  match pinAfter p ms with
  | some v => s.pin p = .driven v
  | none => p ≠ .dc → s.pin p ≠ .driven false

/-- The pins follow the sequencer: at Ready neither CS_N nor RST_N is low (R34, R36). -/
def State.PinsOk (s : State) : Prop :=
  match s.seq with
  | .ready => s.csN ≠ .driven false ∧ s.rstN ≠ .driven false
  | .running op k => ∀ p, pinFits s p ((body s.cfg op).take k)
  | .aborting op k => (∃ m, (body s.cfg op)[k]? = some m ∧ ∃ src, m.prim = .write src) ∧
      ∀ p, pinFits s p ((body s.cfg op).take k)

/-! ### The watch over the bus (R72, R304 to R306) -/

/-- What an observer of the trace keeps: the DC level, whether an idle sample is owed, whether the payload of the
command that owes it may still follow, and whether every write so far was allowed. -/
structure BusWatch where
  dc : PinLevel
  owed : Bool
  tail : Bool
  ok : Bool
  deriving DecidableEq, Repr

/-- The observer before the first event. -/
def BusWatch.start : BusWatch := { dc := .unknown, owed := false, tail := false, ok := true }

/-- A command phase after which the block must wait: PON, DRF or DSLP (R306). -/
def mustWait (c : Cfg) (bs : List Byte) : Bool := bs == [c.opc.pon] || bs == [c.opc.drf] || bs == [c.opc.dslp]

/-- The observer after one event. A write is allowed when no idle sample is owed, or when it is the payload of DSLP. An
idle sample settles what is owed; so does a drive of RST_N, with which every recovery from a failed wait begins (R280). -/
def watch (c : Cfg) (w : BusWatch) : Event → BusWatch
  | .drive .dc v => { w with dc := .driven v }
  | .drive .csN _ => w
  | .drive .rstN _ => { w with owed := false, tail := false }
  | .hold _ => w
  | .sample l => if l = c.idleLevel then { w with owed := false, tail := false } else w
  | .write bs _ =>
    if w.dc = .driven false then
      { w with ok := w.ok && !w.owed, owed := mustWait c bs, tail := bs == [c.opc.dslp] }
    else { w with ok := w.ok && (!w.owed || w.tail), tail := false }

/-- The observer after a trace. -/
def watched (c : Cfg) (es : List Event) : BusWatch := es.foldl (watch c) BusWatch.start

/-- The events the positions of a list append when each goes on; the bytes read from the buffer are left out, since the
observer does not look at the bytes of a data phase. -/
def pieceEvents (c : Cfg) (ms : List Micro) : List Event :=
  ms.flatMap (fun m => match m.prim with
    | .drive p v => [.drive p v]
    | .hold t => [.hold t]
    | .write (.bytes s) => [.write s .ok]
    | .write (.buffer _ _) => [.write [] .ok]
    | .sample => [.sample c.idleLevel]
    | .memWrite _ _ | .memReadAll => [])

/-- The observer of the trace and the sequencer agree: every write so far was allowed; at Ready an idle sample is owed
only after a failure; and at a position, the observer is where the positions performed so far lead it, from an
observer to whom an idle sample was owed only if the operation begins with the reset pulse or writes nothing. -/
def State.BusOk (s : State) : Prop :=
  (watched s.cfg s.trace).ok = true ∧ (watched s.cfg s.trace).dc = s.dc ∧
    match s.seq with
    | .ready => (watched s.cfg s.trace).owed = true → s.ctrl = .failed
    | .running op k => ∃ w, watched s.cfg s.trace = (pieceEvents s.cfg ((body s.cfg op).take k)).foldl (watch s.cfg) w ∧
        w.ok = true ∧
        (w.owed = true → entryCtrl op = some .resetting ∨ (entryCtrl op = none ∧ s.ctrl = .failed))
    | .aborting _ _ => True

/-! ### The closed command set -/

/-- Every command phase is one byte of the closed set (R100, R103), and no data phase is empty (R131). -/
def closedPhases (t : Opc) (ps : List Phase) : Bool :=
  ps.all (fun p => match p with
    | .cmd s => Command.all.any (fun m => s == [t.code m])
    | .data s => s != [])

/-- The running DISPLAY was accepted: its buffer has `NBUF` bytes (R190). -/
def State.OpOk (s : State) : Prop :=
  match s.seq with
  | .running (.display _ d) _ => d.length = nbuf s.cfg
  | .aborting (.display _ d) _ => d.length = nbuf s.cfg
  | _ => True

/-- The bus has carried only commands of the closed set and non-empty data phases, and the trace's DC level is the
register's. -/
def State.PhasesOk (s : State) : Prop :=
  closedPhases s.cfg.opc (phases s.trace) = true ∧ (watched s.cfg s.trace).dc = s.dc

/-- RESET, INIT and WAKE, which begin with the reset pulse (R160, R163, R223). -/
def recovers : Instr → Bool
  | .reset | .init _ | .wake => true
  | .display _ _ | .showBuf | .clear | .sleep | .draw _ _ | .fill _ | .setpix _ _ _ | .getpix _ _ | .readbuf => false
  | .psr | .pwr | .pon | .btst | .dslp | .dtm1 | .dsp | .drf | .dtm2 | .pll | .cdi | .tres | .vdcs => false

/-! ### Comparing runs -/

/-- A state with everything the block only writes taken out: `STATUS`, `TRACE` and the responses (R39, R43). -/
def State.eraseOutputs (s : State) : State := { s with status := 0, trace := [], hrsp := [] }

/-- The response an operation ends with. -/
def response (code : Byte) (c : Ctrl) (result : List Byte) : List Byte := code :: c.code.setWidth 8 :: result

end Sys2Proof.Machine
end

