-- ==== Sys2Proof/Certificates/Slice0/Obligations.lean ====
section
/-! DEFINITION. The statements for the provers, each with the rules of spec/ it formalises. A run of an operation is given
by its first step, which is `exec` of the operation, and the steps after it; a record update with every changed field
named is also the frame: every other field is unchanged. -/

open Sys2Proof Sys2Proof.Machine

/-! ### Encoding -/

/-- R91 to R93, R98: decoding the words of a well-formed instruction gives the instruction back, for every instruction
of both levels, every operand and every table of distinct opcodes. -/
def Obligations.DecodeOfEncodeIsTheInstruction : Prop :=
  ∀ (t : Opc) (i : Instr), opcDistinct t = true → i.wellFormed = true →
    decode t (encode t i).1 (encode t i).2 = .ok i

/-- R91 to R93: each byte string has one meaning: what decodes is well formed, and its words are the bytes read. -/
def Obligations.EncodeOfDecodeIsTheBytes : Prop :=
  ∀ (t : Opc) (sp : Space) (bytes : List Byte) (i : Instr), decode t sp bytes = .ok i →
    i.wellFormed = true ∧ encode t i = (sp, bytes)

/-- R93, R95, R98: a few words written out from the tables. -/
def Obligations.WrittenOutWordsDecode : Prop :=
  decode Opc.reference .request [0x02, 0x01] = .ok (.init true) ∧
  decode Opc.reference .request [0x03, 0x00, 0x00, 0x00, 0x02, 0xAA, 0x55] = .ok (.display 2 [0xAA, 0x55]) ∧
  decode Opc.reference .request [0x0A, 0x01, 0x8F, 0x01, 0x2B, 0x01] = .ok (.setpix 399 299 true) ∧
  decode Opc.reference .request [0x0B, 0x00, 0x09, 0x00, 0x01] = .ok (.getpix 9 1) ∧
  decode Opc.reference .request [0x02, 0x02] = .error .reservedBits ∧
  decode Opc.reference .command [0x61] = .ok .tres

/-- R94: a reserved operation code is IllegalOperation: no event, no state change except `STATUS`; the response is
`[06, STATE]`. (Requests and responses are lists of the model's own: log 5.) -/
def Obligations.ReservedCodesAreIllegal : Prop :=
  ∀ (s : State) (op : Byte) (tail : List Byte) (rest : List (List Byte)),
    (op = 0x00 ∨ 0x0D ≤ op.toNat) → s.seq = .ready → s.hreq = (op :: tail) :: rest →
    step s = .next { s with status := 0x06, hreq := rest, hrsp := s.hrsp ++ [response 0x06 s.ctrl []] }

/-- R95, R276: a request of the wrong length, and one with a reserved bit of FLAGS or PV set, is IllegalOperation with no
other effect. -/
def Obligations.MalformedRequestsAreIllegal : Prop :=
  ∀ (s : State) (req : List Byte) (rest : List (List Byte)), s.seq = .ready → s.hreq = req :: rest →
    ((∃ n, requestLength req = some n ∧ req.length ≠ n) ∨
      (∃ op tail, req = op :: tail ∧ (op = 0x03 ∨ op = 0x08) ∧ tail.length < 4) ∨
      (∃ flags, req = [0x02, flags] ∧ flags &&& 0xFE ≠ 0) ∨
      (∃ x1 x0 y1 y0 pv, req = [0x0A, x1, x0, y1, y0, pv] ∧ pv &&& 0xFE ≠ 0)) →
    step s = .next { s with status := 0x06, hreq := rest, hrsp := s.hrsp ++ [response 0x06 s.ctrl []] }

/-! ### The step -/

/-- R37, R90: at Ready a step takes the oldest request and executes the instruction it decodes to. (The list of requests is
the model's: log 5.) -/
def Obligations.StepExecutesTheDecodedRequest : Prop :=
  ∀ (s : State) (req : List Byte) (rest : List (List Byte)) (i : Instr), s.seq = .ready → s.hreq = req :: rest →
    decode s.cfg.opc .request req = .ok i → step s = exec i { s with hreq := rest }

/-- R37, R134: while an operation runs, a step executes the instruction the sequencer stands in: inside a transaction the
controller command, which is also what the operation itself does there; elsewhere the operation. (That a command is what a
step executes there is the model's choice: log 9.) -/
def Obligations.StepExecutesTheRunningInstruction : Prop :=
  ∀ (s : State) (op : Instr) (k : Nat), s.seq = .running op k ∨ s.seq = .aborting op k →
    (∀ c, commandAt s.cfg op k = some c → step s = exec c.instr s ∧ exec c.instr s = exec op s) ∧
    (commandAt s.cfg op k = none → step s = exec op s)

/-- R37, R39: a step appends at most one event to `TRACE` and removes none. -/
def Obligations.StepAppendsAtMostOneEvent : Prop :=
  ∀ s t : State, step s = .next t → ∃ es : List Event, t.trace = s.trace ++ es ∧ es.length ≤ 1

/-- R31: no step changes the configuration. -/
def Obligations.StepKeepsTheConfiguration : Prop :=
  ∀ s t : State, step s = .next t → t.cfg = s.cfg

/-- R39, R43: nothing the block does depends on `STATUS`, `TRACE` or the responses sent. From every state, the step from
the state with these taken out has the same outcome: a next state that differs only in them, and appends the same, exactly
where the step answers one; the same fault, and the same refusal, exactly where the step answers that. -/
def Obligations.OutputsAreNeverRead : Prop :=
  ∀ s : State,
    (∀ t, step s = .next t → ∃ u : State, step s.eraseOutputs = .next u ∧
      u.eraseOutputs = t.eraseOutputs ∧ t.trace = s.trace ++ u.trace ∧ t.hrsp = s.hrsp ++ u.hrsp) ∧
    (∀ f, step s = .fault f ↔ step s.eraseOutputs = .fault f) ∧
    (∀ r, step s = .refused r ↔ step s.eraseOutputs = .refused r)

/-- R33, R96, R270: `STATUS` is written exactly when an operation ends, with one of the codes 00 to 06, together with
exactly one response, which begins with `STATUS` and the code of `STATE`. -/
def Obligations.OneStatusAndOneResponsePerOperation : Prop :=
  ∀ s t : State, step s = .next t →
    (t = s ∨ (t.hrsp = s.hrsp ∧ t.status = s.status ∧ t.seq ≠ .ready)) ∨
    (t.seq = .ready ∧ t.status.toNat ≤ 6 ∧ ∃ d : List Byte, t.hrsp = s.hrsp ++ [response t.status t.ctrl d])

/-- R40: `PB` changes only in a step of DRAW, SETPIX or FILL, or of INIT with BLANK. -/
def Obligations.PixelBufferWriters : Prop :=
  ∀ s t : State, step s = .next t → t.pb ≠ s.pb →
    (∃ req rest i, s.seq = .ready ∧ s.hreq = req :: rest ∧ decodeRequest req = .ok i ∧
      ((∃ len d, i = .draw len d) ∨ (∃ x y v, i = .setpix x y v) ∨ ∃ v, i = .fill v)) ∨
    (∃ op k, s.seq = .running op k ∧ ((∃ v, op = .fill v) ∨ op = .init true))

/-- R290: a host operation met while another operation runs has no meaning: it is refused by name (the model's choice:
log 10). -/
def Obligations.RequestWhileRunningIsRefused : Prop :=
  ∀ (s : State) (op i : Instr) (k : Nat), s.seq = .running op k ∨ s.seq = .aborting op k → i ≠ op →
    (∀ c : Command, i ≠ c.instr) → exec i s = .refused .requestWhileRunning

/-- R2, R100: a controller command met where no operation runs is refused by name (the model's choice: log 9): the host
cannot reach the framer. -/
def Obligations.CommandOutsideAnOperationIsRefused : Prop :=
  ∀ (s : State) (c : Command), s.seq = .ready → exec c.instr s = .refused .commandNotDue

/-! ### Construction -/

/-- R300: construction refuses exactly the configurations that break (a) to (g), and otherwise leaves the state of the
table, with no event. That nothing is requested or scripted yet is the model's choice (log 2, 3 and 5). -/
def Obligations.ConstructionChecksAndSetsEveryRegister : Prop :=
  ∀ c : Cfg,
    ((c.width % 8 = 0 ∧ (8 ≤ c.width ∧ c.width ≤ 65528 ∧ 1 ≤ c.height ∧ c.height ≤ 65535) ∧
        (c.pPwr.length = 5 ∧ c.pPsr.length = 1 ∧ c.pPll.length = 1 ∧ c.pVdcs.length = 1 ∧ c.pCdi.length = 1) ∧
        (∀ m n : Command, c.opc.code m = c.opc.code n → m = n) ∧ c.busyTimeout ≠ some 0 ∧
        c.chunking ≠ [] ∧ (∀ n ∈ c.chunking, 0 < n) ∧ c.chunking.sum = c.width * c.height / 8) →
      construct c = .next
        { cfg := c, ctrl := .uninitialized, status := 0x00, csN := .unknown, dc := .unknown, rstN := .unknown,
          seq := .ready, polls := 0, trace := [], pb := { written := [], value := [] }, hreq := [], hrsp := [],
          busyIn := [], answerIn := [], drawCount := 0 }) ∧
    (¬ (c.width % 8 = 0 ∧ (8 ≤ c.width ∧ c.width ≤ 65528 ∧ 1 ≤ c.height ∧ c.height ≤ 65535) ∧
        (c.pPwr.length = 5 ∧ c.pPsr.length = 1 ∧ c.pPll.length = 1 ∧ c.pVdcs.length = 1 ∧ c.pCdi.length = 1) ∧
        (∀ m n : Command, c.opc.code m = c.opc.code n → m = n) ∧ c.busyTimeout ≠ some 0 ∧
        c.chunking ≠ [] ∧ (∀ n ∈ c.chunking, 0 < n) ∧ c.chunking.sum = c.width * c.height / 8) →
      construct c = .fault .badConfig)

/-- R300: every invariant holds after construction, and reset is construction with the reference configuration. -/
def Obligations.ConstructionEstablishesTheInvariants : Prop :=
  construct Cfg.reference = .next State.reset ∧
  ∀ (c : Cfg) (s : State), construct c = .next s →
    legal s.cfg = true ∧ s.PbOk ∧ s.CtrlOk ∧ s.PinsOk ∧ s.BusOk ∧ s.PhasesOk ∧ s.OpOk

/-! ### Checks before execution -/

/-- R46, R272, R277: DISPLAY, SHOW, CLEAR and SLEEP outside Idle, and WAKE outside Sleeping, are InvalidState, whatever
the operands: only `STATUS` changes and the response is `[02, STATE]`. -/
def Obligations.OperationsOutsideTheirStateAreInvalid : Prop :=
  ∀ s : State, s.seq = .ready →
    (s.ctrl ≠ .idle →
      (∀ len d, exec (.display len d) s =
        .next { s with status := 0x02, hrsp := s.hrsp ++ [response 0x02 s.ctrl []] }) ∧
      exec .showBuf s = .next { s with status := 0x02, hrsp := s.hrsp ++ [response 0x02 s.ctrl []] } ∧
      exec .clear s = .next { s with status := 0x02, hrsp := s.hrsp ++ [response 0x02 s.ctrl []] } ∧
      exec .sleep s = .next { s with status := 0x02, hrsp := s.hrsp ++ [response 0x02 s.ctrl []] }) ∧
    (s.ctrl ≠ .sleeping →
      exec .wake s = .next { s with status := 0x02, hrsp := s.hrsp ++ [response 0x02 s.ctrl []] })

/-- R271, R277: DISPLAY in Idle and DRAW, with `L` not `NBUF`, are SizeMismatch: only `STATUS` changes. -/
def Obligations.WrongLengthIsSizeMismatch : Prop :=
  ∀ (s : State) (len : BitVec 32) (d : List Byte), s.seq = .ready → len.toNat ≠ s.cfg.width * s.cfg.height / 8 →
    (s.ctrl = .idle → exec (.display len d) s =
      .next { s with status := 0x01, hrsp := s.hrsp ++ [response 0x01 s.ctrl []] }) ∧
    exec (.draw len d) s = .next { s with status := 0x01, hrsp := s.hrsp ++ [response 0x01 s.ctrl []] }

/-- R275, R277: SETPIX and GETPIX with a coordinate outside the panel are OutOfRange: only `STATUS` changes. -/
def Obligations.CoordinatesOutsideThePanelAreOutOfRange : Prop :=
  ∀ (s : State) (x y : BitVec 16) (v : Bit), s.seq = .ready → s.cfg.width ≤ x.toNat ∨ s.cfg.height ≤ y.toNat →
    exec (.setpix x y v) s = .next { s with status := 0x05, hrsp := s.hrsp ++ [response 0x05 s.ctrl []] } ∧
    exec (.getpix x y) s = .next { s with status := 0x05, hrsp := s.hrsp ++ [response 0x05 s.ctrl []] }

/-! ### The pixel buffer -/

/-- R18, R61: the address of a pixel of the panel lies in the buffer, its bit in the byte, and no two pixels share one. -/
def Obligations.PixelAddressesLieInTheBufferAndDiffer : Prop :=
  ∀ (c : Cfg) (x y : Nat), legal c = true → x < c.width → y < c.height →
    pixByte c x y < nbuf c ∧ pixBit x < 8 ∧
    ∀ x' y' : Nat, x' < c.width → y' < c.height → pixByte c x' y' = pixByte c x y → pixBit x' = pixBit x →
      x' = x ∧ y' = y

/-- R240: DRAW of `NBUF` bytes leaves `PB` holding exactly them, every pixel written; nothing else changes but `STATUS`. -/
def Obligations.DrawCopiesTheBuffer : Prop :=
  ∀ (s : State) (len : BitVec 32) (d : List Byte), s.seq = .ready → len.toNat = nbuf s.cfg → d.length = nbuf s.cfg →
    ∃ p : PixelBuffer,
      exec (.draw len d) s =
        .next { s with pb := p, status := 0x00, hrsp := s.hrsp ++ [response 0x00 s.ctrl []] } ∧
      p.readBytes 0 (nbuf s.cfg) = some d ∧
      (∀ a b, a < nbuf s.cfg → b < 8 → p.readPixel a b = d[a]?.map (fun v => v.getLsbD b)) ∧
      (∀ a, nbuf s.cfg ≤ a → p.readByte a = s.pb.readByte a)

/-- R241: FILL takes `NBUF` steps, and leaves every byte of `PB` holding the value; nothing else changes but `STATUS`. -/
def Obligations.FillWritesEveryByte : Prop :=
  ∀ (s : State) (v : Byte), legal s.cfg = true → s.seq = .ready →
    ∃ (u : State) (p : PixelBuffer),
      exec (.fill v) s = .next u ∧ u.pb = s.pb.writeByte 0 v ∧
      core.run (nbuf s.cfg - 1) u =
        .next { s with pb := p, status := 0x00, hrsp := s.hrsp ++ [response 0x00 s.ctrl []] } ∧
      (∀ a, a < nbuf s.cfg → p.readByte a = some v) ∧
      (∀ a, nbuf s.cfg ≤ a → p.readByte a = s.pb.readByte a)

/-- R242, R61: SETPIX writes the one pixel at bit `7 - x mod 8` of byte `y*(W div 8) + x div 8`; every other pixel, written
or not, is unchanged, and nothing else changes but `STATUS`. -/
def Obligations.SetpixWritesOnePixel : Prop :=
  ∀ (s : State) (x y : BitVec 16) (v : Bit), s.seq = .ready → x.toNat < s.cfg.width → y.toNat < s.cfg.height →
    ∃ p : PixelBuffer,
      exec (.setpix x y v) s =
        .next { s with pb := p, status := 0x00, hrsp := s.hrsp ++ [response 0x00 s.ctrl []] } ∧
      ∀ a b, b < 8 → p.readPixel a b =
        if a = y.toNat * (s.cfg.width / 8) + x.toNat / 8 ∧ b = 7 - x.toNat % 8 then some v else s.pb.readPixel a b

/-- R243, R291: GETPIX of a written pixel answers it as one result byte and changes nothing but `STATUS`; of an unwritten
one it is the model fault ReadUnwritten. -/
def Obligations.GetpixReadsOnePixel : Prop :=
  ∀ (s : State) (x y : BitVec 16), s.seq = .ready → x.toNat < s.cfg.width → y.toNat < s.cfg.height →
    (∀ v, s.pb.readPixel (y.toNat * (s.cfg.width / 8) + x.toNat / 8) (7 - x.toNat % 8) = some v →
      exec (.getpix x y) s =
        .next { s with status := 0x00, hrsp := s.hrsp ++ [response 0x00 s.ctrl [if v then 0x01 else 0x00]] }) ∧
    (s.pb.readPixel (y.toNat * (s.cfg.width / 8) + x.toNat / 8) (7 - x.toNat % 8) = none →
      exec (.getpix x y) s = .fault .readUnwritten)

/-- R244, R291: READBUF answers the `NBUF` bytes of `PB` in address order and changes nothing but `STATUS`; with an
unwritten pixel it is the model fault ReadUnwritten. -/
def Obligations.ReadbufReadsTheBuffer : Prop :=
  ∀ s : State, s.seq = .ready →
    (∀ d, d.length = nbuf s.cfg → (∀ a, a < nbuf s.cfg → s.pb.readByte a = d[a]?) →
      exec .readbuf s = .next { s with status := 0x00, hrsp := s.hrsp ++ [response 0x00 s.ctrl d] }) ∧
    (∀ a, a < nbuf s.cfg → s.pb.readByte a = none → exec .readbuf s = .fault .readUnwritten)

/-- R245: from a buffer of all 0xFF, every GETPIX in range answers 1 (white) and READBUF answers `NBUF` bytes of 0xFF. -/
def Obligations.WhiteBufferReadsWhite : Prop :=
  ∀ s : State, legal s.cfg = true → s.seq = .ready → (∀ a, a < nbuf s.cfg → s.pb.readByte a = some 0xFF) →
    (∀ x y : BitVec 16, x.toNat < s.cfg.width → y.toNat < s.cfg.height → exec (.getpix x y) s =
      .next { s with status := 0x00, hrsp := s.hrsp ++ [response 0x00 s.ctrl [0x01]] }) ∧
    exec .readbuf s =
      .next { s with status := 0x00, hrsp := s.hrsp ++ [response 0x00 s.ctrl (List.replicate (nbuf s.cfg) 0xFF)] }

/-! ### Payloads and chunks -/

/-- R101: the resolution payload is `[W[15:8], W[7:0], H[15:8], H[7:0]]`: two big-endian 16-bit values, `01 90 01 2C` for
400 × 300. -/
def Obligations.ResolutionPayloadIsBigEndian : Prop :=
  (∀ c : Cfg, legal c = true → ∃ w1 w0 h1 h0 : Byte, payload c .tres = [w1, w0, h1, h0] ∧
    w1.toNat * 256 + w0.toNat = c.width ∧ h1.toNat * 256 + h0.toNat = c.height) ∧
  payload Cfg.reference .tres = [0x01, 0x90, 0x01, 0x2C]

/-- R98, R99: under a legal configuration every payload has the arity of its command, and the fixed ones are as the table
gives them. -/
def Obligations.PayloadsHaveTheirArity : Prop :=
  ∀ c : Cfg, legal c = true →
    (∀ (m : Command) (n : Nat), arity m = some n → (payload c m).length = n) ∧
    payload c .btst = [0x17, 0x17, 0x17] ∧ payload c .pon = [] ∧ payload c .dsp = [] ∧ payload c .drf = [] ∧
    payload c .dtm1 = [] ∧ payload c .dtm2 = []

/-- R192: the chunks of a buffer of `NBUF` bytes are consecutive, non-empty, of the configured lengths, and their
concatenation is the buffer. -/
def Obligations.ChunksConcatenateToTheBuffer : Prop :=
  ∀ (c : Cfg) (d : List Byte), legal c = true → d.length = nbuf c →
    (split d c.chunking).flatten = d ∧ (split d c.chunking).map List.length = c.chunking ∧
    ∀ s ∈ split d c.chunking, s ≠ []

/-! ### Transactions and waits -/

/-- R97, R98, R130, R131, for each of the thirteen controller commands BTST, PWR, PON, PSR, PLL, TRES, VDCS, CDI, DTM2, DSP,
DRF, DTM1 and DSLP: executed where the sequencer stands at the first primitive of its transaction, with a transport that
answers ok, it drives CS_N high (that executing a command is the next primitive of its transaction is the model's choice:
log 9), and the steps after it complete the transaction: exactly the events of
`sendCommand(OPC(c), payload)`, nothing between them, CS_N left high, DC left at the last phase. `STATE` becomes Busy after
DRF and Idle after CDI, `POLLS` is 0 after PON, DRF and DSLP, and the operation goes on, or ends with its response where CDI
was its last. The frame: RST_N, `PB`, the configuration, the requests, the BUSY levels and everything else are unchanged. The
primitive before the first is another's. -/
def Obligations.CommandsCompleteTheirTransactions : Prop :=
  ∀ (s : State) (op : Instr) (k : Nat) (c : Command), legal s.cfg = true → s.seq = .running op k →
    commandAt s.cfg op k = some c → (∀ j, k = j + 1 → commandAt s.cfg op j ≠ some c) →
    s.answersOk (if payload s.cfg c = [] then 1 else 2) = true →
    ∃ u t : State,
      exec c.instr s = .next u ∧ u.trace = s.trace ++ [.drive .csN true] ∧ u.csN = .driven true ∧
      core.run ((commandEvents (s.cfg.opc.code c) (payload s.cfg c)).length - 1) u = .next t ∧
      t.trace = s.trace ++ commandEvents (s.cfg.opc.code c) (payload s.cfg c) ∧
      t.csN = .driven true ∧ t.dc = .driven (payload s.cfg c != []) ∧
      t.rstN = s.rstN ∧ t.pb = s.pb ∧ t.cfg = s.cfg ∧ t.hreq = s.hreq ∧ t.busyIn = s.busyIn ∧
      t.ctrl = (if c = .drf then .busy else if c = .cdi then .idle else s.ctrl) ∧
      t.polls = (if c = .pon ∨ c = .drf ∨ c = .dslp then 0 else s.polls) ∧ t.drawCount = s.drawCount ∧
      t.answerIn = s.answersAfter (if payload s.cfg c = [] then 1 else 2) ∧
      ((t.seq = .running op (k + (commandEvents (s.cfg.opc.code c) (payload s.cfg c)).length) ∧ t.status = s.status ∧
          t.hrsp = s.hrsp) ∨
        (c = .cdi ∧ t.seq = .ready ∧ t.status = 0x00 ∧ t.hrsp = s.hrsp ++ [response 0x00 .idle []]))

/-- R132: the framer toggles exactly the data/command and chip-select lines around each transfer; it never toggles reset or
reads busy. Every primitive of sendCommand and of sendData is a drive of DC or CS_N or a write, and so is the one event of a
controller command's step, whatever it answers next: RST_N and the BUSY levels are unchanged, and with them `PB`, the
requests and the configuration. (That executing a command is the next primitive of its transaction is the model's choice,
log 9; so is the position between the two primitives of abortTransfer, log 7.) -/
def Obligations.FramerTouchesOnlyDcAndChipSelect : Prop :=
  (∀ (cfg : Cfg) (c : Command) (cmd : Option Command) (src : Source), ∀ m ∈ sendCommand cfg c ++ sendData cmd src,
    (∃ v, m.prim = .drive .csN v) ∨ (∃ v, m.prim = .drive .dc v) ∨ ∃ x, m.prim = .write x) ∧
  ∀ (s t : State) (c : Command), exec c.instr s = .next t →
    t.rstN = s.rstN ∧ t.busyIn = s.busyIn ∧ t.pb = s.pb ∧ t.cfg = s.cfg ∧ t.hreq = s.hreq ∧
    ((∃ v, t.trace = s.trace ++ [.drive .csN v]) ∨ (∃ v, t.trace = s.trace ++ [.drive .dc v]) ∨
      ∃ bs r, t.trace = s.trace ++ [.write bs r])

/-- R135, R273, R278: a failed write ends the operation in two steps (two, as R37 counts primitives: log 7): the write, then CS_N high; `STATE` Failed, `STATUS`
03, response `[03, 06]`; nothing is resent. -/
def Obligations.FailedWriteAbandonsTheOperation : Prop :=
  ∀ (s : State) (op : Instr) (k : Nat) (m : Micro) (src : Source) (bs : List Byte), s.seq = .running op k →
    (body s.cfg op)[k]? = some m → m.prim = .write src → src.get s.pb = some bs →
    s.cfg.transportCanFail = true → ∀ rs, s.answerIn = .fail :: rs →
    ∃ u : State, step s = .next u ∧ u.trace = s.trace ++ [.write bs .fail] ∧
      step u = .next { s with answerIn := rs, trace := s.trace ++ [.write bs .fail, .drive .csN true], csN := .driven true,
                              ctrl := .failed, status := 0x03, seq := .ready, hrsp := s.hrsp ++ [[0x03, 0x06]] }

/-- R136, R274: one sample of a wait. The idle level ends it; another level is counted; the `t`-th counted one raises
BusyTimeout at once (`STATE` Failed, `STATUS` 04, response `[04, 06]`); otherwise the wait stands where it was. -/
def Obligations.OneSampleOfAWait : Prop :=
  ∀ (s : State) (op : Instr) (k : Nat) (m : Micro) (l : Bit) (ls : List Bit), s.seq = .running op k →
    (body s.cfg op)[k]? = some m → m.prim = .sample → s.busyIn = l :: ls →
    (l = s.cfg.idleLevel → ∃ t : State, step s = .next t ∧ t.trace = s.trace ++ [.sample l] ∧ t.busyIn = ls ∧
      (t.seq = .running op (k + 1) ∨ (t.seq = .ready ∧ t.status = 0x00))) ∧
    (l ≠ s.cfg.idleLevel → ∀ n, s.cfg.busyTimeout = some n → n ≤ s.polls + 1 →
      step s = .next { s with busyIn := ls, trace := s.trace ++ [.sample l], polls := s.polls + 1, ctrl := .failed,
                              status := 0x04, seq := .ready, hrsp := s.hrsp ++ [[0x04, 0x06]] }) ∧
    (l ≠ s.cfg.idleLevel → (∀ n, s.cfg.busyTimeout = some n → s.polls + 1 < n) →
      step s = .next { s with busyIn := ls, trace := s.trace ++ [.sample l], polls := s.polls + 1 })

/-- R136, R274, R312: with no timeout, a BUSY that never reads idle holds the wait where it is, for any number of samples:
no other event, no response, `POLLS` counting without bound. -/
def Obligations.WaitWithoutTimeoutHangs : Prop :=
  ∀ (s : State) (op : Instr) (k : Nat) (m : Micro) (n : Nat) (ls : List Bit), s.seq = .running op k →
    (body s.cfg op)[k]? = some m → m.prim = .sample → s.cfg.busyTimeout = none →
    s.busyIn = List.replicate n (!s.cfg.idleLevel) ++ ls →
    core.run n s = .next { s with busyIn := ls, polls := s.polls + n,
                                  trace := s.trace ++ List.replicate n (.sample (!s.cfg.idleLevel)) }

/-- R136, R312: with a timeout of `n` samples, a wait that has counted none yet leaves its position within `n` samples,
whatever the levels are. -/
def Obligations.WaitWithTimeoutEnds : Prop :=
  ∀ (s : State) (op : Instr) (k : Nat) (m : Micro) (n : Nat), s.seq = .running op k →
    (body s.cfg op)[k]? = some m → m.prim = .sample → s.cfg.busyTimeout = some n → 0 < n → s.polls = 0 →
    ∃ (j : Nat) (t : State), j ≤ n ∧ core.run j s = .next t ∧ t.seq ≠ .running op k

/-- R312: with a timeout, every running operation ends, whatever the environment does: after some number of steps the
sequencer is Ready, or the operation met the model fault ReadUnwritten. -/
def Obligations.OperationsEndUnderATimeout : Prop :=
  ∀ (s : State) (n : Nat), s.CtrlOk → s.cfg.busyTimeout = some n →
    ∃ j : Nat, (∃ t : State, core.run j s = .next t ∧ t.seq = .ready) ∨ core.run j s = .fault .readUnwritten

/-! ### Whole operations -/

/-- R160, R161: RESET, in any state at Ready: Resetting with the first drive, then the pulse `RST_N 1, hold 1, RST_N 0,
hold 10, RST_N 1`, then Uninitialized, `STATUS` 00 and the response `[00 00]`; nothing else changes. -/
def Obligations.ResetPulsesTheController : Prop :=
  ∀ s : State, s.seq = .ready →
    ∃ u : State,
      exec .reset s = .next u ∧
      u = { s with ctrl := .resetting, rstN := .driven true, trace := s.trace ++ [.drive .rstN true],
                   seq := .running .reset 1 } ∧
      core.run 4 u =
        .next { s with ctrl := .uninitialized, status := 0x00, rstN := .driven true, trace := s.trace ++ pulseEvents,
                       hrsp := s.hrsp ++ [[0x00, 0x00]] }

/-- R163 (BLANK 0), R164 to R172: INIT, in any state at Ready, with `n` samples that are not idle before the idle one: the
pulse and the eight transactions in order with the wait after PON, then Idle, `STATUS` 00 and `[00 03]`; `PB` is not
touched. -/
def Obligations.InitSendsTheSequence : Prop :=
  ∀ (s : State) (n : Nat) (ls : List Bit), legal s.cfg = true → s.seq = .ready → withinTimeout s.cfg n = true →
    s.answersOk 15 = true → s.busyIn = waitLevels s.cfg n ++ ls →
    ∃ u : State,
      exec (.init false) s = .next u ∧
      u = { s with ctrl := .resetting, rstN := .driven true, trace := s.trace ++ [.drive .rstN true],
                   seq := .running (.init false) 1 } ∧
      core.run (73 + n) u =
        .next { s with ctrl := .idle, status := 0x00, csN := .driven true, dc := .driven true, rstN := .driven true,
                       polls := n, trace := s.trace ++ initEvents s.cfg n, busyIn := ls,
                       answerIn := s.answersAfter 15, hrsp := s.hrsp ++ [[0x00, 0x03]] }

/-- R223: WAKE, in Sleeping at Ready: exactly INIT's events with BLANK 0, ending in Idle. -/
def Obligations.WakeRepeatsTheSequence : Prop :=
  ∀ (s : State) (n : Nat) (ls : List Bit), legal s.cfg = true → s.seq = .ready → s.ctrl = .sleeping →
    withinTimeout s.cfg n = true → s.answersOk 15 = true → s.busyIn = waitLevels s.cfg n ++ ls →
    ∃ u : State,
      exec .wake s = .next u ∧
      u = { s with ctrl := .resetting, rstN := .driven true, trace := s.trace ++ [.drive .rstN true],
                   seq := .running .wake 1 } ∧
      core.run (73 + n) u =
        .next { s with ctrl := .idle, status := 0x00, csN := .driven true, dc := .driven true, rstN := .driven true,
                       polls := n, trace := s.trace ++ initEvents s.cfg n, busyIn := ls,
                       answerIn := s.answersAfter 15, hrsp := s.hrsp ++ [[0x00, 0x03]] }

/-- R163 (BLANK 1), R173: INIT with the blank refresh: INIT's events, then every byte of `PB` 0xFF, then DISPLAY's events on
`NBUF` bytes of 0xFF, through Busy to Idle: `STATE` is Busy from the end of DRF and after each sample that is not idle. -/
def Obligations.InitBlankRefreshesWhite : Prop :=
  ∀ (s : State) (n n' : Nat) (ls : List Bit), legal s.cfg = true → s.seq = .ready → withinTimeout s.cfg n = true →
    withinTimeout s.cfg n' = true → s.answersOk (18 + s.cfg.chunking.length) = true →
    s.busyIn = waitLevels s.cfg n ++ (waitLevels s.cfg n' ++ ls) →
    ∃ (u : State) (p : PixelBuffer),
      exec (.init true) s = .next u ∧
      u = { s with ctrl := .resetting, rstN := .driven true, trace := s.trace ++ [.drive .rstN true],
                   seq := .running (.init true) 1 } ∧
      core.run (73 + n + nbuf s.cfg + 1 + (16 + 4 * s.cfg.chunking.length + n')) u =
        .next { s with ctrl := .idle, status := 0x00, csN := .driven true, dc := .driven false, rstN := .driven true,
                       polls := n', pb := p, busyIn := ls, answerIn := s.answersAfter (18 + s.cfg.chunking.length),
                       trace := s.trace ++ initEvents s.cfg n
                         ++ displayEvents s.cfg (List.replicate (nbuf s.cfg) 0xFF) n',
                       hrsp := s.hrsp ++ [[0x00, 0x03]] } ∧
      (∀ j, j ≤ n' → ∃ v : State,
        core.run (73 + n + nbuf s.cfg + 1 + (15 + 4 * s.cfg.chunking.length) + j) u = .next v ∧ v.ctrl = .busy ∧
        v.trace = s.trace ++ initEvents s.cfg n ++ refreshEvents s.cfg (List.replicate (nbuf s.cfg) 0xFF)
          ++ List.replicate j (.sample (!s.cfg.idleLevel))) ∧
      (∀ a, a < nbuf s.cfg → p.readByte a = some 0xFF) ∧ ∀ a, nbuf s.cfg ≤ a → p.readByte a = s.pb.readByte a

/-- R190 to R194: DISPLAY of `NBUF` bytes in Idle: DTM2, the buffer in its chunks, DSP, DRF, the wait; through Busy back to
Idle, `STATUS` 00 and `[00 03]`; `PB` is not touched. `STATE` is Busy from the end of DRF and after each sample that is not
idle. -/
def Obligations.DisplayStreamsTheBuffer : Prop :=
  ∀ (s : State) (len : BitVec 32) (d : List Byte) (n : Nat) (ls : List Bit), legal s.cfg = true → s.seq = .ready →
    s.ctrl = .idle → len.toNat = nbuf s.cfg → d.length = nbuf s.cfg → withinTimeout s.cfg n = true →
    s.answersOk (3 + s.cfg.chunking.length) = true → s.busyIn = waitLevels s.cfg n ++ ls →
    ∃ u : State,
      exec (.display len d) s = .next u ∧
      u = { s with csN := .driven true, trace := s.trace ++ [.drive .csN true], seq := .running (.display len d) 1 } ∧
      core.run (15 + 4 * s.cfg.chunking.length + n) u =
        .next { s with status := 0x00, csN := .driven true, dc := .driven false, polls := n, busyIn := ls,
                       answerIn := s.answersAfter (3 + s.cfg.chunking.length),
                       trace := s.trace ++ displayEvents s.cfg d n, hrsp := s.hrsp ++ [[0x00, 0x03]] } ∧
      ∀ j, j ≤ n → ∃ v : State, core.run (14 + 4 * s.cfg.chunking.length + j) u = .next v ∧ v.ctrl = .busy ∧
        v.trace = s.trace ++ refreshEvents s.cfg d ++ List.replicate j (.sample (!s.cfg.idleLevel))

/-- R196, R76: SHOW in Idle, with every pixel written: DISPLAY's events on the bytes of `PB`; `PB` is not changed. The first
step is the read of the buffer and appends no event; `STATE` is Busy from the end of DRF and after each sample that is not
idle. -/
def Obligations.ShowStreamsThePixelBuffer : Prop :=
  ∀ (s : State) (d : List Byte) (n : Nat) (ls : List Bit), legal s.cfg = true → s.seq = .ready → s.ctrl = .idle →
    s.pb.readBytes 0 (nbuf s.cfg) = some d → withinTimeout s.cfg n = true →
    s.answersOk (3 + s.cfg.chunking.length) = true → s.busyIn = waitLevels s.cfg n ++ ls →
    ∃ u : State,
      exec .showBuf s = .next u ∧ u = { s with seq := .running .showBuf 1 } ∧
      core.run (16 + 4 * s.cfg.chunking.length + n) u =
        .next { s with status := 0x00, csN := .driven true, dc := .driven false, polls := n, busyIn := ls,
                       answerIn := s.answersAfter (3 + s.cfg.chunking.length),
                       trace := s.trace ++ displayEvents s.cfg d n, hrsp := s.hrsp ++ [[0x00, 0x03]] } ∧
      ∀ j, j ≤ n → ∃ v : State, core.run (15 + 4 * s.cfg.chunking.length + j) u = .next v ∧ v.ctrl = .busy ∧
        v.trace = s.trace ++ refreshEvents s.cfg d ++ List.replicate j (.sample (!s.cfg.idleLevel))

/-- R196, R291: SHOW in Idle with an unwritten pixel is the model fault ReadUnwritten: no event and no response. -/
def Obligations.ShowOfAnUnwrittenBufferFaults : Prop :=
  ∀ (s : State) (a : Nat), s.seq = .ready → s.ctrl = .idle → a < nbuf s.cfg → s.pb.readByte a = none →
    exec .showBuf s = .fault .readUnwritten

/-- R197, R198: CLEAR in Idle: DTM1, then `NBUF` data phases of one byte 0xFF; no sample, `STATE` and `PB` unchanged. -/
def Obligations.ClearSendsWhiteBytes : Prop :=
  ∀ s : State, legal s.cfg = true → s.seq = .ready → s.ctrl = .idle → s.answersOk (1 + nbuf s.cfg) = true →
    ∃ u : State,
      exec .clear s = .next u ∧
      u = { s with csN := .driven true, trace := s.trace ++ [.drive .csN true], seq := .running .clear 1 } ∧
      core.run (4 + 4 * nbuf s.cfg) u =
        .next { s with status := 0x00, csN := .driven true, dc := .driven true,
                       answerIn := s.answersAfter (1 + nbuf s.cfg),
                       trace := s.trace ++ clearEvents s.cfg, hrsp := s.hrsp ++ [[0x00, 0x03]] }

/-- R220, R221: SLEEP in Idle: DSLP with its payload, the wait, then Sleeping, `STATUS` 00 and `[00 05]`. -/
def Obligations.SleepSendsDeepSleep : Prop :=
  ∀ (s : State) (n : Nat) (ls : List Bit), s.seq = .ready → s.ctrl = .idle → withinTimeout s.cfg n = true →
    s.answersOk (if s.cfg.pDslp = [] then 1 else 2) = true → s.busyIn = waitLevels s.cfg n ++ ls →
    ∃ u : State,
      exec .sleep s = .next u ∧
      u = { s with csN := .driven true, trace := s.trace ++ [.drive .csN true], seq := .running .sleep 1 } ∧
      core.run ((commandEvents s.cfg.opc.dslp s.cfg.pDslp).length + n) u =
        .next { s with ctrl := .sleeping, status := 0x00, csN := .driven true, dc := .driven (s.cfg.pDslp != []),
                       polls := n, busyIn := ls, answerIn := s.answersAfter (if s.cfg.pDslp = [] then 1 else 2),
                       trace := s.trace ++ commandEvents s.cfg.opc.dslp s.cfg.pDslp ++ waitEvents s.cfg n,
                       hrsp := s.hrsp ++ [[0x00, 0x05]] }

/-! ### The observation -/

/-- R103, R140: the projection of INIT's events is the eight transactions in order, each with its payload. -/
def Obligations.InitProjectsToEightTransactions : Prop :=
  ∀ (c : Cfg) (n : Nat), legal c = true →
    txns (initEvents c n) =
      [{ cmd := [c.opc.btst], data := [[0x17, 0x17, 0x17]] }, { cmd := [c.opc.pwr], data := [c.pPwr] },
       { cmd := [c.opc.pon], data := [] }, { cmd := [c.opc.psr], data := [c.pPsr] },
       { cmd := [c.opc.pll], data := [c.pPll] }, { cmd := [c.opc.tres], data := [tresPayload c] },
       { cmd := [c.opc.vdcs], data := [c.pVdcs] }, { cmd := [c.opc.cdi], data := [c.pCdi] }]

/-- R140, R192: the projection of DISPLAY's events: DTM2 with one data phase for each chunk, DSP, DRF. -/
def Obligations.DisplayProjectsToItsChunks : Prop :=
  ∀ (c : Cfg) (d : List Byte) (n : Nat),
    txns (displayEvents c d n) =
      [{ cmd := [c.opc.dtm2], data := split d c.chunking }, { cmd := [c.opc.dsp], data := [] },
       { cmd := [c.opc.drf], data := [] }]

/-! ### Invariants and whole-machine rules -/

/-- R40, R60, R245: every step keeps `PB` well formed: canonical, inside `NBUF`, no value kept for an unwritten pixel. -/
def Obligations.StepKeepsThePixelBufferWellFormed : Prop :=
  ∀ s t : State, legal s.cfg = true → s.PbOk → step s = .next t → t.PbOk

/-- R44, R45: every step keeps the controller state where the sequencer puts it; at Ready it is a stable value, and the
transient values occur only while an operation runs. -/
def Obligations.StepKeepsTheControllerState : Prop :=
  ∀ s t : State, s.CtrlOk → step s = .next t → t.CtrlOk

/-- R34, R35, R36: every step keeps the pin registers where the drives put them; at Ready neither CS_N nor RST_N is low. -/
def Obligations.StepKeepsThePins : Prop :=
  ∀ s t : State, s.PinsOk → step s = .next t → t.PinsOk

/-- R45: no other transition of `STATE` exists than those of the table. -/
def Obligations.OnlyTheTransitionsOfTheTable : Prop :=
  ∀ s t : State, s.CtrlOk → s.PinsOk → step s = .next t →
    t.ctrl = s.ctrl ∨
    (s.ctrl.stable = true ∧ t.ctrl = .resetting) ∨
    (s.ctrl, t.ctrl) ∈ [(Ctrl.resetting, Ctrl.uninitialized), (.resetting, .initializing), (.initializing, .idle),
      (.idle, .busy), (.busy, .idle), (.idle, .sleeping), (.initializing, .failed), (.idle, .failed),
      (.busy, .failed)]

/-- R72, R304, R305, R306: after PON, DRF or DSLP no further command or data is written until BUSY was sampled at the idle
level, or the wait failed and a new reset pulse began; every step keeps this. -/
def Obligations.StepWritesNothingWhileBusy : Prop :=
  ∀ s t : State, legal s.cfg = true → s.CtrlOk → s.PinsOk → s.BusOk → step s = .next t → t.BusOk

/-- R100, R103, R131: the bus carries only command phases of one byte of the closed set and data phases that are not empty;
every step keeps this. -/
def Obligations.StepKeepsTheBusClosed : Prop :=
  ∀ s t : State, legal s.cfg = true → s.PinsOk → s.OpOk → s.PhasesOk → step s = .next t → t.PhasesOk ∧ t.OpOk

/-- R222, R301, R308, R309: outside Idle and Busy, only RESET, INIT and WAKE reach the bus, and WAKE begins in Sleeping
only. From every state whose STATE and pins follow the sequencer, at Ready or inside a running operation, a step that
changes `TRACE` is made in Idle or in Busy, or is a step of RESET, INIT or WAKE; and from Ready outside Idle no operation is
begun but RESET, INIT, WAKE in Sleeping, and FILL, which appends no event. -/
def Obligations.OnlyRecoveryReachesTheBusOutsideIdle : Prop :=
  ∀ s t : State, s.CtrlOk → s.PinsOk → step s = .next t →
    (t.trace ≠ s.trace →
      s.ctrl = .idle ∨ s.ctrl = .busy ∨
      (∃ op k, (s.seq = .running op k ∨ s.seq = .aborting op k) ∧ recovers op = true) ∨
      (s.seq = .ready ∧ ∃ req rest op, s.hreq = req :: rest ∧ decodeRequest req = .ok op ∧ recovers op = true ∧
        (op = .wake → s.ctrl = .sleeping))) ∧
    (s.seq = .ready → ∀ op k, t.seq = .running op k ∨ t.seq = .aborting op k →
      s.ctrl = .idle ∨ (recovers op = true ∧ (op = .wake → s.ctrl = .sleeping)) ∨ ∃ v, op = .fill v)
end

