-- ==== Sys2Proof/Laws/State.lean ====
section
/-! SUPPORT. One lemma for each field under each named update of the state, so that no later proof unfolds a record
update. -/

namespace Sys2Proof.Machine

/-! ### setCtrl -/

@[simp] theorem State.setCtrl_cfg (s : State) (c : Ctrl) : (s.setCtrl c).cfg = s.cfg := rfl
@[simp] theorem State.setCtrl_ctrl (s : State) (c : Ctrl) : (s.setCtrl c).ctrl = c := rfl
@[simp] theorem State.setCtrl_status (s : State) (c : Ctrl) : (s.setCtrl c).status = s.status := rfl
@[simp] theorem State.setCtrl_csN (s : State) (c : Ctrl) : (s.setCtrl c).csN = s.csN := rfl
@[simp] theorem State.setCtrl_dc (s : State) (c : Ctrl) : (s.setCtrl c).dc = s.dc := rfl
@[simp] theorem State.setCtrl_rstN (s : State) (c : Ctrl) : (s.setCtrl c).rstN = s.rstN := rfl
@[simp] theorem State.setCtrl_seq (s : State) (c : Ctrl) : (s.setCtrl c).seq = s.seq := rfl
@[simp] theorem State.setCtrl_polls (s : State) (c : Ctrl) : (s.setCtrl c).polls = s.polls := rfl
@[simp] theorem State.setCtrl_trace (s : State) (c : Ctrl) : (s.setCtrl c).trace = s.trace := rfl
@[simp] theorem State.setCtrl_pb (s : State) (c : Ctrl) : (s.setCtrl c).pb = s.pb := rfl
@[simp] theorem State.setCtrl_hreq (s : State) (c : Ctrl) : (s.setCtrl c).hreq = s.hreq := rfl
@[simp] theorem State.setCtrl_hrsp (s : State) (c : Ctrl) : (s.setCtrl c).hrsp = s.hrsp := rfl
@[simp] theorem State.setCtrl_busyIn (s : State) (c : Ctrl) : (s.setCtrl c).busyIn = s.busyIn := rfl
@[simp] theorem State.setCtrl_answerIn (s : State) (c : Ctrl) : (s.setCtrl c).answerIn = s.answerIn := rfl
@[simp] theorem State.setCtrl_drawCount (s : State) (c : Ctrl) : (s.setCtrl c).drawCount = s.drawCount := rfl

/-! ### setSeq -/

@[simp] theorem State.setSeq_cfg (s : State) (q : Seq) : (s.setSeq q).cfg = s.cfg := rfl
@[simp] theorem State.setSeq_ctrl (s : State) (q : Seq) : (s.setSeq q).ctrl = s.ctrl := rfl
@[simp] theorem State.setSeq_status (s : State) (q : Seq) : (s.setSeq q).status = s.status := rfl
@[simp] theorem State.setSeq_csN (s : State) (q : Seq) : (s.setSeq q).csN = s.csN := rfl
@[simp] theorem State.setSeq_dc (s : State) (q : Seq) : (s.setSeq q).dc = s.dc := rfl
@[simp] theorem State.setSeq_rstN (s : State) (q : Seq) : (s.setSeq q).rstN = s.rstN := rfl
@[simp] theorem State.setSeq_seq (s : State) (q : Seq) : (s.setSeq q).seq = q := rfl
@[simp] theorem State.setSeq_polls (s : State) (q : Seq) : (s.setSeq q).polls = s.polls := rfl
@[simp] theorem State.setSeq_trace (s : State) (q : Seq) : (s.setSeq q).trace = s.trace := rfl
@[simp] theorem State.setSeq_pb (s : State) (q : Seq) : (s.setSeq q).pb = s.pb := rfl
@[simp] theorem State.setSeq_hreq (s : State) (q : Seq) : (s.setSeq q).hreq = s.hreq := rfl
@[simp] theorem State.setSeq_hrsp (s : State) (q : Seq) : (s.setSeq q).hrsp = s.hrsp := rfl
@[simp] theorem State.setSeq_busyIn (s : State) (q : Seq) : (s.setSeq q).busyIn = s.busyIn := rfl
@[simp] theorem State.setSeq_answerIn (s : State) (q : Seq) : (s.setSeq q).answerIn = s.answerIn := rfl
@[simp] theorem State.setSeq_drawCount (s : State) (q : Seq) : (s.setSeq q).drawCount = s.drawCount := rfl

/-! ### setPolls -/

@[simp] theorem State.setPolls_cfg (s : State) (n : Nat) : (s.setPolls n).cfg = s.cfg := rfl
@[simp] theorem State.setPolls_ctrl (s : State) (n : Nat) : (s.setPolls n).ctrl = s.ctrl := rfl
@[simp] theorem State.setPolls_status (s : State) (n : Nat) : (s.setPolls n).status = s.status := rfl
@[simp] theorem State.setPolls_csN (s : State) (n : Nat) : (s.setPolls n).csN = s.csN := rfl
@[simp] theorem State.setPolls_dc (s : State) (n : Nat) : (s.setPolls n).dc = s.dc := rfl
@[simp] theorem State.setPolls_rstN (s : State) (n : Nat) : (s.setPolls n).rstN = s.rstN := rfl
@[simp] theorem State.setPolls_seq (s : State) (n : Nat) : (s.setPolls n).seq = s.seq := rfl
@[simp] theorem State.setPolls_polls (s : State) (n : Nat) : (s.setPolls n).polls = n := rfl
@[simp] theorem State.setPolls_trace (s : State) (n : Nat) : (s.setPolls n).trace = s.trace := rfl
@[simp] theorem State.setPolls_pb (s : State) (n : Nat) : (s.setPolls n).pb = s.pb := rfl
@[simp] theorem State.setPolls_hreq (s : State) (n : Nat) : (s.setPolls n).hreq = s.hreq := rfl
@[simp] theorem State.setPolls_hrsp (s : State) (n : Nat) : (s.setPolls n).hrsp = s.hrsp := rfl
@[simp] theorem State.setPolls_busyIn (s : State) (n : Nat) : (s.setPolls n).busyIn = s.busyIn := rfl
@[simp] theorem State.setPolls_answerIn (s : State) (n : Nat) : (s.setPolls n).answerIn = s.answerIn := rfl
@[simp] theorem State.setPolls_drawCount (s : State) (n : Nat) : (s.setPolls n).drawCount = s.drawCount := rfl

/-! ### setPb -/

@[simp] theorem State.setPb_cfg (s : State) (p : PixelBuffer) : (s.setPb p).cfg = s.cfg := rfl
@[simp] theorem State.setPb_ctrl (s : State) (p : PixelBuffer) : (s.setPb p).ctrl = s.ctrl := rfl
@[simp] theorem State.setPb_status (s : State) (p : PixelBuffer) : (s.setPb p).status = s.status := rfl
@[simp] theorem State.setPb_csN (s : State) (p : PixelBuffer) : (s.setPb p).csN = s.csN := rfl
@[simp] theorem State.setPb_dc (s : State) (p : PixelBuffer) : (s.setPb p).dc = s.dc := rfl
@[simp] theorem State.setPb_rstN (s : State) (p : PixelBuffer) : (s.setPb p).rstN = s.rstN := rfl
@[simp] theorem State.setPb_seq (s : State) (p : PixelBuffer) : (s.setPb p).seq = s.seq := rfl
@[simp] theorem State.setPb_polls (s : State) (p : PixelBuffer) : (s.setPb p).polls = s.polls := rfl
@[simp] theorem State.setPb_trace (s : State) (p : PixelBuffer) : (s.setPb p).trace = s.trace := rfl
@[simp] theorem State.setPb_pb (s : State) (p : PixelBuffer) : (s.setPb p).pb = p := rfl
@[simp] theorem State.setPb_hreq (s : State) (p : PixelBuffer) : (s.setPb p).hreq = s.hreq := rfl
@[simp] theorem State.setPb_hrsp (s : State) (p : PixelBuffer) : (s.setPb p).hrsp = s.hrsp := rfl
@[simp] theorem State.setPb_busyIn (s : State) (p : PixelBuffer) : (s.setPb p).busyIn = s.busyIn := rfl
@[simp] theorem State.setPb_answerIn (s : State) (p : PixelBuffer) : (s.setPb p).answerIn = s.answerIn := rfl
@[simp] theorem State.setPb_drawCount (s : State) (p : PixelBuffer) : (s.setPb p).drawCount = s.drawCount := rfl

/-! ### emit -/

@[simp] theorem State.emit_cfg (s : State) (e : Event) : (s.emit e).cfg = s.cfg := rfl
@[simp] theorem State.emit_ctrl (s : State) (e : Event) : (s.emit e).ctrl = s.ctrl := rfl
@[simp] theorem State.emit_status (s : State) (e : Event) : (s.emit e).status = s.status := rfl
@[simp] theorem State.emit_csN (s : State) (e : Event) : (s.emit e).csN = s.csN := rfl
@[simp] theorem State.emit_dc (s : State) (e : Event) : (s.emit e).dc = s.dc := rfl
@[simp] theorem State.emit_rstN (s : State) (e : Event) : (s.emit e).rstN = s.rstN := rfl
@[simp] theorem State.emit_seq (s : State) (e : Event) : (s.emit e).seq = s.seq := rfl
@[simp] theorem State.emit_polls (s : State) (e : Event) : (s.emit e).polls = s.polls := rfl
@[simp] theorem State.emit_trace (s : State) (e : Event) : (s.emit e).trace = s.trace ++ [e] := rfl
@[simp] theorem State.emit_pb (s : State) (e : Event) : (s.emit e).pb = s.pb := rfl
@[simp] theorem State.emit_hreq (s : State) (e : Event) : (s.emit e).hreq = s.hreq := rfl
@[simp] theorem State.emit_hrsp (s : State) (e : Event) : (s.emit e).hrsp = s.hrsp := rfl
@[simp] theorem State.emit_busyIn (s : State) (e : Event) : (s.emit e).busyIn = s.busyIn := rfl
@[simp] theorem State.emit_answerIn (s : State) (e : Event) : (s.emit e).answerIn = s.answerIn := rfl
@[simp] theorem State.emit_drawCount (s : State) (e : Event) : (s.emit e).drawCount = s.drawCount := rfl

/-! ### finish -/

@[simp] theorem State.finish_cfg (s : State) (r : Result) (d : List Byte) : (s.finish r d).cfg = s.cfg := rfl
@[simp] theorem State.finish_ctrl (s : State) (r : Result) (d : List Byte) : (s.finish r d).ctrl = s.ctrl := rfl
@[simp] theorem State.finish_status (s : State) (r : Result) (d : List Byte) : (s.finish r d).status = r.code := rfl
@[simp] theorem State.finish_csN (s : State) (r : Result) (d : List Byte) : (s.finish r d).csN = s.csN := rfl
@[simp] theorem State.finish_dc (s : State) (r : Result) (d : List Byte) : (s.finish r d).dc = s.dc := rfl
@[simp] theorem State.finish_rstN (s : State) (r : Result) (d : List Byte) : (s.finish r d).rstN = s.rstN := rfl
@[simp] theorem State.finish_seq (s : State) (r : Result) (d : List Byte) : (s.finish r d).seq = .ready := rfl
@[simp] theorem State.finish_polls (s : State) (r : Result) (d : List Byte) : (s.finish r d).polls = s.polls := rfl
@[simp] theorem State.finish_trace (s : State) (r : Result) (d : List Byte) : (s.finish r d).trace = s.trace := rfl
@[simp] theorem State.finish_pb (s : State) (r : Result) (d : List Byte) : (s.finish r d).pb = s.pb := rfl
@[simp] theorem State.finish_hreq (s : State) (r : Result) (d : List Byte) : (s.finish r d).hreq = s.hreq := rfl
@[simp] theorem State.finish_hrsp (s : State) (r : Result) (d : List Byte) : (s.finish r d).hrsp = s.hrsp ++ [r.code :: s.ctrl.code.setWidth 8 :: d] := rfl
@[simp] theorem State.finish_busyIn (s : State) (r : Result) (d : List Byte) : (s.finish r d).busyIn = s.busyIn := rfl
@[simp] theorem State.finish_answerIn (s : State) (r : Result) (d : List Byte) : (s.finish r d).answerIn = s.answerIn := rfl
@[simp] theorem State.finish_drawCount (s : State) (r : Result) (d : List Byte) : (s.finish r d).drawCount = s.drawCount := rfl

/-! ### takeRequest -/

@[simp] theorem State.takeRequest_cfg (s : State) : (s.takeRequest).cfg = s.cfg := rfl
@[simp] theorem State.takeRequest_ctrl (s : State) : (s.takeRequest).ctrl = s.ctrl := rfl
@[simp] theorem State.takeRequest_status (s : State) : (s.takeRequest).status = s.status := rfl
@[simp] theorem State.takeRequest_csN (s : State) : (s.takeRequest).csN = s.csN := rfl
@[simp] theorem State.takeRequest_dc (s : State) : (s.takeRequest).dc = s.dc := rfl
@[simp] theorem State.takeRequest_rstN (s : State) : (s.takeRequest).rstN = s.rstN := rfl
@[simp] theorem State.takeRequest_seq (s : State) : (s.takeRequest).seq = s.seq := rfl
@[simp] theorem State.takeRequest_polls (s : State) : (s.takeRequest).polls = s.polls := rfl
@[simp] theorem State.takeRequest_trace (s : State) : (s.takeRequest).trace = s.trace := rfl
@[simp] theorem State.takeRequest_pb (s : State) : (s.takeRequest).pb = s.pb := rfl
@[simp] theorem State.takeRequest_hreq (s : State) : (s.takeRequest).hreq = s.hreq.tail := rfl
@[simp] theorem State.takeRequest_hrsp (s : State) : (s.takeRequest).hrsp = s.hrsp := rfl
@[simp] theorem State.takeRequest_busyIn (s : State) : (s.takeRequest).busyIn = s.busyIn := rfl
@[simp] theorem State.takeRequest_answerIn (s : State) : (s.takeRequest).answerIn = s.answerIn := rfl
@[simp] theorem State.takeRequest_drawCount (s : State) : (s.takeRequest).drawCount = s.drawCount := rfl

/-! ### drive csN -/

@[simp] theorem State.drive_csN_cfg (s : State) (v : Bit) : (s.drive .csN v).cfg = s.cfg := rfl
@[simp] theorem State.drive_csN_ctrl (s : State) (v : Bit) : (s.drive .csN v).ctrl = s.ctrl := rfl
@[simp] theorem State.drive_csN_status (s : State) (v : Bit) : (s.drive .csN v).status = s.status := rfl
@[simp] theorem State.drive_csN_csN (s : State) (v : Bit) : (s.drive .csN v).csN = .driven v := rfl
@[simp] theorem State.drive_csN_dc (s : State) (v : Bit) : (s.drive .csN v).dc = s.dc := rfl
@[simp] theorem State.drive_csN_rstN (s : State) (v : Bit) : (s.drive .csN v).rstN = s.rstN := rfl
@[simp] theorem State.drive_csN_seq (s : State) (v : Bit) : (s.drive .csN v).seq = s.seq := rfl
@[simp] theorem State.drive_csN_polls (s : State) (v : Bit) : (s.drive .csN v).polls = s.polls := rfl
@[simp] theorem State.drive_csN_trace (s : State) (v : Bit) : (s.drive .csN v).trace = s.trace ++ [.drive .csN v] := rfl
@[simp] theorem State.drive_csN_pb (s : State) (v : Bit) : (s.drive .csN v).pb = s.pb := rfl
@[simp] theorem State.drive_csN_hreq (s : State) (v : Bit) : (s.drive .csN v).hreq = s.hreq := rfl
@[simp] theorem State.drive_csN_hrsp (s : State) (v : Bit) : (s.drive .csN v).hrsp = s.hrsp := rfl
@[simp] theorem State.drive_csN_busyIn (s : State) (v : Bit) : (s.drive .csN v).busyIn = s.busyIn := rfl
@[simp] theorem State.drive_csN_answerIn (s : State) (v : Bit) : (s.drive .csN v).answerIn = s.answerIn := rfl
@[simp] theorem State.drive_csN_drawCount (s : State) (v : Bit) : (s.drive .csN v).drawCount = s.drawCount := rfl

/-! ### drive dc -/

@[simp] theorem State.drive_dc_cfg (s : State) (v : Bit) : (s.drive .dc v).cfg = s.cfg := rfl
@[simp] theorem State.drive_dc_ctrl (s : State) (v : Bit) : (s.drive .dc v).ctrl = s.ctrl := rfl
@[simp] theorem State.drive_dc_status (s : State) (v : Bit) : (s.drive .dc v).status = s.status := rfl
@[simp] theorem State.drive_dc_csN (s : State) (v : Bit) : (s.drive .dc v).csN = s.csN := rfl
@[simp] theorem State.drive_dc_dc (s : State) (v : Bit) : (s.drive .dc v).dc = .driven v := rfl
@[simp] theorem State.drive_dc_rstN (s : State) (v : Bit) : (s.drive .dc v).rstN = s.rstN := rfl
@[simp] theorem State.drive_dc_seq (s : State) (v : Bit) : (s.drive .dc v).seq = s.seq := rfl
@[simp] theorem State.drive_dc_polls (s : State) (v : Bit) : (s.drive .dc v).polls = s.polls := rfl
@[simp] theorem State.drive_dc_trace (s : State) (v : Bit) : (s.drive .dc v).trace = s.trace ++ [.drive .dc v] := rfl
@[simp] theorem State.drive_dc_pb (s : State) (v : Bit) : (s.drive .dc v).pb = s.pb := rfl
@[simp] theorem State.drive_dc_hreq (s : State) (v : Bit) : (s.drive .dc v).hreq = s.hreq := rfl
@[simp] theorem State.drive_dc_hrsp (s : State) (v : Bit) : (s.drive .dc v).hrsp = s.hrsp := rfl
@[simp] theorem State.drive_dc_busyIn (s : State) (v : Bit) : (s.drive .dc v).busyIn = s.busyIn := rfl
@[simp] theorem State.drive_dc_answerIn (s : State) (v : Bit) : (s.drive .dc v).answerIn = s.answerIn := rfl
@[simp] theorem State.drive_dc_drawCount (s : State) (v : Bit) : (s.drive .dc v).drawCount = s.drawCount := rfl

/-! ### drive rstN -/

@[simp] theorem State.drive_rstN_cfg (s : State) (v : Bit) : (s.drive .rstN v).cfg = s.cfg := rfl
@[simp] theorem State.drive_rstN_ctrl (s : State) (v : Bit) : (s.drive .rstN v).ctrl = s.ctrl := rfl
@[simp] theorem State.drive_rstN_status (s : State) (v : Bit) : (s.drive .rstN v).status = s.status := rfl
@[simp] theorem State.drive_rstN_csN (s : State) (v : Bit) : (s.drive .rstN v).csN = s.csN := rfl
@[simp] theorem State.drive_rstN_dc (s : State) (v : Bit) : (s.drive .rstN v).dc = s.dc := rfl
@[simp] theorem State.drive_rstN_rstN (s : State) (v : Bit) : (s.drive .rstN v).rstN = .driven v := rfl
@[simp] theorem State.drive_rstN_seq (s : State) (v : Bit) : (s.drive .rstN v).seq = s.seq := rfl
@[simp] theorem State.drive_rstN_polls (s : State) (v : Bit) : (s.drive .rstN v).polls = s.polls := rfl
@[simp] theorem State.drive_rstN_trace (s : State) (v : Bit) : (s.drive .rstN v).trace = s.trace ++ [.drive .rstN v] := rfl
@[simp] theorem State.drive_rstN_pb (s : State) (v : Bit) : (s.drive .rstN v).pb = s.pb := rfl
@[simp] theorem State.drive_rstN_hreq (s : State) (v : Bit) : (s.drive .rstN v).hreq = s.hreq := rfl
@[simp] theorem State.drive_rstN_hrsp (s : State) (v : Bit) : (s.drive .rstN v).hrsp = s.hrsp := rfl
@[simp] theorem State.drive_rstN_busyIn (s : State) (v : Bit) : (s.drive .rstN v).busyIn = s.busyIn := rfl
@[simp] theorem State.drive_rstN_answerIn (s : State) (v : Bit) : (s.drive .rstN v).answerIn = s.answerIn := rfl
@[simp] theorem State.drive_rstN_drawCount (s : State) (v : Bit) : (s.drive .rstN v).drawCount = s.drawCount := rfl

/-! ### drive of any pin -/

@[simp] theorem State.drive_cfg (s : State) (p : Pin) (v : Bit) : (s.drive p v).cfg = s.cfg := by cases p <;> rfl
@[simp] theorem State.drive_ctrl (s : State) (p : Pin) (v : Bit) : (s.drive p v).ctrl = s.ctrl := by cases p <;> rfl
@[simp] theorem State.drive_status (s : State) (p : Pin) (v : Bit) : (s.drive p v).status = s.status := by cases p <;> rfl
@[simp] theorem State.drive_seq (s : State) (p : Pin) (v : Bit) : (s.drive p v).seq = s.seq := by cases p <;> rfl
@[simp] theorem State.drive_polls (s : State) (p : Pin) (v : Bit) : (s.drive p v).polls = s.polls := by cases p <;> rfl
@[simp] theorem State.drive_trace (s : State) (p : Pin) (v : Bit) : (s.drive p v).trace = s.trace ++ [.drive p v] := by cases p <;> rfl
@[simp] theorem State.drive_pb (s : State) (p : Pin) (v : Bit) : (s.drive p v).pb = s.pb := by cases p <;> rfl
@[simp] theorem State.drive_hreq (s : State) (p : Pin) (v : Bit) : (s.drive p v).hreq = s.hreq := by cases p <;> rfl
@[simp] theorem State.drive_hrsp (s : State) (p : Pin) (v : Bit) : (s.drive p v).hrsp = s.hrsp := by cases p <;> rfl
@[simp] theorem State.drive_busyIn (s : State) (p : Pin) (v : Bit) : (s.drive p v).busyIn = s.busyIn := by cases p <;> rfl
@[simp] theorem State.drive_answerIn (s : State) (p : Pin) (v : Bit) : (s.drive p v).answerIn = s.answerIn := by cases p <;> rfl
@[simp] theorem State.drive_drawCount (s : State) (p : Pin) (v : Bit) : (s.drive p v).drawCount = s.drawCount := by cases p <;> rfl

/-! ### takeLevel and takeAnswer: only the environment's inputs change -/

@[simp] theorem State.takeLevel_cfg (s : State) : s.takeLevel.cfg = s.cfg := by
  unfold State.takeLevel; split <;> rfl
@[simp] theorem State.takeAnswer_cfg (s : State) : s.takeAnswer.cfg = s.cfg := by
  unfold State.takeAnswer; split
  · split <;> rfl
  · rfl
@[simp] theorem State.takeLevel_ctrl (s : State) : s.takeLevel.ctrl = s.ctrl := by
  unfold State.takeLevel; split <;> rfl
@[simp] theorem State.takeAnswer_ctrl (s : State) : s.takeAnswer.ctrl = s.ctrl := by
  unfold State.takeAnswer; split
  · split <;> rfl
  · rfl
@[simp] theorem State.takeLevel_status (s : State) : s.takeLevel.status = s.status := by
  unfold State.takeLevel; split <;> rfl
@[simp] theorem State.takeAnswer_status (s : State) : s.takeAnswer.status = s.status := by
  unfold State.takeAnswer; split
  · split <;> rfl
  · rfl
@[simp] theorem State.takeLevel_csN (s : State) : s.takeLevel.csN = s.csN := by
  unfold State.takeLevel; split <;> rfl
@[simp] theorem State.takeAnswer_csN (s : State) : s.takeAnswer.csN = s.csN := by
  unfold State.takeAnswer; split
  · split <;> rfl
  · rfl
@[simp] theorem State.takeLevel_dc (s : State) : s.takeLevel.dc = s.dc := by
  unfold State.takeLevel; split <;> rfl
@[simp] theorem State.takeAnswer_dc (s : State) : s.takeAnswer.dc = s.dc := by
  unfold State.takeAnswer; split
  · split <;> rfl
  · rfl
@[simp] theorem State.takeLevel_rstN (s : State) : s.takeLevel.rstN = s.rstN := by
  unfold State.takeLevel; split <;> rfl
@[simp] theorem State.takeAnswer_rstN (s : State) : s.takeAnswer.rstN = s.rstN := by
  unfold State.takeAnswer; split
  · split <;> rfl
  · rfl
@[simp] theorem State.takeLevel_seq (s : State) : s.takeLevel.seq = s.seq := by
  unfold State.takeLevel; split <;> rfl
@[simp] theorem State.takeAnswer_seq (s : State) : s.takeAnswer.seq = s.seq := by
  unfold State.takeAnswer; split
  · split <;> rfl
  · rfl
@[simp] theorem State.takeLevel_polls (s : State) : s.takeLevel.polls = s.polls := by
  unfold State.takeLevel; split <;> rfl
@[simp] theorem State.takeAnswer_polls (s : State) : s.takeAnswer.polls = s.polls := by
  unfold State.takeAnswer; split
  · split <;> rfl
  · rfl
@[simp] theorem State.takeLevel_trace (s : State) : s.takeLevel.trace = s.trace := by
  unfold State.takeLevel; split <;> rfl
@[simp] theorem State.takeAnswer_trace (s : State) : s.takeAnswer.trace = s.trace := by
  unfold State.takeAnswer; split
  · split <;> rfl
  · rfl
@[simp] theorem State.takeLevel_pb (s : State) : s.takeLevel.pb = s.pb := by
  unfold State.takeLevel; split <;> rfl
@[simp] theorem State.takeAnswer_pb (s : State) : s.takeAnswer.pb = s.pb := by
  unfold State.takeAnswer; split
  · split <;> rfl
  · rfl
@[simp] theorem State.takeLevel_hreq (s : State) : s.takeLevel.hreq = s.hreq := by
  unfold State.takeLevel; split <;> rfl
@[simp] theorem State.takeAnswer_hreq (s : State) : s.takeAnswer.hreq = s.hreq := by
  unfold State.takeAnswer; split
  · split <;> rfl
  · rfl
@[simp] theorem State.takeLevel_hrsp (s : State) : s.takeLevel.hrsp = s.hrsp := by
  unfold State.takeLevel; split <;> rfl
@[simp] theorem State.takeAnswer_hrsp (s : State) : s.takeAnswer.hrsp = s.hrsp := by
  unfold State.takeAnswer; split
  · split <;> rfl
  · rfl
@[simp] theorem State.takeAnswer_busyIn (s : State) : s.takeAnswer.busyIn = s.busyIn := by
  unfold State.takeAnswer; split
  · split <;> rfl
  · rfl
@[simp] theorem State.takeLevel_answerIn (s : State) : s.takeLevel.answerIn = s.answerIn := by
  unfold State.takeLevel; split <;> rfl

/-! ### busSample and busWrite: the event is recorded -/

@[simp] theorem State.busSample_cfg (s : State) : s.busSample.cfg = s.cfg := by simp [State.busSample]
@[simp] theorem State.busWrite_cfg (s : State) (bs : List Byte) : (s.busWrite bs).cfg = s.cfg := by
  simp [State.busWrite]
@[simp] theorem State.busSample_ctrl (s : State) : s.busSample.ctrl = s.ctrl := by simp [State.busSample]
@[simp] theorem State.busWrite_ctrl (s : State) (bs : List Byte) : (s.busWrite bs).ctrl = s.ctrl := by
  simp [State.busWrite]
@[simp] theorem State.busSample_status (s : State) : s.busSample.status = s.status := by simp [State.busSample]
@[simp] theorem State.busWrite_status (s : State) (bs : List Byte) : (s.busWrite bs).status = s.status := by
  simp [State.busWrite]
@[simp] theorem State.busSample_csN (s : State) : s.busSample.csN = s.csN := by simp [State.busSample]
@[simp] theorem State.busWrite_csN (s : State) (bs : List Byte) : (s.busWrite bs).csN = s.csN := by
  simp [State.busWrite]
@[simp] theorem State.busSample_dc (s : State) : s.busSample.dc = s.dc := by simp [State.busSample]
@[simp] theorem State.busWrite_dc (s : State) (bs : List Byte) : (s.busWrite bs).dc = s.dc := by
  simp [State.busWrite]
@[simp] theorem State.busSample_rstN (s : State) : s.busSample.rstN = s.rstN := by simp [State.busSample]
@[simp] theorem State.busWrite_rstN (s : State) (bs : List Byte) : (s.busWrite bs).rstN = s.rstN := by
  simp [State.busWrite]
@[simp] theorem State.busSample_seq (s : State) : s.busSample.seq = s.seq := by simp [State.busSample]
@[simp] theorem State.busWrite_seq (s : State) (bs : List Byte) : (s.busWrite bs).seq = s.seq := by
  simp [State.busWrite]
@[simp] theorem State.busSample_polls (s : State) : s.busSample.polls = s.polls := by simp [State.busSample]
@[simp] theorem State.busWrite_polls (s : State) (bs : List Byte) : (s.busWrite bs).polls = s.polls := by
  simp [State.busWrite]
@[simp] theorem State.busSample_trace (s : State) : s.busSample.trace = s.trace ++ [.sample s.nextLevel] := by simp [State.busSample]
@[simp] theorem State.busWrite_trace (s : State) (bs : List Byte) : (s.busWrite bs).trace = s.trace ++ [.write bs s.nextAnswer] := by
  simp [State.busWrite]
@[simp] theorem State.busSample_pb (s : State) : s.busSample.pb = s.pb := by simp [State.busSample]
@[simp] theorem State.busWrite_pb (s : State) (bs : List Byte) : (s.busWrite bs).pb = s.pb := by
  simp [State.busWrite]
@[simp] theorem State.busSample_hreq (s : State) : s.busSample.hreq = s.hreq := by simp [State.busSample]
@[simp] theorem State.busWrite_hreq (s : State) (bs : List Byte) : (s.busWrite bs).hreq = s.hreq := by
  simp [State.busWrite]
@[simp] theorem State.busSample_hrsp (s : State) : s.busSample.hrsp = s.hrsp := by simp [State.busSample]
@[simp] theorem State.busWrite_hrsp (s : State) (bs : List Byte) : (s.busWrite bs).hrsp = s.hrsp := by
  simp [State.busWrite]
@[simp] theorem State.busWrite_busyIn (s : State) (bs : List Byte) : (s.busWrite bs).busyIn = s.busyIn := by
  simp [State.busWrite]
@[simp] theorem State.busSample_answerIn (s : State) : s.busSample.answerIn = s.answerIn := by simp [State.busSample]
/-! ### act and acts: only STATE and POLLS change -/

@[simp] theorem State.act_cfg (s : State) (a : Action) : (s.act a).cfg = s.cfg := by cases a <;> rfl
@[simp] theorem State.acts_cfg (s : State) (as : List Action) : (s.acts as).cfg = s.cfg := by
  unfold State.acts
  induction as generalizing s with
  | nil => rfl
  | cons a as ih => simp only [List.foldl_cons, ih, State.act_cfg]
@[simp] theorem State.act_status (s : State) (a : Action) : (s.act a).status = s.status := by cases a <;> rfl
@[simp] theorem State.acts_status (s : State) (as : List Action) : (s.acts as).status = s.status := by
  unfold State.acts
  induction as generalizing s with
  | nil => rfl
  | cons a as ih => simp only [List.foldl_cons, ih, State.act_status]
@[simp] theorem State.act_csN (s : State) (a : Action) : (s.act a).csN = s.csN := by cases a <;> rfl
@[simp] theorem State.acts_csN (s : State) (as : List Action) : (s.acts as).csN = s.csN := by
  unfold State.acts
  induction as generalizing s with
  | nil => rfl
  | cons a as ih => simp only [List.foldl_cons, ih, State.act_csN]
@[simp] theorem State.act_dc (s : State) (a : Action) : (s.act a).dc = s.dc := by cases a <;> rfl
@[simp] theorem State.acts_dc (s : State) (as : List Action) : (s.acts as).dc = s.dc := by
  unfold State.acts
  induction as generalizing s with
  | nil => rfl
  | cons a as ih => simp only [List.foldl_cons, ih, State.act_dc]
@[simp] theorem State.act_rstN (s : State) (a : Action) : (s.act a).rstN = s.rstN := by cases a <;> rfl
@[simp] theorem State.acts_rstN (s : State) (as : List Action) : (s.acts as).rstN = s.rstN := by
  unfold State.acts
  induction as generalizing s with
  | nil => rfl
  | cons a as ih => simp only [List.foldl_cons, ih, State.act_rstN]
@[simp] theorem State.act_seq (s : State) (a : Action) : (s.act a).seq = s.seq := by cases a <;> rfl
@[simp] theorem State.acts_seq (s : State) (as : List Action) : (s.acts as).seq = s.seq := by
  unfold State.acts
  induction as generalizing s with
  | nil => rfl
  | cons a as ih => simp only [List.foldl_cons, ih, State.act_seq]
@[simp] theorem State.act_trace (s : State) (a : Action) : (s.act a).trace = s.trace := by cases a <;> rfl
@[simp] theorem State.acts_trace (s : State) (as : List Action) : (s.acts as).trace = s.trace := by
  unfold State.acts
  induction as generalizing s with
  | nil => rfl
  | cons a as ih => simp only [List.foldl_cons, ih, State.act_trace]
@[simp] theorem State.act_pb (s : State) (a : Action) : (s.act a).pb = s.pb := by cases a <;> rfl
@[simp] theorem State.acts_pb (s : State) (as : List Action) : (s.acts as).pb = s.pb := by
  unfold State.acts
  induction as generalizing s with
  | nil => rfl
  | cons a as ih => simp only [List.foldl_cons, ih, State.act_pb]
@[simp] theorem State.act_hreq (s : State) (a : Action) : (s.act a).hreq = s.hreq := by cases a <;> rfl
@[simp] theorem State.acts_hreq (s : State) (as : List Action) : (s.acts as).hreq = s.hreq := by
  unfold State.acts
  induction as generalizing s with
  | nil => rfl
  | cons a as ih => simp only [List.foldl_cons, ih, State.act_hreq]
@[simp] theorem State.act_hrsp (s : State) (a : Action) : (s.act a).hrsp = s.hrsp := by cases a <;> rfl
@[simp] theorem State.acts_hrsp (s : State) (as : List Action) : (s.acts as).hrsp = s.hrsp := by
  unfold State.acts
  induction as generalizing s with
  | nil => rfl
  | cons a as ih => simp only [List.foldl_cons, ih, State.act_hrsp]
@[simp] theorem State.act_busyIn (s : State) (a : Action) : (s.act a).busyIn = s.busyIn := by cases a <;> rfl
@[simp] theorem State.acts_busyIn (s : State) (as : List Action) : (s.acts as).busyIn = s.busyIn := by
  unfold State.acts
  induction as generalizing s with
  | nil => rfl
  | cons a as ih => simp only [List.foldl_cons, ih, State.act_busyIn]
@[simp] theorem State.act_answerIn (s : State) (a : Action) : (s.act a).answerIn = s.answerIn := by cases a <;> rfl
@[simp] theorem State.acts_answerIn (s : State) (as : List Action) : (s.acts as).answerIn = s.answerIn := by
  unfold State.acts
  induction as generalizing s with
  | nil => rfl
  | cons a as ih => simp only [List.foldl_cons, ih, State.act_answerIn]
@[simp] theorem State.act_drawCount (s : State) (a : Action) : (s.act a).drawCount = s.drawCount := by cases a <;> rfl
@[simp] theorem State.acts_drawCount (s : State) (as : List Action) : (s.acts as).drawCount = s.drawCount := by
  unfold State.acts
  induction as generalizing s with
  | nil => rfl
  | cons a as ih => simp only [List.foldl_cons, ih, State.act_drawCount]

@[simp] theorem State.acts_nil (s : State) : s.acts [] = s := rfl
@[simp] theorem State.acts_cons (s : State) (a : Action) (as : List Action) : s.acts (a :: as) = (s.act a).acts as := rfl
@[simp] theorem State.act_setCtrl (s : State) (c : Ctrl) : s.act (.setCtrl c) = s.setCtrl c := rfl
@[simp] theorem State.act_clearPolls (s : State) : s.act .clearPolls = s.setPolls 0 := rfl

/-! ### raise -/

theorem State.raise_preCheck (s : State) (r : Result) (h₁ : r ≠ .busTransferFailure) (h₂ : r ≠ .busyTimeout) :
    s.raise r = s.finish r [] := by cases r <;> first | rfl | contradiction

@[simp] theorem State.raise_busTransferFailure (s : State) :
    s.raise .busTransferFailure = (s.setCtrl .failed).finish .busTransferFailure [] := rfl

@[simp] theorem State.raise_busyTimeout (s : State) :
    s.raise .busyTimeout = (s.setCtrl .failed).finish .busyTimeout [] := rfl

@[simp] theorem State.raise_cfg (s : State) (r : Result) : (s.raise r).cfg = s.cfg := by cases r <;> rfl
@[simp] theorem State.raise_csN (s : State) (r : Result) : (s.raise r).csN = s.csN := by cases r <;> rfl
@[simp] theorem State.raise_dc (s : State) (r : Result) : (s.raise r).dc = s.dc := by cases r <;> rfl
@[simp] theorem State.raise_rstN (s : State) (r : Result) : (s.raise r).rstN = s.rstN := by cases r <;> rfl
@[simp] theorem State.raise_polls (s : State) (r : Result) : (s.raise r).polls = s.polls := by cases r <;> rfl
@[simp] theorem State.raise_trace (s : State) (r : Result) : (s.raise r).trace = s.trace := by cases r <;> rfl
@[simp] theorem State.raise_pb (s : State) (r : Result) : (s.raise r).pb = s.pb := by cases r <;> rfl
@[simp] theorem State.raise_hreq (s : State) (r : Result) : (s.raise r).hreq = s.hreq := by cases r <;> rfl
@[simp] theorem State.raise_busyIn (s : State) (r : Result) : (s.raise r).busyIn = s.busyIn := by cases r <;> rfl
@[simp] theorem State.raise_answerIn (s : State) (r : Result) : (s.raise r).answerIn = s.answerIn := by cases r <;> rfl
@[simp] theorem State.raise_drawCount (s : State) (r : Result) : (s.raise r).drawCount = s.drawCount := by cases r <;> rfl
@[simp] theorem State.raise_status (s : State) (r : Result) : (s.raise r).status = r.code := by cases r <;> rfl
@[simp] theorem State.raise_seq (s : State) (r : Result) : (s.raise r).seq = .ready := by cases r <;> rfl

end Sys2Proof.Machine
end

