-- ==== Sys2Proof/Laws/Sequencer.lean ====
section
/-! SUPPORT. What a step can do, said once: the step at a position of a body, the step that accepts a request, and a run
through a straight piece of a body. -/

namespace Sys2Proof.Machine

/-! ### The current instruction and the position it stands at -/

theorem commandAt_of_get (c : Cfg) (op : Instr) (k : Nat) (m : Micro) (h : (body c op)[k]? = some m) :
    commandAt c op k = m.cmd := by simp [commandAt, h]

theorem performAt_of_get (op : Instr) (k : Nat) (m : Micro) (s : State) (h : (body s.cfg op)[k]? = some m) :
    performAt op k s = perform op k m s := by simp [performAt, h]

/-- A controller command executed where the sequencer stands in its transaction performs the next primitive. -/
theorem exec_command_running (c : Command) (s : State) (op : Instr) (k : Nat) (m : Micro) (hq : s.seq = .running op k)
    (hm : (body s.cfg op)[k]? = some m) (hc : m.cmd = some c) : exec c.instr s = perform op k m s := by
  have h : transaction c s = perform op k m s := by
    simp [transaction, hq, commandAt_of_get _ _ _ _ hm, hc, performAt_of_get _ _ _ _ hm]
  cases c <;> exact h

/-- A controller command executed after its write failed ends the operation. -/
theorem exec_command_aborting (c : Command) (s : State) (op : Instr) (k : Nat) (hq : s.seq = .aborting op k)
    (hc : commandAt s.cfg op k = some c) : exec c.instr s = .next s.abort := by
  have h : transaction c s = .next s.abort := by simp [transaction, hq, hc]
  cases c <;> exact h

/-- An operation with a body, executed while it runs, performs its next primitive. -/
theorem exec_op_running (s : State) (op : Instr) (k : Nat) (m : Micro) (hq : s.seq = .running op k)
    (hm : (body s.cfg op)[k]? = some m) : exec op s = perform op k m s := by
  have hp := performAt_of_get op k m s hm
  cases op <;> first
    | (simp [body] at hm; done)
    | simp [exec, execReset, execInit, execDisplay, execShow, execClear, execSleep, execWake, execFill, sequenced, hq, hp]

theorem exec_op_aborting (s : State) (op : Instr) (k : Nat) (hq : s.seq = .aborting op k)
    (hm : k < (body s.cfg op).length) : exec op s = .next s.abort := by
  cases op <;> first
    | (simp [body] at hm; done)
    | simp [exec, execReset, execInit, execDisplay, execShow, execClear, execSleep, execWake, execFill, sequenced, hq]

/-- While an operation runs, a step performs the primitive at its position. -/
theorem step_running (s : State) (op : Instr) (k : Nat) (m : Micro) (hq : s.seq = .running op k)
    (hm : (body s.cfg op)[k]? = some m) : step s = perform op k m s := by
  have hstep : step s = exec (currentAt s.cfg op k) s := by simp [step, hq]
  rw [hstep]
  unfold currentAt
  rw [commandAt_of_get _ _ _ _ hm]
  cases hc : m.cmd with
  | none => exact exec_op_running s op k m hq hm
  | some c => exact exec_command_running c s op k m hq hm hc

/-- After a failed write a step ends the operation. -/
theorem step_aborting (s : State) (op : Instr) (k : Nat) (hq : s.seq = .aborting op k)
    (hm : k < (body s.cfg op).length) : step s = .next s.abort := by
  have hstep : step s = exec (currentAt s.cfg op k) s := by simp [step, hq]
  rw [hstep]
  unfold currentAt
  cases hc : commandAt s.cfg op k with
  | none => exact exec_op_aborting s op k hq hm
  | some c => exact exec_command_aborting c s op k hq hc

/-! ### Waiting and taking a request -/

theorem step_waiting (s : State) (hq : s.seq = .ready) (hr : s.hreq = []) : step s = .next s := by
  simp [step, hq, hr]

theorem step_request (s : State) (req : List Byte) (rest : List (List Byte)) (i : Instr) (hq : s.seq = .ready)
    (hr : s.hreq = req :: rest) (hd : decodeRequest req = .ok i) : step s = exec i s.takeRequest := by
  simp [step, hq, hr, decode, hd]

theorem step_illegal (s : State) (req : List Byte) (rest : List (List Byte)) (e : DecodeError) (hq : s.seq = .ready)
    (hr : s.hreq = req :: rest) (hd : decodeRequest req = .error e) :
    step s = .next s.takeRequest.illegalRequest := by
  simp [step, hq, hr, decode, hd]

/-- The register writes with which an operation is accepted (R160, R163, R223). -/
def entryActs : Instr → List Action
  | .reset | .init _ | .wake => [.setCtrl .resetting]
  | _ => []

/-- Whether the sequencer runs the operation position by position. -/
def hasBody : Instr → Bool
  | .reset | .init _ | .display _ _ | .showBuf | .clear | .sleep | .wake | .fill _ => true
  | _ => false

theorem hasBody_of_get (c : Cfg) (op : Instr) (k : Nat) (m : Micro) (h : (body c op)[k]? = some m) :
    hasBody op = true := by cases op <;> first | rfl | (simp [body] at h)

/-- An operation with a body, accepted: its entry writes and its first primitive. -/
theorem exec_accept (s : State) (op : Instr) (hb : hasBody op = true) (hq : s.seq = .ready)
    (hp : preCheck op s = none) : exec op s = performAt op 0 (s.acts (entryActs op)) := by
  cases op <;> first
    | (simp [hasBody] at hb; done)
    | simp [exec, execReset, execInit, execDisplay, execShow, execClear, execSleep, execWake, execFill, sequenced, hq,
        hp, entryActs]

/-- Any host operation turned away by a check. -/
theorem exec_preCheck (s : State) (op : Instr) (r : Result) (hq : s.seq = .ready) (hp : preCheck op s = some r) :
    exec op s = .next (s.raise r) := by
  cases op <;> first
    | (simp [preCheck, accepts, operandError] at hp; done)
    | simp [exec, execDisplay, execShow, execClear, execSleep, execWake, execDraw, execSetpix, execGetpix, sequenced,
        immediate, hq, hp]

/-! ### A step does not read where the sequencer stood -/

theorem advance_setSeq (op : Instr) (k : Nat) (m : Micro) (s : State) (q : Seq) :
    advance op k m (s.setSeq q) = advance op k m s := by
  have h : (s.setSeq q).acts m.after = (s.acts m.after).setSeq q := by
    generalize m.after = as
    induction as generalizing s with
    | nil => rfl
    | cons a as ih =>
      have : (s.setSeq q).act a = (s.act a).setSeq q := by cases a <;> rfl
      rw [State.acts_cons, State.acts_cons, this, ih]
  unfold advance
  simp only [h, State.setSeq_cfg]
  split <;> rfl

theorem nextAnswer_setSeq (s : State) (q : Seq) : (s.setSeq q).nextAnswer = s.nextAnswer := rfl

theorem nextLevel_setSeq (s : State) (q : Seq) : (s.setSeq q).nextLevel = s.nextLevel := rfl

theorem takeAnswer_setSeq (s : State) (q : Seq) : (s.setSeq q).takeAnswer = s.takeAnswer.setSeq q := by
  cases hf : s.cfg.transportCanFail <;> cases ha : s.answerIn <;> simp [State.takeAnswer, hf, ha, State.setSeq]

theorem takeLevel_setSeq (s : State) (q : Seq) : (s.setSeq q).takeLevel = s.takeLevel.setSeq q := by
  cases hb : s.busyIn <;> simp [State.takeLevel, hb, State.setSeq]

theorem busWrite_setSeq (s : State) (q : Seq) (bs : List Byte) :
    (s.setSeq q).busWrite bs = (s.busWrite bs).setSeq q := by
  unfold State.busWrite
  rw [takeAnswer_setSeq, nextAnswer_setSeq]
  rfl

theorem busSample_setSeq (s : State) (q : Seq) : (s.setSeq q).busSample = s.busSample.setSeq q := by
  unfold State.busSample
  rw [takeLevel_setSeq, nextLevel_setSeq]
  rfl

theorem drive_setSeq (s : State) (q : Seq) (p : Pin) (v : Bit) : (s.setSeq q).drive p v = (s.drive p v).setSeq q := by
  cases p <;> rfl

theorem perform_setSeq (op : Instr) (k : Nat) (m : Micro) (s : State) (q : Seq) :
    perform op k m (s.setSeq q) = perform op k m s := by
  unfold perform
  split
  · rw [drive_setSeq, advance_setSeq]
  · exact congrArg _ (advance_setSeq op k m (s.emit _) q)
  · simp only [State.setSeq_pb]
    split
    · unfold transfer
      rw [nextAnswer_setSeq, busWrite_setSeq, advance_setSeq]
      split <;> rfl
    · rfl
  · unfold poll
    simp only [nextLevel_setSeq, busSample_setSeq, State.setSeq_cfg, State.setSeq_polls, advance_setSeq]
    split
    · rfl
    · split
      · split <;> rfl
      · rfl
  · exact congrArg _ (advance_setSeq op k m (s.setPb _) q)
  · simp only [State.setSeq_pb, State.setSeq_cfg, advance_setSeq]

/-- The step that accepts a request is the step at position 0 of its body. -/
theorem step_accept (s : State) (req : List Byte) (rest : List (List Byte)) (op : Instr) (m : Micro)
    (hq : s.seq = .ready) (hr : s.hreq = req :: rest) (hd : decodeRequest req = .ok op)
    (hp : preCheck op s.takeRequest = none) (hm : (body s.cfg op)[0]? = some m) :
    step s = step ((s.takeRequest.acts (entryActs op)).setSeq (.running op 0)) := by
  have hm' : (body (s.takeRequest.acts (entryActs op)).cfg op)[0]? = some m := by simpa using hm
  rw [step_request s req rest op hq hr hd, exec_accept _ op (hasBody_of_get _ _ _ _ hm) (by simpa using hq) hp,
    performAt_of_get _ _ _ _ hm', step_running _ op 0 m rfl (by simpa using hm'), perform_setSeq]

/-! ### Everything a step can do -/

/-- What a primitive that goes on does to the state. -/
def State.effect (s : State) : Prim → State
  | .drive p v => s.drive p v
  | .hold ms => s.emit (.hold ms)
  | .write src => s.busWrite ((src.get s.pb).getD [])
  | .sample => s.busSample
  | .memWrite a bs => s.setPb (s.pb.writeBytes a bs)
  | .memReadAll => s

/-- The primitive goes on to the next position: a write that can be read and is answered ok, a sample of the idle level,
a read of a written buffer. -/
def State.goesOn (s : State) : Prim → Prop
  | .drive _ _ => True
  | .hold _ => True
  | .write src => (src.get s.pb).isSome = true ∧ s.nextAnswer = .ok
  | .sample => s.nextLevel = s.cfg.idleLevel
  | .memWrite _ _ => True
  | .memReadAll => (s.pb.readBytes 0 (nbuf s.cfg)).isSome = true

/-- The four ways a primitive answers a next state: it goes on, its write fails, its wait times out, its wait goes on. -/
inductive PrimCase (op : Instr) (k : Nat) (m : Micro) (s t : State) : Prop
  | goesOn (h : s.goesOn m.prim) (ht : t = advance op k m (s.effect m.prim))
  | fails (src : Source) (bs : List Byte) (hp : m.prim = .write src) (hg : src.get s.pb = some bs)
      (hr : s.nextAnswer = .fail) (ht : t = (s.busWrite bs).setSeq (.aborting op k))
  | timesOut (n : Nat) (hp : m.prim = .sample) (hl : s.nextLevel ≠ s.cfg.idleLevel) (hn : s.cfg.busyTimeout = some n)
      (hk : n ≤ s.polls + 1) (ht : t = (s.busSample.setPolls (s.polls + 1)).raise .busyTimeout)
  | waits (hp : m.prim = .sample) (hl : s.nextLevel ≠ s.cfg.idleLevel)
      (hn : ∀ n, s.cfg.busyTimeout = some n → s.polls + 1 < n)
      (ht : t = (s.busSample.setPolls (s.polls + 1)).setSeq (.running op k))

theorem perform_next (op : Instr) (k : Nat) (m : Micro) (s t : State) (h : perform op k m s = .next t) :
    PrimCase op k m s t := by
  unfold perform at h
  cases hp : m.prim with
  | drive p v => simp only [hp] at h; cases h; exact .goesOn (by simp [hp, State.goesOn]) (by simp [hp, State.effect])
  | hold ms => simp only [hp] at h; cases h; exact .goesOn (by simp [hp, State.goesOn]) (by simp [hp, State.effect])
  | memWrite a bs =>
    simp only [hp] at h; cases h; exact .goesOn (by simp [hp, State.goesOn]) (by simp [hp, State.effect])
  | memReadAll =>
    simp only [hp] at h
    split at h
    · next d hd => cases h; exact .goesOn (by simp [hp, State.goesOn, hd]) (by simp [hp, State.effect])
    · cases h
  | write src =>
    simp only [hp] at h
    split at h
    · next bs hbs =>
      cases h
      unfold transfer
      cases hr : s.nextAnswer with
      | ok => exact .goesOn (by simp [hp, State.goesOn, hbs, hr]) (by simp [hp, State.effect, hbs])
      | fail => exact .fails src bs hp hbs hr rfl
    · cases h
  | sample =>
    simp only [hp] at h
    cases h
    unfold poll
    by_cases hl : s.nextLevel = s.cfg.idleLevel
    · exact .goesOn (by simp [hp, State.goesOn, hl]) (by simp [hp, State.effect, hl])
    · simp only [hl, if_false]
      cases hn : s.cfg.busyTimeout with
      | none => exact .waits hp hl (by simp [hn]) rfl
      | some n =>
        by_cases hk : n ≤ s.polls + 1
        · exact .timesOut n hp hl hn hk (by simp [hk])
        · exact .waits hp hl (by simp [hn]; omega) (by simp [hk])

/-- The two ways `advance` goes: to the next position, or to the end of the operation. -/
theorem advance_eq (op : Instr) (k : Nat) (m : Micro) (s : State) :
    (k + 1 < (body s.cfg op).length ∧ advance op k m s = (s.acts m.after).setSeq (.running op (k + 1))) ∨
      ((body s.cfg op).length ≤ k + 1 ∧ advance op k m s = (s.acts m.after).finish .ok []) := by
  unfold advance
  by_cases h : k + 1 < (body s.cfg op).length
  · exact Or.inl ⟨h, by simp [h]⟩
  · exact Or.inr ⟨by omega, by simp [h]⟩

/-- The operations of one pixel-buffer access, when no check turns them away (R240, R242 to R244). -/
inductive AccessCase (s : State) : Instr → State → Prop
  | draw (len : BitVec 32) (data : List Byte) :
      AccessCase s (.draw len data) ((s.setPb (s.pb.writeBytes 0 data)).finish .ok [])
  | setpix (x y : BitVec 16) (v : Bit) : AccessCase s (.setpix x y v)
      ((s.setPb (s.pb.writePixel (pixByte s.cfg x.toNat y.toNat) (pixBit x.toNat) v)).finish .ok [])
  | getpix (x y : BitVec 16) (v : Bit)
      (h : s.pb.readPixel (pixByte s.cfg x.toNat y.toNat) (pixBit x.toNat) = some v) :
      AccessCase s (.getpix x y) (s.finish .ok [pixelByte v])
  | readbuf (d : List Byte) (h : s.pb.readBytes 0 (nbuf s.cfg) = some d) : AccessCase s .readbuf (s.finish .ok d)

/-- The ways an instruction met at Ready answers a next state. -/
inductive ReadyCase (i : Instr) (s t : State) : Prop
  | check (r : Result) (hp : preCheck i s = some r) (ht : t = s.raise r)
  | access (hp : preCheck i s = none) (h : AccessCase s i t)
  | begins (hp : preCheck i s = none) (hb : hasBody i = true) (h : performAt i 0 (s.acts (entryActs i)) = .next t)

theorem exec_ready_next (i : Instr) (s t : State) (hq : s.seq = .ready) (h : exec i s = .next t) : ReadyCase i s t := by
  cases hp : preCheck i s with
  | some r => rw [exec_preCheck s i r hq hp] at h; cases h; exact .check r hp rfl
  | none =>
    cases hb : hasBody i with
    | true => exact .begins hp hb (by rw [← exec_accept s i hb hq hp]; exact h)
    | false =>
      cases i <;> first
        | (simp [hasBody] at hb; done)
        | (simp [exec, execPsr, execPwr, execPon, execBtst, execDslp, execDtm1, execDsp, execDrf, execDtm2, execPll,
            execCdi, execTres, execVdcs, transaction, hq] at h; done)
        | skip
      · simp only [exec, execDraw, immediate, hq, hp] at h; cases h; exact .access hp (.draw _ _)
      · simp only [exec, execSetpix, immediate, hq, hp] at h; cases h; exact .access hp (.setpix _ _ _)
      · simp only [exec, execGetpix, immediate, hq, hp] at h
        split at h
        · next v hv => cases h; exact .access hp (.getpix _ _ v hv)
        · cases h
      · simp only [exec, execReadbuf, immediate, hq, hp] at h
        split at h
        · next d hd => cases h; exact .access hp (.readbuf d hd)
        · cases h

/-- Everything a step can do when it answers a next state. -/
inductive StepCase (s t : State) : Prop
  | waiting (hq : s.seq = .ready) (hr : s.hreq = []) (ht : t = s)
  | illegal (req : List Byte) (rest : List (List Byte)) (e : DecodeError) (hq : s.seq = .ready)
      (hr : s.hreq = req :: rest) (hd : decodeRequest req = .error e) (ht : t = s.takeRequest.illegalRequest)
  | request (req : List Byte) (rest : List (List Byte)) (i : Instr) (hq : s.seq = .ready) (hr : s.hreq = req :: rest)
      (hd : decodeRequest req = .ok i) (h : ReadyCase i s.takeRequest t)
  | position (op : Instr) (k : Nat) (m : Micro) (hq : s.seq = .running op k) (hm : (body s.cfg op)[k]? = some m)
      (h : PrimCase op k m s t)
  | exhausted (op : Instr) (k : Nat) (hq : s.seq = .running op k) (hk : (body s.cfg op).length ≤ k)
      (hb : hasBody op = true) (ht : t = s.finish .ok [])
  | aborted (op : Instr) (k : Nat) (hq : s.seq = .aborting op k) (ht : t = s.abort)

theorem step_next (s t : State) (h : step s = .next t) : StepCase s t := by
  cases hq : s.seq with
  | ready =>
    cases hr : s.hreq with
    | nil => rw [step_waiting s hq hr] at h; cases h; exact .waiting hq hr rfl
    | cons req rest =>
      cases hd : decodeRequest req with
      | error e => rw [step_illegal s req rest e hq hr hd] at h; cases h; exact .illegal req rest e hq hr hd rfl
      | ok i =>
        rw [step_request s req rest i hq hr hd] at h
        exact .request req rest i hq hr hd (exec_ready_next i _ t (by simpa using hq) h)
  | running op k =>
    cases hm : (body s.cfg op)[k]? with
    | some m => rw [step_running s op k m hq hm] at h; exact .position op k m hq hm (perform_next op k m s t h)
    | none =>
      have hk : (body s.cfg op).length ≤ k := List.getElem?_eq_none_iff.1 hm
      have hc : commandAt s.cfg op k = none := by simp [commandAt, hm]
      have hs : exec op s = .next t := by rw [← h]; simp [step, hq, currentAt, hc]
      have hp : performAt op k s = .next (s.finish .ok []) := by simp [performAt, hm]
      cases op <;> first
        | (simp [exec, execDraw, execSetpix, execGetpix, execReadbuf, immediate, hq] at hs; done)
        | (simp [exec, execPsr, execPwr, execPon, execBtst, execDslp, execDtm1, execDsp, execDrf, execDtm2, execPll,
            execCdi, execTres, execVdcs, transaction, hq, hc] at hs; done)
        | (simp [exec, execReset, execInit, execDisplay, execShow, execClear, execSleep, execWake, execFill, sequenced,
            hq, hp] at hs
           exact .exhausted _ k hq hk rfl hs.symm)
  | aborting op k =>
    have hs : exec (currentAt s.cfg op k) s = .next t := by rw [← h]; simp [step, hq]
    refine .aborted op k hq ?_
    unfold currentAt at hs
    cases hc : commandAt s.cfg op k with
    | some c => rw [hc] at hs; rw [exec_command_aborting c s op k hq hc] at hs; cases hs; rfl
    | none =>
      rw [hc] at hs
      cases op <;> first
        | (simp [exec, execDraw, execSetpix, execGetpix, execReadbuf, immediate, hq] at hs; done)
        | (simp [exec, execPsr, execPwr, execPon, execBtst, execDslp, execDtm1, execDsp, execDrf, execDtm2, execPll,
            execCdi, execTres, execVdcs, transaction, hq, hc] at hs; done)
        | (simp [exec, execReset, execInit, execDisplay, execShow, execClear, execSleep, execWake, execFill, sequenced,
            hq] at hs
           exact hs.symm)

/-! ### A run through a straight piece of a body -/

/-- The state after a straight piece of a body, the sequencer apart. -/
def State.play (s : State) (ms : List Micro) : State := ms.foldl (fun s m => (s.effect m.prim).acts m.after) s

/-- Every primitive of the piece goes on. -/
def State.Straight (s : State) : List Micro → Prop
  | [] => True
  | m :: ms => s.goesOn m.prim ∧ State.Straight ((s.effect m.prim).acts m.after) ms

@[simp] theorem State.play_nil (s : State) : s.play [] = s := rfl
@[simp] theorem State.play_cons (s : State) (m : Micro) (ms : List Micro) :
    s.play (m :: ms) = ((s.effect m.prim).acts m.after).play ms := rfl
theorem State.play_append (s : State) (ms ns : List Micro) : s.play (ms ++ ns) = (s.play ms).play ns := by
  simp [State.play, List.foldl_append]

theorem State.straight_append (s : State) (ms ns : List Micro) :
    s.Straight (ms ++ ns) ↔ s.Straight ms ∧ (s.play ms).Straight ns := by
  induction ms generalizing s with
  | nil => simp [State.Straight]
  | cons m ms ih => simp [State.Straight, ih, and_assoc]

@[simp] theorem State.effect_cfg (s : State) (p : Prim) : (s.effect p).cfg = s.cfg := by cases p <;> simp [State.effect]

@[simp] theorem State.play_cfg (s : State) (ms : List Micro) : (s.play ms).cfg = s.cfg := by
  induction ms generalizing s with
  | nil => rfl
  | cons m ms ih => simp [ih]

/-- A primitive that goes on: its effect, then `advance`. -/
theorem perform_goesOn (op : Instr) (k : Nat) (m : Micro) (s : State) (h : s.goesOn m.prim) :
    perform op k m s = .next (advance op k m (s.effect m.prim)) := by
  unfold perform
  cases hp : m.prim with
  | drive p v => rfl
  | hold ms => rfl
  | write src =>
    simp only [hp, State.goesOn] at h
    obtain ⟨bs, hbs⟩ := Option.isSome_iff_exists.1 h.1
    simp [hbs, transfer, h.2, State.effect]
  | sample =>
    simp only [hp, State.goesOn] at h
    simp [poll, h, State.effect]
  | memWrite a bs => rfl
  | memReadAll =>
    simp only [hp, State.goesOn] at h
    obtain ⟨bs, hbs⟩ := Option.isSome_iff_exists.1 h
    simp [hbs, State.effect]

theorem State.effect_setSeq (s : State) (q : Seq) (p : Prim) : (s.setSeq q).effect p = (s.effect p).setSeq q := by
  cases p with
  | drive p v => exact drive_setSeq s q p v
  | write src => exact busWrite_setSeq s q _
  | sample => exact busSample_setSeq s q
  | hold _ => rfl
  | memWrite _ _ => rfl
  | memReadAll => rfl

theorem State.acts_setSeq (s : State) (q : Seq) (as : List Action) : (s.setSeq q).acts as = (s.acts as).setSeq q := by
  induction as generalizing s with
  | nil => rfl
  | cons a as ih =>
    have : (s.setSeq q).act a = (s.act a).setSeq q := by cases a <;> rfl
    rw [State.acts_cons, State.acts_cons, this, ih]

theorem State.play_setSeq (s : State) (q : Seq) (ms : List Micro) : (s.setSeq q).play ms = (s.play ms).setSeq q := by
  induction ms generalizing s with
  | nil => rfl
  | cons m ms ih => simp only [State.play_cons, State.effect_setSeq, State.acts_setSeq, ih]

theorem State.straight_setSeq (s : State) (q : Seq) (ms : List Micro) :
    (s.setSeq q).Straight ms ↔ s.Straight ms := by
  induction ms generalizing s with
  | nil => rfl
  | cons m ms ih =>
    have : (s.setSeq q).goesOn m.prim ↔ s.goesOn m.prim := by cases m.prim <;> rfl
    simp only [State.Straight, this, State.effect_setSeq, State.acts_setSeq, ih]

@[simp] theorem State.setSeq_setSeq (s : State) (q r : Seq) : (s.setSeq q).setSeq r = s.setSeq r := rfl

@[simp] theorem State.finish_setSeq (s : State) (q : Seq) (r : Result) (d : List Byte) :
    (s.setSeq q).finish r d = s.finish r d := rfl

/-- One step more of a run. -/
theorem core_run_succ (n : Nat) (s t : State) (h : step s = .next t) : core.run (n + 1) s = core.run n t := by
  have h' : core.step s = .next t := h
  simp only [Host.Core.run, h']

theorem core_run_zero (s : State) : core.run 0 s = .next s := rfl

/-- A straight piece inside a body takes as many steps as it has positions. -/
theorem run_play (op : Instr) (ms : List Micro) : ∀ (s : State) (k : Nat) (pre post : List Micro),
    s.seq = .running op k → body s.cfg op = pre ++ ms ++ post → pre.length = k → post ≠ [] → s.Straight ms →
    core.run ms.length s = .next ((s.play ms).setSeq (.running op (k + ms.length))) := by
  induction ms with
  | nil =>
    intro s k pre post hq _ _ _ _
    have : s.setSeq s.seq = s := rfl
    simp only [List.length_nil, Nat.add_zero, State.play_nil, ← hq, this]
    rfl
  | cons m ms ih =>
    intro s k pre post hq hb hk hpost hs
    have hm : (body s.cfg op)[k]? = some m := by rw [hb]; simp [← hk]
    have hlen : k + 1 < (body s.cfg op).length := by
      rw [hb]; have := List.length_pos_iff.2 hpost; simp; omega
    have h1 : step s = .next (((s.effect m.prim).acts m.after).setSeq (.running op (k + 1))) := by
      rw [step_running s op k m hq hm, perform_goesOn op k m s hs.1]
      simp [advance, hlen]
    have h2 := ih (((s.effect m.prim).acts m.after).setSeq (.running op (k + 1))) (k + 1) (pre ++ [m]) post rfl
      (by simp [hb]) (by simp [hk]) hpost ((State.straight_setSeq _ _ _).2 hs.2)
    rw [List.length_cons, core_run_succ _ _ _ h1]
    simp only [h2, State.play_setSeq, State.setSeq_setSeq, State.play_cons]
    congr 3; omega

/-- A straight piece that ends a body ends the operation with `STATUS` OK. -/
theorem run_play_end (op : Instr) (ms : List Micro) : ∀ (s : State) (k : Nat) (pre : List Micro),
    s.seq = .running op k → body s.cfg op = pre ++ ms → pre.length = k → ms ≠ [] → s.Straight ms →
    core.run ms.length s = .next ((s.play ms).finish .ok []) := by
  induction ms with
  | nil => intro s k pre _ _ _ h; exact absurd rfl h
  | cons m ms ih =>
    intro s k pre hq hb hk _ hs
    have hm : (body s.cfg op)[k]? = some m := by rw [hb]; simp [← hk]
    have h1 := step_running s op k m hq hm
    rw [perform_goesOn op k m s hs.1] at h1
    rw [List.length_cons, core_run_succ _ _ _ h1]
    cases ms with
    | nil =>
      have hlen : ¬ k + 1 < (body s.cfg op).length := by rw [hb]; simp; omega
      simp [advance, hlen, core_run_zero]
    | cons n ms =>
      have hlen : k + 1 < (body s.cfg op).length := by rw [hb]; simp; omega
      have h2 := ih (((s.effect m.prim).acts m.after).setSeq (.running op (k + 1))) (k + 1) (pre ++ [m]) rfl
        (by simp [hb]) (by simp [hk]) (by simp) ((State.straight_setSeq _ _ _).2 hs.2)
      simp only [advance, State.effect_cfg, hlen, if_true]
      rw [h2, State.play_setSeq, State.finish_setSeq]
      rfl

/-- Runs compose. -/
theorem core_run_add (m n : Nat) (s t : State) (h : core.run m s = .next t) : core.run (m + n) s = core.run n t := by
  induction m generalizing s with
  | zero =>
    simp only [Host.Core.run] at h
    cases h
    simp
  | succ m ih =>
    rw [Nat.succ_add]
    simp only [Host.Core.run] at h ⊢
    split at h
    · next s' hs => exact ih s' h
    · cases h
    · cases h

end Sys2Proof.Machine
end

