-- ==== Sys2Proof/Laws/Bodies.lean ====
section
/-! SUPPORT. The bodies, taken apart: how lists of positions compose, and a way to prove a fact about every position of a
body together with what the positions before it have done. -/

namespace Sys2Proof.Machine

/-! ### andThen, thenWait -/

@[simp] theorem andThen_nil (as : List Action) : andThen [] as = [] := rfl

@[simp] theorem andThen_single (m : Micro) (as : List Action) : andThen [m] as = [{ m with after := m.after ++ as }] :=
  rfl

@[simp] theorem andThen_cons_cons (m n : Micro) (ms : List Micro) (as : List Action) :
    andThen (m :: n :: ms) as = m :: andThen (n :: ms) as := rfl

theorem andThen_append (ms : List Micro) (m : Micro) (as : List Action) :
    andThen (ms ++ [m]) as = ms ++ [{ m with after := m.after ++ as }] := by
  induction ms with
  | nil => rfl
  | cons n ms ih =>
    cases ms with
    | nil => rfl
    | cons o ms => simpa using ih

@[simp] theorem andThen_length (ms : List Micro) (as : List Action) : (andThen ms as).length = ms.length := by
  induction ms with
  | nil => rfl
  | cons n ms ih =>
    cases ms with
    | nil => rfl
    | cons o ms => simpa using ih

/-- Register writes after a non-empty list are played after it. -/
theorem State.play_andThen (s : State) (ms : List Micro) (as : List Action) (h : ms ≠ []) :
    s.play (andThen ms as) = (s.play ms).acts as := by
  obtain ⟨ns, n, rfl⟩ := List.eq_nil_or_concat ms |>.resolve_left h
  rw [List.concat_eq_append, andThen_append, State.play_append, State.play_append]
  simp [State.acts, List.foldl_append]

/-- Register writes that follow the last position do not change whether a piece goes on. -/
theorem State.straight_andThen (s : State) (ms : List Micro) (as : List Action) :
    s.Straight (andThen ms as) ↔ s.Straight ms := by
  rcases List.eq_nil_or_concat ms with rfl | ⟨ns, n, rfl⟩
  · rfl
  · rw [List.concat_eq_append, andThen_append, State.straight_append, State.straight_append]
    simp [State.Straight]

/-! ### Lengths -/

@[simp] theorem sendData_length (cmd : Option Command) (src : Source) : (sendData cmd src).length = 4 := rfl

@[simp] theorem commandPhase_length (c : Cfg) (m : Command) : (commandPhase c m).length = 5 := rfl

theorem payloadPhase_cons (m : Command) (p : Byte) (ps : List Byte) :
    payloadPhase m (p :: ps) = sendData (some m) (.bytes (p :: ps)) := rfl

theorem payloadPhase_of_ne (m : Command) (ps : List Byte) (h : ps ≠ []) :
    payloadPhase m ps = sendData (some m) (.bytes ps) := by
  cases ps with
  | nil => exact absurd rfl h
  | cons p ps => rfl

/-! ### A fact about every position, with what came before it -/

/-- `P` holds at every position, of the accumulated state before it. -/
def Walk {α : Type} (f : α → Micro → α) (P : α → Micro → Prop) : α → List Micro → Prop
  | _, [] => True
  | a, m :: ms => P a m ∧ Walk f P (f a m) ms

theorem walk_append {α : Type} (f : α → Micro → α) (P : α → Micro → Prop) (a : α) (ms ns : List Micro) :
    Walk f P a (ms ++ ns) ↔ Walk f P a ms ∧ Walk f P (ms.foldl f a) ns := by
  induction ms generalizing a with
  | nil => simp [Walk]
  | cons m ms ih => simp [Walk, ih, and_assoc]

theorem walk_get {α : Type} (f : α → Micro → α) (P : α → Micro → Prop) (a : α) (ms : List Micro) (k : Nat) (m : Micro)
    (h : Walk f P a ms) (hk : ms[k]? = some m) : P ((ms.take k).foldl f a) m := by
  induction ms generalizing a k with
  | nil => simp at hk
  | cons n ms ih =>
    cases k with
    | zero => simp at hk; subst hk; exact h.1
    | succ k => exact ih _ k h.2 (by simpa using hk)

/-- The accumulated state one position further on. -/
theorem foldl_take_succ {α : Type} (f : α → Micro → α) (a : α) (ms : List Micro) (k : Nat) (m : Micro)
    (hk : ms[k]? = some m) : (ms.take (k + 1)).foldl f a = f ((ms.take k).foldl f a) m := by
  rw [List.take_add_one, hk]
  simp [List.foldl_append]

/-- Walking a repeated piece that leads back to where it began. -/
theorem walk_flatMap {α β : Type} (f : α → Micro → α) (P : α → Micro → Prop) (a : α) (g : β → List Micro)
    (l : List β) (h : ∀ b ∈ l, Walk f P a (g b) ∧ (g b).foldl f a = a) :
    Walk f P a (l.flatMap g) ∧ (l.flatMap g).foldl f a = a := by
  induction l with
  | nil => simp [Walk]
  | cons b l ih =>
    have hb := h b (by simp)
    have hl := ih (fun b hb => h b (by simp [hb]))
    simp only [List.flatMap_cons, walk_append, List.foldl_append, hb.2]
    exact ⟨⟨hb.1, hl.1⟩, hl.2⟩

theorem memWrites_eq (v : Byte) (a n : Nat) :
    memWrites v a n = (List.range' a n).map (fun b => micro none (.memWrite b [v])) := by
  induction n generalizing a with
  | zero => rfl
  | succ n ih => rw [memWrites, ih, List.range'_succ, List.map_cons]

theorem fillLoop_map (c : Cfg) (v : Byte) :
    fillLoop c v = (List.range (nbuf c)).map (fun a => micro none (.memWrite a [v])) := by
  simp [fillLoop, memWrites_eq, List.range_eq_range']

theorem fillLoop_eq (c : Cfg) (v : Byte) :
    fillLoop c v = (List.range (nbuf c)).flatMap (fun a => [micro none (.memWrite a [v])]) := by
  simp [fillLoop_map, List.map_eq_flatMap]

theorem clearBody_eq (c : Cfg) :
    clearBody c = sendCommand c .dtm1 ++
      (List.range (nbuf c)).flatMap (fun _ => sendData none (.bytes [whiteByte])) := by
  have h : ∀ (n : Nat) (l : List Micro), (List.replicate n l).flatten = (List.range n).flatMap (fun _ => l) := by
    intro n l
    rw [List.flatMap_def]
    congr 1
    simp [List.map_const']
  simp [clearBody, h]

/-! ### What every position of every body knows -/

/-- The levels the positions so far last drove, and the value of `STATE` they have led to. -/
structure Track where
  cs : Option Bit
  dc : Option Bit
  rst : Option Bit
  ctrl : Ctrl

/-- One position further on. -/
def Track.next (t : Track) (m : Micro) : Track :=
  match m.prim with
  | .drive .csN v => { t with cs := some v, ctrl := m.after.foldl ctrlAct t.ctrl }
  | .drive .dc v => { t with dc := some v, ctrl := m.after.foldl ctrlAct t.ctrl }
  | .drive .rstN v => { t with rst := some v, ctrl := m.after.foldl ctrlAct t.ctrl }
  | .hold _ | .write _ | .sample | .memWrite _ _ | .memReadAll => { t with ctrl := m.after.foldl ctrlAct t.ctrl }

/-- Before any position, with the value of `STATE` at the first. -/
def Track.start (c : Ctrl) : Track := { cs := none, dc := none, rst := none, ctrl := c }

/-- The source of a write gives at least one byte. -/
def Source.nonEmpty : Source → Prop
  | .bytes s => s ≠ []
  | .buffer _ n => 0 < n

/-- The register writes at a position make no transition of `STATE` but those of R45. -/
def Track.moves (t : Track) (m : Micro) : Prop :=
  m.after.foldl ctrlAct t.ctrl = t.ctrl ∨
    (t.ctrl, m.after.foldl ctrlAct t.ctrl) ∈ [(Ctrl.resetting, Ctrl.uninitialized), (.resetting, .initializing),
      (.initializing, .idle), (.idle, .busy), (.busy, .idle), (.idle, .sleeping)]

/-- What holds at a position, given what the positions before it did; `Q` is asked of the source of
every data phase. -/
def Track.Fits (c : Cfg) (Q : Source → Prop) (t : Track) (m : Micro) : Prop :=
  t.moves m ∧
  match m.prim with
  | .drive _ _ | .hold _ | .memReadAll => True
  | .write src => t.rst ≠ some false ∧ (t.ctrl = .initializing ∨ t.ctrl = .idle) ∧
      ((t.dc = some false ∧ ∃ m : Command, src = .bytes [c.opc.code m]) ∨ (t.dc = some true ∧ Q src))
  | .sample => t.cs ≠ some false ∧ t.rst ≠ some false ∧ (t.ctrl = .initializing ∨ t.ctrl = .idle ∨ t.ctrl = .busy)
  | .memWrite a bs => a + bs.length ≤ nbuf c

/-- What holds at the end of a body. -/
def Track.Ends (t : Track) : Prop := t.cs ≠ some false ∧ t.rst ≠ some false ∧ t.ctrl.stable = true

/-- A piece that fits from `t` and leads to `u`. -/
def Leads (c : Cfg) (Q : Source → Prop) (t : Track) (ms : List Micro) (u : Track) : Prop :=
  Walk Track.next (Track.Fits c Q) t ms ∧ ms.foldl Track.next t = u

theorem leads_append (c : Cfg) (Q : Source → Prop) (t u v : Track) (ms ns : List Micro) (h₁ : Leads c Q t ms u) (h₂ : Leads c Q u ns v) :
    Leads c Q t (ms ++ ns) v := by
  obtain ⟨w₁, e₁⟩ := h₁
  obtain ⟨w₂, e₂⟩ := h₂
  exact ⟨(walk_append _ _ _ _ _).2 ⟨w₁, by rw [e₁]; exact w₂⟩, by rw [List.foldl_append, e₁, e₂]⟩

theorem leads_nil (c : Cfg) (Q : Source → Prop) (t : Track) : Leads c Q t [] t := ⟨trivial, rfl⟩

/-- A transaction leaves CS_N high and DC at its last phase, and `STATE` to what follows. -/
theorem leads_sendCommand (c : Cfg) (Q : Source → Prop) (hQ : ∀ s, s ≠ [] → Q (.bytes s)) (m : Command) (t : Track) (as : List Action) (hr : t.rst ≠ some false)
    (hc : t.ctrl = .initializing ∨ t.ctrl = .idle)
    (ha : ∀ u : Track, u.ctrl = t.ctrl → u.moves { prim := .drive .csN true, cmd := some m, after := as }) :
    Leads c Q t (andThen (sendCommand c m) as)
      { t with cs := some true, dc := some (payload c m != []), ctrl := as.foldl ctrlAct t.ctrl } := by
  unfold sendCommand
  have ha' := ha { t with cs := some false, dc := some false } rfl
  have ha'' := ha { t with cs := some false, dc := some true } rfl
  cases hp : payload c m with
  | nil =>
    refine ⟨?_, by simp [payloadPhase, commandPhase, micro, Track.next]⟩
    simp only [payloadPhase, commandPhase, micro, List.append_nil, andThen_cons_cons, andThen_single, List.nil_append]
    refine ⟨⟨Or.inl rfl, trivial⟩, ⟨Or.inl rfl, trivial⟩, ⟨Or.inl rfl, trivial⟩, ⟨Or.inl rfl, ?_⟩, ⟨?_, trivial⟩, trivial⟩
    · exact ⟨hr, hc, Or.inl ⟨rfl, m, rfl⟩⟩
    · exact ha'
  | cons p ps =>
    refine ⟨?_, by simp [payloadPhase, commandPhase, sendData, micro, Track.next]⟩
    simp only [payloadPhase, commandPhase, sendData, micro, List.cons_append, List.nil_append, andThen_cons_cons,
      andThen_single]
    refine ⟨⟨Or.inl rfl, trivial⟩, ⟨Or.inl rfl, trivial⟩, ⟨Or.inl rfl, trivial⟩, ⟨Or.inl rfl, ?_⟩, ⟨Or.inl rfl, trivial⟩,
      ⟨Or.inl rfl, trivial⟩, ⟨Or.inl rfl, trivial⟩, ⟨Or.inl rfl, ?_⟩, ⟨?_, trivial⟩, trivial⟩
    · exact ⟨hr, hc, Or.inl ⟨rfl, m, rfl⟩⟩
    · exact ⟨hr, hc, Or.inr ⟨rfl, hQ _ (by simp)⟩⟩
    · exact ha''

@[simp] theorem andThen_none (ms : List Micro) : andThen ms [] = ms := by
  induction ms with
  | nil => rfl
  | cons n ms ih =>
    cases ms with
    | nil => simp
    | cons o ms => rw [andThen_cons_cons, ih]

theorem andThen_andThen (ms : List Micro) (as bs : List Action) :
    andThen (andThen ms as) bs = andThen ms (as ++ bs) := by
  rcases List.eq_nil_or_concat ms with rfl | ⟨ns, n, rfl⟩
  · rfl
  · rw [List.concat_eq_append, andThen_append, andThen_append, andThen_append]
    simp

/-- A transaction with nothing after it. -/
theorem leads_plain (c : Cfg) (Q : Source → Prop) (hQ : ∀ s, s ≠ [] → Q (.bytes s)) (m : Command) (t : Track) (hr : t.rst ≠ some false)
    (hc : t.ctrl = .initializing ∨ t.ctrl = .idle) :
    Leads c Q t (sendCommand c m) { t with cs := some true, dc := some (payload c m != []) } := by
  have := leads_sendCommand c Q hQ m t [] hr hc (fun u hu => Or.inl rfl)
  simpa using this

/-- A data phase leaves CS_N and DC high. -/
theorem leads_sendData (c : Cfg) (Q : Source → Prop) (cmd : Option Command) (src : Source) (t : Track) (hr : t.rst ≠ some false)
    (hc : t.ctrl = .initializing ∨ t.ctrl = .idle) (hs : Q src) :
    Leads c Q t (sendData cmd src) { t with cs := some true, dc := some true } :=
  ⟨⟨⟨Or.inl rfl, trivial⟩, ⟨Or.inl rfl, trivial⟩, ⟨Or.inl rfl, hr, hc, Or.inr ⟨rfl, hs⟩⟩, ⟨Or.inl rfl, trivial⟩, trivial⟩,
    rfl⟩

/-- Data phases from a state with CS_N high keep it high. -/
theorem leads_dataPhases {β : Type} (c : Cfg) (Q : Source → Prop) (g : β → Source) (l : List β) (t : Track) (hr : t.rst ≠ some false)
    (hc : t.ctrl = .initializing ∨ t.ctrl = .idle) (hs : ∀ b ∈ l, Q (g b)) (hcs : t.cs = some true) :
    ∃ d, Leads c Q t (l.flatMap (fun b => sendData none (g b))) { t with dc := d } := by
  induction l generalizing t with
  | nil => exact ⟨t.dc, leads_nil c Q t⟩
  | cons b l ih =>
    have h1 := leads_sendData c Q none (g b) t hr hc (hs b (by simp))
    obtain ⟨d, h2⟩ := ih { t with cs := some true, dc := some true } hr hc (fun b hb => hs b (by simp [hb])) rfl
    refine ⟨d, ?_⟩
    have := leads_append c Q _ _ _ _ _ h1 h2
    simpa [hcs] using this

/-- A sample, with the register writes after it. -/
theorem leads_sample (c : Cfg) (Q : Source → Prop) (t : Track) (as : List Action) (h₁ : t.cs ≠ some false) (h₂ : t.rst ≠ some false)
    (h₃ : t.ctrl = .initializing ∨ t.ctrl = .idle ∨ t.ctrl = .busy)
    (ha : t.moves { prim := .sample, cmd := none, after := as }) :
    Leads c Q t [{ prim := .sample, cmd := none, after := as }] { t with ctrl := as.foldl ctrlAct t.ctrl } :=
  ⟨⟨⟨ha, h₁, h₂, h₃⟩, trivial⟩, rfl⟩

theorem leads_pulse (c : Cfg) (Q : Source → Prop) (t : Track) (as : List Action)
    (ha : ∀ u : Track, u.ctrl = t.ctrl → u.moves { prim := .drive .rstN true, cmd := none, after := as }) :
    Leads c Q t (andThen resetPulse as) { t with rst := some true, ctrl := as.foldl ctrlAct t.ctrl } := by
  refine ⟨?_, by simp [resetPulse, micro, Track.next]⟩
  simp only [resetPulse, micro, andThen_cons_cons, andThen_single, List.nil_append]
  exact ⟨⟨Or.inl rfl, trivial⟩, ⟨Or.inl rfl, trivial⟩, ⟨Or.inl rfl, trivial⟩, ⟨Or.inl rfl, trivial⟩,
    ⟨ha { t with rst := some false } rfl, trivial⟩, trivial⟩

theorem leads_fillLoop (c : Cfg) (Q : Source → Prop) (v : Byte) (t : Track) : Leads c Q t (fillLoop c v) t := by
  rw [fillLoop_eq]
  apply walk_flatMap
  intro a ha
  simp only [List.mem_range] at ha
  exact ⟨⟨⟨Or.inl rfl, by simpa [Track.Fits, micro] using ha⟩, trivial⟩, rfl⟩

/-- DISPLAY-body, from Idle back to Idle, over chunks that satisfy `Q`. -/
theorem leads_displayBody (c : Cfg) (Q : Source → Prop) (hQ : ∀ s, s ≠ [] → Q (.bytes s)) (chunks : List Source) (t : Track) (hr : t.rst ≠ some false) (hc : t.ctrl = .idle)
    (hs : ∀ x ∈ chunks, Q x) :
    Leads c Q t (displayBody c chunks) { t with cs := some true, dc := some false } := by
  unfold displayBody thenWait
  rw [andThen_andThen]
  obtain ⟨t₁, ht₁⟩ : ∃ t₁ : Track, t₁ = { t with cs := some true, dc := some false } := ⟨_, rfl⟩
  have h1 : Leads c Q t (sendCommand c .dtm2) t₁ := by rw [ht₁]; exact leads_plain c Q hQ .dtm2 t hr (Or.inr hc)
  obtain ⟨d, h2⟩ := leads_dataPhases c Q (fun x => x) chunks t₁ (by rw [ht₁]; exact hr) (by rw [ht₁]; exact Or.inr hc)
    (fun x hx => hs x hx) (by rw [ht₁])
  have h3 : Leads c Q { t₁ with dc := d } (sendCommand c .dsp) t₁ := by
    rw [ht₁]; exact leads_plain c Q hQ .dsp _ hr (Or.inr hc)
  have h4 : Leads c Q t₁ (andThen (sendCommand c .drf) ([.setCtrl .busy] ++ [.clearPolls])) { t₁ with ctrl := .busy } := by
    rw [ht₁]
    refine leads_sendCommand c Q hQ .drf _ _ hr (Or.inr hc) (fun u hu => Or.inr ?_)
    rw [hu]
    simp [ctrlAct, hc]
  have h5 : Leads c Q { t₁ with ctrl := .busy } [{ prim := .sample, cmd := none, after := [.setCtrl .idle] }]
      { t with cs := some true, dc := some false } := by
    rw [ht₁]
    have := leads_sample c Q { t with cs := some true, dc := some false, ctrl := .busy } [.setCtrl .idle] (by simp) hr
      (Or.inr (Or.inr rfl)) (Or.inr (by simp [ctrlAct]))
    simpa [ctrlAct, hc] using this
  exact leads_append c Q _ _ _ _ _ (leads_append c Q _ _ _ _ _ (leads_append c Q _ _ _ _ _ h1 h2) h3)
    (leads_append c Q _ _ _ _ _ h4 h5)

theorem chunksFrom_nonEmpty (a : Nat) (lens : List Nat) (h : ∀ n ∈ lens, 0 < n) :
    ∀ x ∈ chunksFrom a lens, x.nonEmpty := by
  induction lens generalizing a with
  | nil => simp [chunksFrom]
  | cons n lens ih =>
    intro x hx
    simp only [chunksFrom, List.mem_cons] at hx
    rcases hx with rfl | hx
    · exact h n (by simp)
    · exact ih (a + n) (fun n hn => h n (by simp [hn])) x hx

/-- INIT's body leads from Resetting to Idle, whatever BLANK is. -/
theorem leads_initBody (c : Cfg) (Q : Source → Prop) (hQ : ∀ s, s ≠ [] → Q (.bytes s)) (blank : Bit) (t : Track) (hc : t.ctrl = .resetting) (hch : blank = true → ∀ x ∈ bufferChunks c, Q x) :
    ∃ d, Leads c Q t (initBody c blank) { cs := some true, dc := d, rst := some true, ctrl := .idle } := by
  unfold initBody thenWait
  obtain ⟨t₀, ht₀⟩ : ∃ t₀ : Track, t₀ = { t with rst := some true, ctrl := .initializing } := ⟨_, rfl⟩
  have r₀ : t₀.rst = some true := by rw [ht₀]
  have c₀ : t₀.ctrl = .initializing := by rw [ht₀]
  have h0 : Leads c Q t (andThen resetPulse [.setCtrl .initializing]) t₀ := by
    rw [ht₀]
    refine leads_pulse c Q t [.setCtrl .initializing] (fun u hu => Or.inr ?_)
    rw [hu]
    simp [ctrlAct, hc]
  have cmd : ∀ (m : Command) (u : Track), u.rst = some true → u.ctrl = .initializing →
      Leads c Q u (sendCommand c m) (Track.mk (some true) (some (payload c m != [])) (some true) .initializing) := by
    intro m u hr hi
    have := leads_plain c Q hQ m u (by simp [hr]) (Or.inl hi)
    simpa [hr, hi] using this
  have h1 := cmd .btst t₀ r₀ c₀
  have h2 := cmd .pwr _ (rfl : (Track.mk (some true) (some (payload c .btst != [])) (some true) .initializing).rst = _) rfl
  have h3 : Leads c Q { cs := some true, dc := some (payload c .pwr != []), rst := some true, ctrl := .initializing }
      (andThen (sendCommand c .pon) [.clearPolls])
      { cs := some true, dc := some (payload c .pon != []), rst := some true, ctrl := .initializing } :=
    leads_sendCommand c Q hQ .pon _ [.clearPolls] (by simp) (Or.inl rfl) (fun u hu => Or.inl rfl)
  have h4 : Leads c Q { cs := some true, dc := some (payload c .pon != []), rst := some true, ctrl := .initializing }
      [{ prim := .sample, cmd := none, after := [] }]
      { cs := some true, dc := some (payload c .pon != []), rst := some true, ctrl := .initializing } :=
    leads_sample c Q _ [] (by simp) (by simp) (Or.inl rfl) (Or.inl rfl)
  have h5 := cmd .psr _ (rfl : (Track.mk (some true) (some (payload c .pon != [])) (some true) .initializing).rst = _) rfl
  have h6 := cmd .pll _ (rfl : (Track.mk (some true) (some (payload c .psr != [])) (some true) .initializing).rst = _) rfl
  have h7 := cmd .tres _ (rfl : (Track.mk (some true) (some (payload c .pll != [])) (some true) .initializing).rst = _) rfl
  have h8 := cmd .vdcs _ (rfl : (Track.mk (some true) (some (payload c .tres != [])) (some true) .initializing).rst = _) rfl
  have h9 : Leads c Q { cs := some true, dc := some (payload c .vdcs != []), rst := some true, ctrl := .initializing }
      (andThen (sendCommand c .cdi) [.setCtrl .idle])
      { cs := some true, dc := some (payload c .cdi != []), rst := some true, ctrl := .idle } := by
    refine leads_sendCommand c Q hQ .cdi _ [.setCtrl .idle] (by simp) (Or.inl rfl) (fun u hu => Or.inr ?_)
    rw [hu]
    simp [ctrlAct]
  have hall := leads_append c Q _ _ _ _ _ (leads_append c Q _ _ _ _ _ (leads_append c Q _ _ _ _ _ (leads_append c Q _ _ _ _ _
    (leads_append c Q _ _ _ _ _ (leads_append c Q _ _ _ _ _ (leads_append c Q _ _ _ _ _ (leads_append c Q _ _ _ _ _ h0 h1) h2)
    (leads_append c Q _ _ _ _ _ h3 h4)) h5) h6) h7) h8) h9
  cases blank with
  | false => exact ⟨_, leads_append c Q _ _ _ _ _ hall (leads_nil c Q _)⟩
  | true =>
    refine ⟨some false, leads_append c Q _ _ _ _ _ hall ?_⟩
    have f1 := leads_fillLoop c Q whiteByte { cs := some true, dc := some (payload c .cdi != []), rst := some true, ctrl := .idle }
    have f2 : Leads c Q { cs := some true, dc := some (payload c .cdi != []), rst := some true, ctrl := .idle }
        [micro none .memReadAll]
        { cs := some true, dc := some (payload c .cdi != []), rst := some true, ctrl := .idle } :=
      ⟨⟨⟨Or.inl rfl, trivial⟩, trivial⟩, rfl⟩
    have f3 := leads_displayBody c Q hQ (bufferChunks c)
      { cs := some true, dc := some (payload c .cdi != []), rst := some true, ctrl := .idle } (by simp) rfl
      (hch rfl)
    exact leads_append c Q _ _ _ _ _ (leads_append c Q _ _ _ _ _ f1 f2) f3

/-- The chunks of a host buffer of `NBUF` bytes are not empty. -/
theorem dataChunks_nonEmpty (d : List Byte) (lens : List Nat) (hlen : lens.sum ≤ d.length) (hpos : ∀ n ∈ lens, 0 < n) :
    ∀ x ∈ (split d lens).map Source.bytes, x.nonEmpty := by
  induction lens generalizing d with
  | nil => simp [split]
  | cons n lens ih =>
    intro x hx
    simp only [List.sum_cons] at hlen
    simp only [split, List.map_cons, List.mem_cons] at hx
    rcases hx with rfl | hx
    · have hn := hpos n (by simp)
      simp only [Source.nonEmpty, ne_eq, List.take_eq_nil_iff, not_or]
      exact ⟨by omega, fun h => by rw [h] at hlen; simp at hlen; omega⟩
    · exact ih (d.drop n) (by simp; omega) (fun n hn => hpos n (by simp [hn])) x hx

/-- The chunks an operation streams. -/
def streams (c : Cfg) : Instr → List Source
  | .display _ d => dataChunks c d
  | .showBuf | .init true => bufferChunks c
  | _ => []

theorem leads_clearBody (c : Cfg) (Q : Source → Prop) (hQ : ∀ s, s ≠ [] → Q (.bytes s)) (t : Track)
    (hr : t.rst ≠ some false) (hc : t.ctrl = .idle) :
    ∃ d, Leads c Q t (clearBody c) { t with cs := some true, dc := d } := by
  rw [clearBody_eq]
  have h1 := leads_plain c Q hQ .dtm1 t hr (Or.inr hc)
  obtain ⟨d, h2⟩ := leads_dataPhases c Q (fun _ => Source.bytes [whiteByte]) (List.range (nbuf c))
    { t with cs := some true, dc := some (payload c .dtm1 != []) } hr (Or.inr hc) (fun b _ => hQ _ (by simp)) rfl
  exact ⟨d, leads_append c Q _ _ _ _ _ h1 h2⟩

theorem leads_sleepBody (c : Cfg) (Q : Source → Prop) (hQ : ∀ s, s ≠ [] → Q (.bytes s)) (t : Track)
    (hr : t.rst ≠ some false) (hc : t.ctrl = .idle) :
    Leads c Q t (sleepBody c) { t with cs := some true, dc := some (payload c .dslp != []), ctrl := .sleeping } := by
  unfold sleepBody thenWait
  have h1 := leads_sendCommand c Q hQ .dslp t [.clearPolls] hr (Or.inr hc) (fun u hu => Or.inl rfl)
  have h2 := leads_sample c Q { t with cs := some true, dc := some (payload c .dslp != []) } [.setCtrl .sleeping]
    (by simp) hr (Or.inr (Or.inl hc)) (Or.inr (by simp [ctrlAct, hc]))
  exact leads_append c Q _ _ _ _ _ h1 h2

/-- Every body: each position fits, and it ends with CS_N and RST_N not low and `STATE` stable. -/
theorem body_leads (c : Cfg) (Q : Source → Prop) (hQ : ∀ s, s ≠ [] → Q (.bytes s)) (op : Instr)
    (hb : hasBody op = true) (hs : ∀ x ∈ streams c op, Q x) (t : Track) (hcs : t.cs ≠ some false)
    (hr : t.rst ≠ some false) (hc : ∀ d, entryCtrl op = some d → t.ctrl = d)
    (hst : entryCtrl op = none → t.ctrl.stable = true) : ∃ u, Leads c Q t (body c op) u ∧ u.Ends := by
  have idleFits : ∀ u : Track, u.cs = some true → u.rst = t.rst → u.ctrl = .idle → u.Ends :=
    fun u h₁ h₂ h₃ => ⟨by simp [h₁], by rw [h₂]; exact hr, by simp [h₃, Ctrl.stable]⟩
  cases op <;> first
    | (simp [hasBody] at hb; done)
    | skip
  case reset =>
    have hc' : t.ctrl = .resetting := hc _ rfl
    refine ⟨_, leads_pulse c Q t [.setCtrl .uninitialized] (fun u hu => Or.inr ?_), hcs, by simp, rfl⟩
    rw [hu]; simp [ctrlAct, hc']
  case init blank =>
    cases blank with
    | true =>
      obtain ⟨d, h⟩ := leads_initBody c Q hQ true t (hc _ rfl) (fun _ => hs)
      exact ⟨_, h, by simp, by simp, rfl⟩
    | false =>
      obtain ⟨d, h⟩ := leads_initBody c Q hQ false t (hc _ rfl) (fun h => by simp at h)
      exact ⟨_, h, by simp, by simp, rfl⟩
  case wake =>
    obtain ⟨d, h⟩ := leads_initBody c Q hQ false t (hc _ rfl) (fun h => by simp at h)
    exact ⟨_, h, by simp, by simp, rfl⟩
  case display len d =>
    exact ⟨_, leads_displayBody c Q hQ _ t hr (hc _ rfl) hs, idleFits _ rfl rfl (hc _ rfl)⟩
  case showBuf =>
    refine ⟨_, leads_append c Q t t _ [micro none .memReadAll] _ ?_ (leads_displayBody c Q hQ _ t hr (hc _ rfl) hs),
      idleFits _ rfl rfl (hc _ rfl)⟩
    exact ⟨⟨⟨Or.inl rfl, trivial⟩, trivial⟩, rfl⟩
  case clear =>
    obtain ⟨d, h⟩ := leads_clearBody c Q hQ t hr (hc _ rfl)
    exact ⟨_, h, idleFits _ rfl rfl (hc _ rfl)⟩
  case sleep =>
    exact ⟨_, leads_sleepBody c Q hQ t hr (hc _ rfl), by simp, hr, rfl⟩
  case fill v =>
    exact ⟨t, leads_fillLoop c Q v t, hcs, hr, hst rfl⟩

end Sys2Proof.Machine
end

