-- ==== Sys2Proof/Laws/Decode.lean ====
section
/-! SUPPORT. Fields and bytes: assembling the bytes of a word gives the word back, and the bytes of an assembled word are
the ones it was assembled from; and the length of a format-B request. -/

namespace Sys2Proof

theorem byteOf_getLsbD {w : Nat} (x : BitVec w) (n i : Nat) (hi : i < 8) :
    (byteOf x n).getLsbD i = x.getLsbD (8 * n + i) := by
  simp [byteOf, hi]

theorem byteOf_getLsbD_ge {w : Nat} (x : BitVec w) (n i : Nat) (hi : 8 ≤ i) : (byteOf x n).getLsbD i = false :=
  BitVec.getLsbD_of_ge _ _ hi

theorem be16_getLsbD (hi lo : Byte) (i : Nat) (h : i < 16) :
    (be16 hi lo).getLsbD i = if i < 8 then lo.getLsbD i else hi.getLsbD (i - 8) := by
  have e : ∀ b : Byte, ∀ j, 8 ≤ j → b.getLsbD j = false := fun b j hj => BitVec.getLsbD_of_ge b j hj
  simp only [be16, BitVec.getLsbD_or, BitVec.getLsbD_shiftLeft, BitVec.getLsbD_setWidth]
  by_cases h8 : i < 8
  · simp [h8, h]
  · simp [h8, h, e lo i (by omega), show i - 8 < 16 by omega]

theorem be32_getLsbD (b3 b2 b1 b0 : Byte) (i : Nat) (h : i < 32) :
    (be32 b3 b2 b1 b0).getLsbD i =
      if i < 8 then b0.getLsbD i else if i < 16 then b1.getLsbD (i - 8)
      else if i < 24 then b2.getLsbD (i - 16) else b3.getLsbD (i - 24) := by
  have e : ∀ b : Byte, ∀ j, 8 ≤ j → b.getLsbD j = false := fun b j hj => BitVec.getLsbD_of_ge b j hj
  simp only [be32, BitVec.getLsbD_or, BitVec.getLsbD_shiftLeft, BitVec.getLsbD_setWidth]
  rcases (by omega : i < 8 ∨ (8 ≤ i ∧ i < 16) ∨ (16 ≤ i ∧ i < 24) ∨ 24 ≤ i) with h8 | h8 | h8 | h8
  · simp [h8, h, show i < 16 by omega, show i < 24 by omega]
  · simp [h8, h, show ¬ i < 8 by omega, show i < 24 by omega, show i - 8 < 32 by omega]
  · simp [h8, h, show ¬ i < 8 by omega, show ¬ i < 16 by omega, e b0 i (by omega), e b1 (i - 8) (by omega),
      show i - 16 < 32 by omega]
  · simp [h, show ¬ i < 8 by omega, show ¬ i < 16 by omega, show ¬ i < 24 by omega, e b0 i (by omega),
      e b1 (i - 8) (by omega), e b2 (i - 16) (by omega), show i - 24 < 32 by omega]

theorem be16_byteOf (x : BitVec 16) : be16 (byteOf x 1) (byteOf x 0) = x := by
  refine BitVec.eq_of_getLsbD_eq (fun i hi => ?_)
  rw [be16_getLsbD _ _ _ hi]
  split
  · next h => rw [byteOf_getLsbD _ _ _ h]; congr 1; omega
  · next h => rw [byteOf_getLsbD _ _ _ (by omega)]; congr 1; omega

theorem be32_byteOf (x : BitVec 32) : be32 (byteOf x 3) (byteOf x 2) (byteOf x 1) (byteOf x 0) = x := by
  refine BitVec.eq_of_getLsbD_eq (fun i hi => ?_)
  rw [be32_getLsbD _ _ _ _ _ hi]
  split
  · next h => rw [byteOf_getLsbD _ _ _ h]; congr 1; omega
  split
  · next h => rw [byteOf_getLsbD _ _ _ (by omega)]; congr 1; omega
  split
  · next h => rw [byteOf_getLsbD _ _ _ (by omega)]; congr 1; omega
  · rw [byteOf_getLsbD _ _ _ (by omega)]; congr 1; omega

theorem byteOf_be16_hi (hi lo : Byte) : byteOf (be16 hi lo) 1 = hi := by
  refine BitVec.eq_of_getLsbD_eq (fun i h => ?_)
  rw [byteOf_getLsbD _ _ _ h, be16_getLsbD _ _ _ (by omega), if_neg (by omega)]
  congr 1; omega

theorem byteOf_be16_lo (hi lo : Byte) : byteOf (be16 hi lo) 0 = lo := by
  refine BitVec.eq_of_getLsbD_eq (fun i h => ?_)
  rw [byteOf_getLsbD _ _ _ h, be16_getLsbD _ _ _ (by omega), if_pos (by omega)]
  congr 1; omega

theorem byteOf_be32 (a b c d : Byte) :
    byteOf (be32 a b c d) 3 = a ∧ byteOf (be32 a b c d) 2 = b ∧ byteOf (be32 a b c d) 1 = c ∧
      byteOf (be32 a b c d) 0 = d := by
  refine ⟨?_, ?_, ?_, ?_⟩ <;> refine BitVec.eq_of_getLsbD_eq (fun i h => ?_) <;>
    rw [byteOf_getLsbD _ _ _ h, be32_getLsbD _ _ _ _ _ (by omega)]
  · rw [if_neg (by omega), if_neg (by omega), if_neg (by omega)]; congr 1; omega
  · rw [if_neg (by omega), if_neg (by omega), if_pos (by omega)]; congr 1; omega
  · rw [if_neg (by omega), if_pos (by omega)]; congr 1; omega
  · rw [if_pos (by omega)]; congr 1; omega

/-- The length read from a format-B request is the length it has (R102). -/
theorem requestLength_encodeB (op : Byte) (len : BitVec 32) (data : List Byte) (hop : op = 0x03 ∨ op = 0x08)
    (h : data.length = len.toNat) : requestLength (encodeB op len data) = some (encodeB op len data).length := by
  have hb := be32_byteOf len
  rcases hop with rfl | rfl <;> simp [requestLength, encodeB, hb, h] <;> omega

end Sys2Proof
end

