-- ==== Sys2Proof/Laws/Memory.lean ====
section
/-! SUPPORT. The laws of memory and of the pixel buffer: a read after a write, and that every operation keeps the
canonical form. -/

namespace Sys2Proof.Machine

/-! ### Memory: read after write -/

@[simp] theorem Memory.read_nil (a : Nat) : Memory.read [] a = Memory.unlisted := rfl

theorem Memory.read_cons (b : Nat) (v : Byte) (m : Memory) (a : Nat) :
    Memory.read ((b, v) :: m) a = if b = a then v else Memory.read m a := rfl

theorem Memory.read_insert (m : Memory) (a b : Nat) (v : Byte) :
    (Memory.insert m a v).read b = if a = b then v else m.read b := by
  induction m with
  | nil => simp [Memory.insert, Memory.read]
  | cons e m ih =>
    obtain ⟨d, u⟩ := e
    simp only [Memory.insert]
    split
    · simp only [Memory.read_cons]
    · split
      · next h => subst h; simp only [Memory.read_cons]; split <;> rfl
      · next h =>
        simp only [Memory.read_cons, ih]
        split
        · next hd => subst hd; rw [if_neg h]
        · rfl

theorem Memory.read_erase (m : Memory) (a b : Nat) :
    Memory.read (m.filter (fun e => e.1 != a)) b = if a = b then Memory.unlisted else m.read b := by
  induction m with
  | nil => simp [Memory.read]
  | cons e m ih =>
    obtain ⟨d, u⟩ := e
    by_cases hd : d = a
    · subst hd
      simp only [List.filter_cons, bne_self_eq_false, Bool.false_eq_true, if_false, ih, Memory.read_cons]
      split <;> rfl
    · simp only [List.filter_cons, bne_iff_ne, ne_eq, hd, not_false_iff, if_true, Memory.read_cons, ih]
      split
      · next h => subst h; rw [if_neg (fun h => hd h.symm)]
      · rfl

/-- What a write does to every read. -/
theorem Memory.read_write (m : Memory) (a b : Nat) (v : Byte) :
    (m.write a v).read b = if a = b then v else m.read b := by
  unfold Memory.write
  split
  · next h => rw [Memory.read_erase, h]
  · exact Memory.read_insert m a b v

@[simp] theorem Memory.read_write_same (m : Memory) (a : Nat) (v : Byte) : (m.write a v).read a = v := by
  rw [Memory.read_write, if_pos rfl]

theorem Memory.read_write_other (m : Memory) (a b : Nat) (v : Byte) (h : a ≠ b) : (m.write a v).read b = m.read b := by
  rw [Memory.read_write, if_neg h]

/-! ### Memory: the canonical form is kept -/

theorem Memory.all_insert (p : Host.Cell → Bool) (m : Memory) (a : Nat) (v : Byte) (h : m.all p = true)
    (hp : p (a, v) = true) : (Memory.insert m a v).all p = true := by
  induction m with
  | nil => simpa [Memory.insert] using hp
  | cons e m ih =>
    simp only [List.all_cons, Bool.and_eq_true] at h
    simp only [Memory.insert]
    split
    · simp [hp, h]
    · split
      · simp [hp, h]
      · simp [ih h.2, h.1]

theorem Memory.all_write (p : Host.Cell → Bool) (m : Memory) (a : Nat) (v : Byte) (h : m.all p = true)
    (hp : p (a, v) = true) : (m.write a v).all p = true := by
  unfold Memory.write
  split
  · simp only [List.all_eq_true, List.mem_filter] at h ⊢
    exact fun e he => h e he.1
  · exact Memory.all_insert p m a v h hp

theorem Memory.wf_cons (a : Nat) (v : Byte) (m : Memory) :
    Memory.wf ((a, v) :: m) = true ↔
      v ≠ Memory.unlisted ∧ m.all (fun e => a < e.1) = true ∧ Memory.wf m = true := by
  simp [Memory.wf, and_assoc]

theorem Memory.wf_insert (m : Memory) (a : Nat) (v : Byte) (hv : v ≠ Memory.unlisted) (h : m.wf = true) :
    (Memory.insert m a v).wf = true := by
  induction m with
  | nil => simp [Memory.insert, Memory.wf, hv]
  | cons e m ih =>
    obtain ⟨d, u⟩ := e
    rw [Memory.wf_cons] at h
    obtain ⟨hu, hlt, hm⟩ := h
    simp only [Memory.insert]
    split
    · next had =>
      rw [Memory.wf_cons]
      refine ⟨hv, ?_, (Memory.wf_cons d u m).2 ⟨hu, hlt, hm⟩⟩
      simp only [List.all_cons, Bool.and_eq_true, decide_eq_true_eq]
      refine ⟨had, ?_⟩
      simp only [List.all_eq_true, decide_eq_true_eq] at hlt ⊢
      exact fun e he => lt_trans had (hlt e he)
    · split
      · next had => subst had; exact (Memory.wf_cons a v m).2 ⟨hv, hlt, hm⟩
      · next h₁ h₂ =>
        rw [Memory.wf_cons]
        refine ⟨hu, Memory.all_insert _ m a v hlt ?_, ih hm⟩
        simp only [decide_eq_true_eq]; omega

theorem Memory.wf_filter (p : Host.Cell → Bool) (m : Memory) (h : m.wf = true) : Memory.wf (m.filter p) = true := by
  induction m with
  | nil => rfl
  | cons e m ih =>
    obtain ⟨d, u⟩ := e
    rw [Memory.wf_cons] at h
    rw [List.filter_cons]
    split
    · rw [Memory.wf_cons]
      refine ⟨h.1, ?_, ih h.2.2⟩
      have := h.2.1
      simp only [List.all_eq_true, List.mem_filter] at this ⊢
      exact fun e he => this e he.1
    · exact ih h.2.2

/-- Every write keeps the canonical form. -/
theorem Memory.wf_write (m : Memory) (a : Nat) (v : Byte) (h : m.wf = true) : (m.write a v).wf = true := by
  unfold Memory.write
  split
  · exact Memory.wf_filter _ m h
  · next hv => exact Memory.wf_insert m a v hv h

theorem Memory.mem_insert (m : Memory) (a : Nat) (v : Byte) (h : m.wf = true) (e : Host.Cell)
    (he : e ∈ Memory.insert m a v) : e = (a, v) ∨ (e ∈ m ∧ e.1 ≠ a) := by
  induction m with
  | nil => simpa [Memory.insert] using he
  | cons d m ih =>
    obtain ⟨b, u⟩ := d
    rw [Memory.wf_cons] at h
    have hlt := h.2.1
    simp only [List.all_eq_true, decide_eq_true_eq] at hlt
    simp only [Memory.insert] at he
    split at he
    · next hab =>
      rcases List.mem_cons.1 he with rfl | he
      · exact Or.inl rfl
      · refine Or.inr ⟨he, ?_⟩
        rcases List.mem_cons.1 he with rfl | he
        · exact Nat.ne_of_gt hab
        · have := hlt e he; omega
    · split at he
      · next hab =>
        rcases List.mem_cons.1 he with rfl | he
        · exact Or.inl rfl
        · have := hlt e he
          exact Or.inr ⟨List.mem_cons_of_mem _ he, by omega⟩
      · next hab =>
        rcases List.mem_cons.1 he with rfl | he
        · exact Or.inr ⟨List.mem_cons_self, fun h => hab h.symm⟩
        · rcases ih h.2.2 he with h | h
          · exact Or.inl h
          · exact Or.inr ⟨List.mem_cons_of_mem _ h.1, h.2⟩

/-- What is listed after a write: the written byte, or an older entry of another address. -/
theorem Memory.mem_write (m : Memory) (a : Nat) (v : Byte) (h : m.wf = true) (e : Host.Cell) (he : e ∈ m.write a v) :
    e = (a, v) ∨ (e ∈ m ∧ e.1 ≠ a) := by
  unfold Memory.write at he
  split at he
  · simp only [List.mem_filter, bne_iff_ne, ne_eq] at he
    exact Or.inr he
  · exact Memory.mem_insert m a v h e he

/-! ### The pixel buffer: read after write -/

theorem PixelBuffer.readByte_writeByte (p : PixelBuffer) (a b : Nat) (v : Byte) :
    (p.writeByte a v).readByte b = if a = b then some v else p.readByte b := by
  unfold PixelBuffer.readByte PixelBuffer.writeByte
  simp only [Memory.read_write]
  split <;> simp

theorem PixelBuffer.readPixel_writeByte (p : PixelBuffer) (a b i : Nat) (v : Byte) (hi : i < 8) :
    (p.writeByte a v).readPixel b i = if a = b then some (v.getLsbD i) else p.readPixel b i := by
  unfold PixelBuffer.readPixel PixelBuffer.writeByte
  simp only [Memory.read_write]
  split
  · have : (0xFF : Byte).getLsbD i = true := by interval_cases i <;> decide
    rw [if_pos this]
  · rfl

theorem bitMask_bit (i j : Nat) (hj : j < 8) : (bitMask i).getLsbD j = decide (i = j) := by
  unfold bitMask
  simp only [BitVec.getLsbD_shiftLeft, hj, decide_true, Bool.true_and]
  by_cases h : j < i
  · have : ¬ i = j := by omega
    simp [h, this]
  · by_cases hij : i = j
    · subst hij; simp
    · have : ¬ j - i = 0 := by omega
      simp [h, hij, this]

theorem PixelBuffer.readPixel_writePixel (p : PixelBuffer) (a b i j : Nat) (v : Bit) (hj : j < 8) :
    (p.writePixel a i v).readPixel b j = if a = b ∧ i = j then some v else p.readPixel b j := by
  unfold PixelBuffer.readPixel PixelBuffer.writePixel
  simp only [Memory.read_write]
  by_cases hab : a = b
  · subst hab
    by_cases hij : i = j
    · subst hij; cases v <;> simp [bitMask_bit i i hj, hj]
    · have hb : (bitMask i).getLsbD j = false := by rw [bitMask_bit i j hj]; simpa using hij
      cases v <;> simp only [BitVec.getLsbD_or, BitVec.getLsbD_and, BitVec.getLsbD_not, hb, hij, Bool.or_false,
        Bool.not_false, Bool.and_true, and_false, if_false, if_true, hj, decide_true, Bool.false_eq_true]
  · simp [hab]

@[simp] theorem PixelBuffer.readBytes_zero (p : PixelBuffer) (a : Nat) : p.readBytes a 0 = some [] := rfl

theorem PixelBuffer.readBytes_length (p : PixelBuffer) (a n : Nat) (d : List Byte) (h : p.readBytes a n = some d) :
    d.length = n := by
  induction n generalizing a d with
  | zero => simp at h; simp [← h]
  | succ n ih =>
    simp only [PixelBuffer.readBytes] at h
    split at h
    · next vs _ hvs => cases h; simp [ih _ _ hvs]
    · cases h

theorem PixelBuffer.readBytes_congr (p q : PixelBuffer) (a n : Nat)
    (h : ∀ b, a ≤ b → b < a + n → p.readByte b = q.readByte b) : p.readBytes a n = q.readBytes a n := by
  induction n generalizing a with
  | zero => rfl
  | succ n ih =>
    simp only [PixelBuffer.readBytes]
    rw [h a (le_refl a) (by omega), ih (a + 1) (fun b h₁ h₂ => h b (by omega) (by omega))]

theorem PixelBuffer.readByte_writeBytes_below (p : PixelBuffer) (a b : Nat) (d : List Byte) (h : b < a) :
    (p.writeBytes a d).readByte b = p.readByte b := by
  induction d generalizing p a with
  | nil => rfl
  | cons v d ih =>
    rw [PixelBuffer.writeBytes, ih _ _ (by omega), PixelBuffer.readByte_writeByte, if_neg (by omega)]

/-- Reading what was just written gives it back. -/
theorem PixelBuffer.readBytes_writeBytes (p : PixelBuffer) (a : Nat) (d : List Byte) :
    (p.writeBytes a d).readBytes a d.length = some d := by
  induction d generalizing p a with
  | nil => rfl
  | cons v d ih =>
    simp only [List.length_cons, PixelBuffer.readBytes, PixelBuffer.writeBytes]
    rw [PixelBuffer.readByte_writeBytes_below _ _ _ _ (by omega), PixelBuffer.readByte_writeByte, if_pos rfl, ih]

theorem PixelBuffer.readByte_writeBytes_above (p : PixelBuffer) (a b : Nat) (d : List Byte) (h : a + d.length ≤ b) :
    (p.writeBytes a d).readByte b = p.readByte b := by
  induction d generalizing p a with
  | nil => rfl
  | cons v d ih =>
    simp only [List.length_cons] at h
    rw [PixelBuffer.writeBytes, ih _ _ (by omega), PixelBuffer.readByte_writeByte, if_neg (by omega)]

/-! ### The pixel buffer: the invariant is kept -/

theorem PixelBuffer.wf_iff (n : Nat) (p : PixelBuffer) :
    p.wf n = true ↔ p.written.wf = true ∧ p.value.wf = true ∧ p.written.all (fun e => e.1 < n) = true ∧
      p.value.all (fun e => e.2 &&& ~~~p.written.read e.1 == 0) = true := by
  simp [PixelBuffer.wf, and_assoc]

theorem PixelBuffer.wf_empty (n : Nat) : PixelBuffer.wf n { written := [], value := [] } = true := rfl

theorem and_not_of_or (v w m : Byte) (h : v &&& ~~~w = 0) : v &&& ~~~(w ||| m) = 0 := by
  apply BitVec.eq_of_getLsbD_eq
  intro i hi
  have := congrArg (fun x => x.getLsbD i) h
  simp only [BitVec.getLsbD_or, BitVec.getLsbD_and, BitVec.getLsbD_not, hi, decide_true, Bool.true_and] at this ⊢
  revert this
  cases v.getLsbD i <;> cases w.getLsbD i <;> cases m.getLsbD i <;> simp

theorem or_and_not_of_or (v w m : Byte) (h : v &&& ~~~w = 0) : (v ||| m) &&& ~~~(w ||| m) = 0 := by
  apply BitVec.eq_of_getLsbD_eq
  intro i hi
  have := congrArg (fun x => x.getLsbD i) h
  simp only [BitVec.getLsbD_or, BitVec.getLsbD_and, BitVec.getLsbD_not, hi, decide_true, Bool.true_and] at this ⊢
  revert this
  cases v.getLsbD i <;> cases w.getLsbD i <;> cases m.getLsbD i <;> simp

theorem andnot_and_not_of_or (v w m : Byte) (h : v &&& ~~~w = 0) : (v &&& ~~~m) &&& ~~~(w ||| m) = 0 := by
  apply BitVec.eq_of_getLsbD_eq
  intro i hi
  have := congrArg (fun x => x.getLsbD i) h
  simp only [BitVec.getLsbD_or, BitVec.getLsbD_and, BitVec.getLsbD_not, hi, decide_true, Bool.true_and] at this ⊢
  revert this
  cases v.getLsbD i <;> cases w.getLsbD i <;> cases m.getLsbD i <;> simp

/-- The value of an address is 0 wherever it was not written. -/
theorem PixelBuffer.value_masked (n : Nat) (p : PixelBuffer) (h : p.wf n = true) (a : Nat) :
    p.value.read a &&& ~~~p.written.read a = 0 := by
  rw [PixelBuffer.wf_iff] at h
  have hv := h.2.2.2
  revert hv
  generalize p.value = m
  induction m with
  | nil => intro _; simp [Memory.unlisted]
  | cons e m ih =>
    obtain ⟨b, u⟩ := e
    intro hv
    simp only [List.all_cons, Bool.and_eq_true, beq_iff_eq] at hv
    rw [Memory.read_cons]
    split
    · next hb => subst hb; exact hv.1
    · exact ih hv.2

/-- Any write of a byte and its mask that keeps the value under the mask keeps the invariant. -/
theorem PixelBuffer.wf_update (n : Nat) (p : PixelBuffer) (a : Nat) (w v : Byte) (h : p.wf n = true) (ha : a < n)
    (hw : v &&& ~~~w = 0) :
    PixelBuffer.wf n { written := p.written.write a w, value := p.value.write a v } = true := by
  rw [PixelBuffer.wf_iff] at h ⊢
  obtain ⟨h₁, h₂, h₃, h₄⟩ := h
  refine ⟨Memory.wf_write _ _ _ h₁, Memory.wf_write _ _ _ h₂, Memory.all_write _ _ _ _ h₃ (by simpa using ha), ?_⟩
  simp only [List.all_eq_true, beq_iff_eq] at h₄ ⊢
  intro e he
  rcases Memory.mem_write _ _ _ h₂ e he with rfl | ⟨hm, hne⟩
  · rw [Memory.read_write_same]; exact hw
  · rw [Memory.read_write, if_neg (fun h => hne h.symm)]; exact h₄ e hm

theorem PixelBuffer.wf_writeByte (n : Nat) (p : PixelBuffer) (a : Nat) (v : Byte) (h : p.wf n = true) (ha : a < n) :
    (p.writeByte a v).wf n = true :=
  PixelBuffer.wf_update n p a 0xFF v h ha (by
    apply BitVec.eq_of_getLsbD_eq; intro i hi
    have : (0xFF : Byte).getLsbD i = true := by interval_cases i <;> decide
    simp only [BitVec.getLsbD_and, BitVec.getLsbD_not, this]; simp)

theorem PixelBuffer.wf_writeBytes (n : Nat) (p : PixelBuffer) (a : Nat) (d : List Byte) (h : p.wf n = true)
    (ha : a + d.length ≤ n) : (p.writeBytes a d).wf n = true := by
  induction d generalizing p a with
  | nil => exact h
  | cons v d ih =>
    simp only [List.length_cons] at ha
    exact ih _ _ (PixelBuffer.wf_writeByte n p a v h (by omega)) (by omega)

theorem PixelBuffer.wf_writePixel (n : Nat) (p : PixelBuffer) (a i : Nat) (v : Bit) (h : p.wf n = true) (ha : a < n) :
    (p.writePixel a i v).wf n = true := by
  have hm := PixelBuffer.value_masked n p h a
  unfold PixelBuffer.writePixel
  apply PixelBuffer.wf_update n p a _ _ h ha
  cases v
  · exact andnot_and_not_of_or _ _ _ hm
  · exact or_and_not_of_or _ _ _ hm

end Sys2Proof.Machine
end

