-- ==== Sys2Proof/Laws/PerInstr.lean ====
section
/-! SUPPORT. A statement about each instruction as syntax, one lemma for each constructor. -/

/-- R102: the length of a host request is read from its first bytes, and the words of a well-formed instruction have that
length; a controller command is one command-phase byte (R97). -/
def Sys2Proof.Laws.FormatLength.Statement (i : Sys2Proof.Instr) : Prop :=
  i.wellFormed = true → ∀ t : Sys2Proof.Opc,
    match Sys2Proof.encode t i with
    | (.request, bytes) => Sys2Proof.requestLength bytes = some bytes.length
    | (.command, bytes) => bytes.length = 1

namespace Sys2Proof.Laws

theorem FormatLength.reset : FormatLength.Statement (.reset) :=
  fun _ _ => rfl

theorem FormatLength.init (blank : Bit) : FormatLength.Statement (.init blank) :=
  fun _ _ => rfl

theorem FormatLength.display (len : BitVec 32) (data : List Byte) : FormatLength.Statement (.display len data) := by
  intro h t
  exact requestLength_encodeB _ len data (by decide) (by simpa [Instr.wellFormed] using h)

theorem FormatLength.showBuf : FormatLength.Statement (.showBuf) :=
  fun _ _ => rfl

theorem FormatLength.clear : FormatLength.Statement (.clear) :=
  fun _ _ => rfl

theorem FormatLength.sleep : FormatLength.Statement (.sleep) :=
  fun _ _ => rfl

theorem FormatLength.wake : FormatLength.Statement (.wake) :=
  fun _ _ => rfl

theorem FormatLength.draw (len : BitVec 32) (data : List Byte) : FormatLength.Statement (.draw len data) := by
  intro h t
  exact requestLength_encodeB _ len data (by decide) (by simpa [Instr.wellFormed] using h)

theorem FormatLength.fill (val : Byte) : FormatLength.Statement (.fill val) :=
  fun _ _ => rfl

theorem FormatLength.setpix (x : BitVec 16) (y : BitVec 16) (v : Bit) : FormatLength.Statement (.setpix x y v) :=
  fun _ _ => rfl

theorem FormatLength.getpix (x : BitVec 16) (y : BitVec 16) : FormatLength.Statement (.getpix x y) :=
  fun _ _ => rfl

theorem FormatLength.readbuf : FormatLength.Statement (.readbuf) :=
  fun _ _ => rfl

theorem FormatLength.psr : FormatLength.Statement (.psr) :=
  fun _ _ => rfl

theorem FormatLength.pwr : FormatLength.Statement (.pwr) :=
  fun _ _ => rfl

theorem FormatLength.pon : FormatLength.Statement (.pon) :=
  fun _ _ => rfl

theorem FormatLength.btst : FormatLength.Statement (.btst) :=
  fun _ _ => rfl

theorem FormatLength.dslp : FormatLength.Statement (.dslp) :=
  fun _ _ => rfl

theorem FormatLength.dtm1 : FormatLength.Statement (.dtm1) :=
  fun _ _ => rfl

theorem FormatLength.dsp : FormatLength.Statement (.dsp) :=
  fun _ _ => rfl

theorem FormatLength.drf : FormatLength.Statement (.drf) :=
  fun _ _ => rfl

theorem FormatLength.dtm2 : FormatLength.Statement (.dtm2) :=
  fun _ _ => rfl

theorem FormatLength.pll : FormatLength.Statement (.pll) :=
  fun _ _ => rfl

theorem FormatLength.cdi : FormatLength.Statement (.cdi) :=
  fun _ _ => rfl

theorem FormatLength.tres : FormatLength.Statement (.tres) :=
  fun _ _ => rfl

theorem FormatLength.vdcs : FormatLength.Statement (.vdcs) :=
  fun _ _ => rfl

end Sys2Proof.Laws
end

