-- ==== Sys2Proof/Laws/Play.lean ====
section
/-! SUPPORT. What a transaction, a data phase and the reset pulse leave, played through with a transport that answers ok. -/

namespace Sys2Proof.Machine

/-! ### Answers -/

theorem State.answersAfter_zero (s : State) : s.answersAfter 0 = s.answerIn := by simp [State.answersAfter]

/-- Fewer answers are ok too. -/
theorem State.answersOk_le (s : State) (m n : Nat) (h : s.answersOk n = true) (hmn : m ≤ n) : s.answersOk m = true := by
  unfold State.answersOk at *
  cases hf : s.cfg.transportCanFail with
  | false => simp
  | true =>
    simp only [hf, Bool.not_true, Bool.false_or, beq_iff_eq] at h ⊢
    rw [← Nat.min_eq_left hmn, ← List.take_take, h]
    simp [List.take_replicate]

/-- A write that is answered ok. -/
theorem State.busWrite_ok (s : State) (bs : List Byte) (h : s.answersOk 1 = true) :
    s.nextAnswer = .ok ∧
      s.busWrite bs = { s with answerIn := s.answersAfter 1, trace := s.trace ++ [.write bs .ok] } := by
  unfold State.answersOk at h
  cases hf : s.cfg.transportCanFail with
  | false =>
    have : s.nextAnswer = .ok := by simp [State.nextAnswer, hf]
    exact ⟨this, by simp [State.busWrite, this, State.takeAnswer, State.answersAfter, hf, State.emit]⟩
  | true =>
    simp only [hf, Bool.not_true, Bool.false_or, beq_iff_eq] at h
    cases ha : s.answerIn with
    | nil => simp [ha] at h
    | cons r rs =>
      simp only [ha, List.take_succ_cons, List.take_zero, List.replicate_one, List.cons.injEq, and_true] at h
      have : s.nextAnswer = .ok := by simp [State.nextAnswer, hf, ha, h]
      exact ⟨this, by simp [State.busWrite, this, State.takeAnswer, State.answersAfter, hf, ha, State.emit]⟩

/-- The answers left for later are ok. -/
theorem State.answersOk_drop (s t : State) (m n : Nat) (hc : t.cfg = s.cfg) (ha : t.answerIn = s.answersAfter m)
    (h : s.answersOk (m + n) = true) : t.answersOk n = true := by
  unfold State.answersOk at *
  rw [hc]
  cases hf : s.cfg.transportCanFail with
  | false => simp
  | true =>
    simp only [hf, Bool.not_true, Bool.false_or, beq_iff_eq] at h ⊢
    have := congrArg (List.drop m) h
    simpa [ha, State.answersAfter, hf, List.drop_take] using this

theorem State.answersAfter_add (s t : State) (m n : Nat) (hc : t.cfg = s.cfg) (ha : t.answerIn = s.answersAfter m) :
    t.answersAfter n = s.answersAfter (m + n) := by
  unfold State.answersAfter at *
  rw [hc, ha]
  cases hf : s.cfg.transportCanFail <;> simp

/-! ### Pieces -/

/-- A data phase (R131). -/
theorem State.play_sendData (s : State) (cmd : Option Command) (src : Source) (bs : List Byte)
    (hg : src.get s.pb = some bs) (h : s.answersOk 1 = true) :
    s.Straight (sendData cmd src) ∧
      s.play (sendData cmd src) =
        { s with csN := .driven true, dc := .driven true, answerIn := s.answersAfter 1,
                 trace := s.trace ++ dataEvents bs } := by
  obtain ⟨h1, h2⟩ := State.busWrite_ok ((s.drive .dc true).drive .csN false) bs h
  have hg' : src.get ((s.drive .dc true).drive .csN false).pb = some bs := hg
  have he : ((s.drive .dc true).drive .csN false).effect (.write src) =
      ((s.drive .dc true).drive .csN false).busWrite bs := by simp only [State.effect, hg', Option.getD_some]
  refine ⟨⟨trivial, trivial, ⟨by simpa [Option.isSome_iff_exists] using ⟨bs, hg⟩, h1⟩, trivial, trivial⟩, ?_⟩
  show (((s.drive .dc true).drive .csN false).effect (.write src)).drive .csN true = _
  rw [he, h2]
  simp [State.drive, State.setPin, State.emit, dataEvents, State.answersAfter]

/-- The command phase of a transaction (R130). -/
theorem State.play_commandPhase (s : State) (c : Command) (h : s.answersOk 1 = true) :
    s.Straight (commandPhase s.cfg c) ∧
      s.play (commandPhase s.cfg c) =
        { s with csN := .driven true, dc := .driven false, answerIn := s.answersAfter 1,
                 trace := s.trace ++ phaseEvents (s.cfg.opc.code c) } := by
  obtain ⟨h1, h2⟩ := State.busWrite_ok (((s.drive .csN true).drive .dc false).drive .csN false) [s.cfg.opc.code c] h
  refine ⟨⟨trivial, trivial, trivial, ⟨rfl, h1⟩, trivial, trivial⟩, ?_⟩
  show ((((s.drive .csN true).drive .dc false).drive .csN false).busWrite [s.cfg.opc.code c]).drive .csN true = _
  rw [h2]
  simp [State.drive, State.setPin, State.emit, phaseEvents, State.answersAfter]

/-- A whole transaction (R130, R131). -/
theorem State.play_sendCommand (s : State) (c : Command)
    (h : s.answersOk (if payload s.cfg c = [] then 1 else 2) = true) :
    s.Straight (sendCommand s.cfg c) ∧
      s.play (sendCommand s.cfg c) =
        { s with csN := .driven true, dc := .driven (payload s.cfg c != []),
                 answerIn := s.answersAfter (if payload s.cfg c = [] then 1 else 2),
                 trace := s.trace ++ commandEvents (s.cfg.opc.code c) (payload s.cfg c) } := by
  have h0 : s.answersOk 1 = true := s.answersOk_le _ _ h (by split <;> omega)
  obtain ⟨a1, a2⟩ := s.play_commandPhase c h0
  unfold sendCommand
  rw [State.straight_append, State.play_append, a2]
  cases hp : payload s.cfg c with
  | nil => exact ⟨⟨a1, trivial⟩, by simp [payloadPhase, commandEvents]⟩
  | cons p ps =>
    rw [hp] at h
    obtain ⟨t, ht⟩ : ∃ t : State, t = { s with csN := .driven true, dc := .driven false, answerIn := s.answersAfter 1,
                                                trace := s.trace ++ phaseEvents (s.cfg.opc.code c) } := ⟨_, rfl⟩
    have tc : t.cfg = s.cfg := by rw [ht]
    have ta : t.answerIn = s.answersAfter 1 := by rw [ht]
    obtain ⟨b1, b2⟩ := State.play_sendData t (some c) (.bytes (p :: ps)) (p :: ps) rfl
      (State.answersOk_drop s t 1 1 tc ta h)
    rw [payloadPhase_cons, ← ht, b2, State.answersAfter_add s t 1 1 tc ta]
    exact ⟨⟨a1, b1⟩, by simp [commandEvents, ht]⟩

/-- The reset pulse (R161). -/
theorem State.play_resetPulse (s : State) :
    s.Straight resetPulse ∧
      s.play resetPulse = { s with rstN := .driven true, trace := s.trace ++ pulseEvents } := by
  refine ⟨⟨trivial, trivial, trivial, trivial, trivial, trivial⟩, ?_⟩
  simp [resetPulse, micro, State.play, State.effect, State.acts, State.drive, State.setPin, State.emit, pulseEvents,
    tRstHi, tRstLo]

end Sys2Proof.Machine
end

