-- ==== Sys2Proof/Laws/Track.lean ====
section
/-! SUPPORT. What a position of a body knows, read at a state: `STATE` and the pins after the positions performed so far,
and what the track of Laws/Bodies.lean says of the position itself. -/

namespace Sys2Proof.Machine

/-! ### STATE -/

theorem track_ctrl (t : Track) (ms : List Micro) : (ms.foldl Track.next t).ctrl = ctrlAfter t.ctrl ms := by
  induction ms generalizing t with
  | nil => rfl
  | cons m ms ih =>
    have : (t.next m).ctrl = m.after.foldl ctrlAct t.ctrl := by unfold Track.next; split <;> rfl
    rw [List.foldl_cons, ih, this]
    rfl

theorem State.acts_ctrl (s : State) (as : List Action) : (s.acts as).ctrl = as.foldl ctrlAct s.ctrl := by
  induction as generalizing s with
  | nil => rfl
  | cons a as ih => rw [State.acts_cons, ih]; cases a <;> rfl

@[simp] theorem State.effect_ctrl (s : State) (p : Prim) : (s.effect p).ctrl = s.ctrl := by
  cases p <;> simp [State.effect]

theorem ctrlAfter_succ (c : Ctrl) (ms : List Micro) (k : Nat) (m : Micro) (hk : ms[k]? = some m) :
    ctrlAfter c (ms.take (k + 1)) = m.after.foldl ctrlAct (ctrlAfter c (ms.take k)) := by
  unfold ctrlAfter
  rw [List.take_add_one, hk]
  simp [List.foldl_append]

/-! ### The pins -/

/-- The level a track holds for a pin. -/
def Track.pin (t : Track) : Pin → Option Bit
  | .csN => t.cs
  | .dc => t.dc
  | .rstN => t.rst

/-- What one position does to the level last driven on a pin. -/
def pinStep (p : Pin) (v : Option Bit) (m : Micro) : Option Bit :=
  match m.prim with
  | .drive q b => if q = p then some b else v
  | .hold _ | .write _ | .sample | .memWrite _ _ | .memReadAll => v

theorem pinAfter_eq (p : Pin) (ms : List Micro) : pinAfter p ms = ms.foldl (pinStep p) none := rfl

theorem track_pin (t : Track) (p : Pin) (ms : List Micro) :
    (ms.foldl Track.next t).pin p = ms.foldl (pinStep p) (t.pin p) := by
  induction ms generalizing t with
  | nil => rfl
  | cons m ms ih =>
    rw [List.foldl_cons, List.foldl_cons, ih]
    congr 1
    unfold Track.next pinStep
    cases m.prim with
    | drive q b => cases q <;> cases p <;> rfl
    | _ => cases p <;> rfl

theorem pinAfter_succ (p : Pin) (ms : List Micro) (k : Nat) (m : Micro) (hk : ms[k]? = some m) :
    pinAfter p (ms.take (k + 1)) = pinStep p (pinAfter p (ms.take k)) m := by
  rw [pinAfter_eq, pinAfter_eq, List.take_add_one, hk]
  simp [List.foldl_append]

@[simp] theorem State.acts_pin (s : State) (as : List Action) (p : Pin) : (s.acts as).pin p = s.pin p := by
  induction as generalizing s with
  | nil => rfl
  | cons a as ih => rw [State.acts_cons, ih]; cases a <;> cases p <;> rfl

theorem State.effect_drive_pin (s : State) (q p : Pin) (v : Bit) :
    (s.effect (.drive q v)).pin p = if q = p then .driven v else s.pin p := by cases q <;> cases p <;> rfl

theorem State.effect_pin (s : State) (x : Prim) (p : Pin) (h : ∀ q v, x ≠ .drive q v) : (s.effect x).pin p = s.pin p := by
  cases x with
  | drive q v => exact absurd rfl (h q v)
  | _ => cases p <;> simp [State.effect, State.pin]

theorem pinFits_congr (s t : State) (p : Pin) (ms : List Micro) (h : s.pin p = t.pin p) :
    pinFits s p ms ↔ pinFits t p ms := by unfold pinFits; rw [h]

/-- A pin that is not last driven low, and fits, is not low. -/
theorem pinFits_not_low (s : State) (p : Pin) (hp : p ≠ .dc) (ms : List Micro) (h : pinFits s p ms)
    (h' : pinAfter p ms ≠ some false) : s.pin p ≠ .driven false := by
  unfold pinFits at h
  split at h
  · next v hv => rw [h]; intro e; cases e; exact h' hv
  · exact h hp

/-! ### The track of an operation's body -/

/-- The track before the first position of an operation's body. -/
def Track.of (op : Instr) : Track := Track.start ((entryCtrl op).getD .idle)

theorem body_leads_of (c : Cfg) (Q : Source → Prop) (hQ : ∀ s, s ≠ [] → Q (.bytes s)) (op : Instr)
    (hb : hasBody op = true) (hs : ∀ x ∈ streams c op, Q x) :
    ∃ u, Leads c Q (Track.of op) (body c op) u ∧ u.Ends := by
  refine body_leads c Q hQ op hb hs _ (by simp [Track.of, Track.start]) (by simp [Track.of, Track.start]) ?_ ?_
  · intro d h; simp [Track.of, Track.start, h]
  · intro h; simp [Track.of, Track.start, h, Ctrl.stable]

/-- What holds at a position of a body. -/
theorem body_fits (c : Cfg) (Q : Source → Prop) (hQ : ∀ s, s ≠ [] → Q (.bytes s)) (op : Instr) (k : Nat) (m : Micro)
    (hs : ∀ x ∈ streams c op, Q x) (hm : (body c op)[k]? = some m) :
    Track.Fits c Q (((body c op).take k).foldl Track.next (Track.of op)) m := by
  obtain ⟨u, h, -⟩ := body_leads_of c Q hQ op (hasBody_of_get _ _ _ _ hm) hs
  exact walk_get _ _ _ _ _ _ h.1 hm

/-- The operations that begin with the reset pulse are those whose first primitive is made in Resetting. -/
theorem recovers_iff (op : Instr) : recovers op = true ↔ entryCtrl op = some .resetting := by
  cases op <;> simp [recovers, entryCtrl]

/-- The register writes of the pixel loop: none. -/
theorem after_of_no_entry (c : Cfg) (op : Instr) (k : Nat) (m : Micro) (hd : entryCtrl op = none)
    (hm : (body c op)[k]? = some m) : m.after = [] := by
  have hb := hasBody_of_get _ _ _ _ hm
  cases op <;> simp_all [hasBody, entryCtrl, body, fillLoop_map, micro]
  obtain ⟨a, -, rfl⟩ := hm
  rfl

end Sys2Proof.Machine
end

