-- ==== Sys2Proof/Machine/Assembler.lean ====
section
/-! DEFINITION. The host program syntax and the pseudo-instructions (30_encoding.md R104, R106), for writing the requests
a host issues. A program is read as characters, one request a line (log 20). -/

namespace Sys2Proof.Machine

/-- The pseudo-instructions (R106). -/
inductive Pseudo where
  | fillw
  | fillb
  | showbuf (data : List Byte)
  | reinit
  deriving DecidableEq, Repr

/-- DISPLAY or DRAW of the given bytes: `L` is their count (R104). -/
def countOf (data : List Byte) : BitVec 32 := BitVec.ofNat 32 data.length

/-- The expansion of a pseudo-instruction (R106). -/
def Pseudo.expand : Pseudo → List Instr
  | .fillw => [.fill 0xFF]
  | .fillb => [.fill 0x00]
  | .showbuf data => [.draw (countOf data) data, .showBuf]
  | .reinit => [.reset, .init false]

/-- The pieces of a line. -/
inductive Token where
  | word (s : List Char)
  | comma
  | opening
  | closing
  deriving DecidableEq, Repr

/-- The word collected so far (in reverse), as a token. -/
def flushWord : List Char → List Token
  | [] => []
  | acc => [.word acc.reverse]

/-- Cut a line into tokens; `--` starts a comment (R104). -/
def tokens : List Char → List Char → List Token
  | [], acc => flushWord acc
  | '-' :: '-' :: _, acc => flushWord acc
  | ' ' :: cs, acc => flushWord acc ++ tokens cs []
  | '\t' :: cs, acc => flushWord acc ++ tokens cs []
  | '\r' :: cs, acc => flushWord acc ++ tokens cs []
  | ',' :: cs, acc => flushWord acc ++ .comma :: tokens cs []
  | '<' :: cs, acc => flushWord acc ++ .opening :: tokens cs []
  | '>' :: cs, acc => flushWord acc ++ .closing :: tokens cs []
  | ch :: cs, acc => tokens cs (ch :: acc)

/-- The value of a digit, decimal or hex. -/
def digitValue (ch : Char) : Option Nat :=
  if '0' ≤ ch ∧ ch ≤ '9' then some (ch.toNat - 48)
  else if 'A' ≤ ch ∧ ch ≤ 'F' then some (ch.toNat - 55)
  else if 'a' ≤ ch ∧ ch ≤ 'f' then some (ch.toNat - 87)
  else none

/-- The value of a run of digits in a base, after the value read so far. -/
def digits (base : Nat) : Nat → List Char → Option Nat
  | n, [] => some n
  | n, ch :: cs =>
    match digitValue ch with
    | some d => if d < base then digits base (n * base + d) cs else none
    | none => none

/-- A number: decimal, or hex with a `0x` prefix (R104). -/
def number : List Char → Option Nat
  | [] => none
  | '0' :: 'x' :: ch :: cs => digits 16 0 (ch :: cs)
  | ch :: cs => digits 10 0 (ch :: cs)

/-- A number below `2^w`, as a field. -/
def field (w : Nat) (s : List Char) : Option (BitVec w) :=
  match number s with
  | some n => if n < 2 ^ w then some (BitVec.ofNat w n) else none
  | none => none

/-- A pixel value: 0 or 1. -/
def pixelField (s : List Char) : Option Bit :=
  match number s with
  | some 0 => some false
  | some 1 => some true
  | _ => none

/-- A byte inside the angle brackets: hex digits without a prefix (R104). -/
def hexByte : List Char → Option Byte
  | [a] => (digits 16 0 [a]).map (BitVec.ofNat 8)
  | [a, b] => (digits 16 0 [a, b]).map (BitVec.ofNat 8)
  | _ => none

/-- The bytes up to the closing bracket, which ends the line. -/
def hexBytes : List Token → Option (List Byte)
  | [.closing] => some []
  | .word w :: ts =>
    match hexByte w, hexBytes ts with
    | some b, some bs => some (b :: bs)
    | _, _ => none
  | _ => none

/-- The requests of a line with no operand. -/
def plainLine (w : List Char) : Option (List Instr) :=
  if w = "RESET".toList then some [.reset]
  else if w = "INIT".toList then some [.init false]
  else if w = "SHOW".toList then some [.showBuf]
  else if w = "CLEAR".toList then some [.clear]
  else if w = "SLEEP".toList then some [.sleep]
  else if w = "WAKE".toList then some [.wake]
  else if w = "READBUF".toList then some [.readbuf]
  else if w = "FILLW".toList then some (Pseudo.fillw).expand
  else if w = "FILLB".toList then some (Pseudo.fillb).expand
  else if w = "REINIT".toList then some (Pseudo.reinit).expand
  else none

/-- The requests of a line whose operand is a byte string in angle brackets. -/
def bufferLine (w : List Char) (data : List Byte) : Option (List Instr) :=
  if w = "DISPLAY".toList then some [.display (countOf data) data]
  else if w = "DRAW".toList then some [.draw (countOf data) data]
  else if w = "SHOWBUF".toList then some (Pseudo.showbuf data).expand
  else none

/-- The requests a line stands for (R104, R106); nothing for a line that is none of its forms. -/
def parseLine : List Token → Option (List Instr)
  | [] => some []
  | [.word w] => plainLine w
  | .word w :: .opening :: ts => (hexBytes ts).bind (bufferLine w)
  | [.word w, .word a] =>
    if w = "INIT".toList then (if a = "BLANK".toList then some [.init true] else none)
    else if w = "FILL".toList then (field 8 a).map (fun v => [.fill v])
    else none
  | [.word w, .word a, .comma, .word b] =>
    if w = "GETPIX".toList then
      match field 16 a, field 16 b with
      | some x, some y => some [.getpix x y]
      | _, _ => none
    else none
  | [.word w, .word a, .comma, .word b, .comma, .word d] =>
    if w = "SETPIX".toList then
      match field 16 a, field 16 b, pixelField d with
      | some x, some y, some v => some [.setpix x y v]
      | _, _, _ => none
    else none
  | _ => none

/-- The lines of a text. -/
def textLines : List Char → List Char → List (List Char)
  | [], acc => [acc.reverse]
  | '\n' :: cs, acc => acc.reverse :: textLines cs []
  | ch :: cs, acc => textLines cs (ch :: acc)

/-- The operations of a list of lines. -/
def assembleLines : List (List Char) → Option (List Instr)
  | [] => some []
  | l :: ls =>
    match parseLine (tokens l []), assembleLines ls with
    | some i, some is => some (i ++ is)
    | _, _ => none

/-- The operations of a program text (R104). -/
def assemble (text : String) : Option (List Instr) := assembleLines (textLines text.toList [])

/-- The requests a host issues to run a list of operations (R90). -/
def requestsOf (t : Opc) (is : List Instr) : List (List Byte) := is.map (fun i => (encode t i).2)

/-- The host's next requests are those of a program (log 5). -/
def State.loadProgram (s : State) (is : List Instr) : State := { s with hreq := s.hreq ++ requestsOf s.cfg.opc is }

end Sys2Proof.Machine
end

