-- ==== Sys2Proof/Tests/Slice0.lean ====
section
/-! SUPPORT. Tests. Expected results are those of 95_test_vectors.md (V1 to V63) or written out by hand from the rule named;
a test runs one step on a small state. The last part gives, for each statement with hypotheses, values that meet them. -/

namespace Sys2Proof.Tests

open Sys2Proof.Machine

/-! ### Small states -/

/-- Configuration S of 95_test_vectors.md (16 × 2) with a timeout, a transport that can fail and two chunks. -/
def smallCfg : Cfg :=
  { width := 16, height := 2, idleLevel := true, busyTimeout := some 3, transportCanFail := true, chunking := [1, 3],
    opc := Opc.reference, pPwr := [1, 2, 3, 4, 5], pPsr := [6], pPll := [7], pVdcs := [8], pCdi := [9],
    pDslp := [0xA5] }

/-- The block just constructed, with answers and levels scripted. -/
def fresh : State :=
  { State.initial smallCfg with answerIn := List.replicate 30 .ok, busyIn := [false, true, true, false] }

/-- The block in Idle, the pins high and `PB` holding AA 55 00 FF. -/
def idle : State :=
  { fresh with ctrl := .idle, csN := .driven true, dc := .driven true, rstN := .driven true,
               pb := ({ written := [], value := [] } : PixelBuffer).writeBytes 0 [0xAA, 0x55, 0x00, 0xFF] }

/-- A host that asks for one thing. -/
def asks (s : State) (req : List Byte) : State := { s with hreq := [req] }

/-- The block at a position of an operation. -/
def standing (op : Instr) (k : Nat) : State := { idle with seq := .running op k }

/-- The events before the wait after PON of INIT. -/
def beforeWait : List Event :=
  pulseEvents ++ commandEvents 0x06 [0x17, 0x17, 0x17] ++ commandEvents 0x01 [1, 2, 3, 4, 5] ++ commandEvents 0x04 []

/-- INIT in its wait after PON (position 28: 5 + 9 + 9 + 5 events before it). -/
def waiting : State :=
  { idle with ctrl := .initializing, dc := .driven false, seq := .running (.init false) 28, trace := beforeWait }

/-- The next state of an outcome, where it is one. -/
def nextOf : Host.Outcome State Fault Refusal → Option State
  | .next s => some s
  | .fault _ => none
  | .refused _ => none

/-- The events, the last response and `STATE` of an outcome. -/
def seen (o : Host.Outcome State Fault Refusal) : Option (List Event × Option (List Byte) × Ctrl) :=
  (nextOf o).map (fun s => (s.trace, s.hrsp.getLast?, s.ctrl))

/-- The fault of an outcome, where it is one. -/
def faultOf : Host.Outcome State Fault Refusal → Option Fault
  | .next _ => none
  | .fault f => some f
  | .refused _ => none

theorem exists_next (o : Host.Outcome State Fault Refusal) (h : (nextOf o).isSome = true) : ∃ t, o = .next t := by
  cases o with
  | next t => exact ⟨t, rfl⟩
  | fault f => cases h
  | refused r => cases h

/-! ### Ill-formed terms -/

theorem test_display_wrong_count_refused : (Instr.display 2 [0xAA]).wellFormed = false := by decide
theorem test_draw_wrong_count_refused : (Instr.draw 0 [0xAA]).wellFormed = false := by decide

/-! ### Decoding: words written out from the tables of R91, R93 and R98 -/

theorem test_decode_reset : decodeRequest [0x01] = .ok .reset := by decide
theorem test_decode_init : decodeRequest [0x02, 0x00] = .ok (.init false) ∧ decodeRequest [0x02, 0x01] = .ok (.init true) := by
  decide
theorem test_decode_display : decodeRequest [0x03, 0, 0, 0, 4, 0xAA, 0x55, 0x00, 0xFF] =
    .ok (.display 4 [0xAA, 0x55, 0x00, 0xFF]) := by decide
theorem test_decode_show : decodeRequest [0x04] = .ok .showBuf := by decide
theorem test_decode_clear : decodeRequest [0x05] = .ok .clear := by decide
theorem test_decode_sleep : decodeRequest [0x06] = .ok .sleep := by decide
theorem test_decode_wake : decodeRequest [0x07] = .ok .wake := by decide
theorem test_decode_draw : decodeRequest [0x08, 0, 0, 0, 1, 0x5A] = .ok (.draw 1 [0x5A]) := by decide
theorem test_decode_fill : decodeRequest [0x09, 0xAA] = .ok (.fill 0xAA) := by decide
/-- V60: pixel (399, 299) is `01 8F 01 2B`. -/
theorem test_decode_setpix : decodeRequest [0x0A, 0x01, 0x8F, 0x01, 0x2B, 0x01] = .ok (.setpix 399 299 true) := by decide
theorem test_decode_getpix : decodeRequest [0x0B, 0x01, 0x8F, 0x01, 0x2B] = .ok (.getpix 399 299) := by decide
theorem test_decode_readbuf : decodeRequest [0x0C] = .ok .readbuf := by decide
theorem test_decode_psr : decodeCommand Opc.reference [0x00] = .ok .psr := by decide
theorem test_decode_pwr : decodeCommand Opc.reference [0x01] = .ok .pwr := by decide
theorem test_decode_pon : decodeCommand Opc.reference [0x04] = .ok .pon := by decide
theorem test_decode_btst : decodeCommand Opc.reference [0x06] = .ok .btst := by decide
theorem test_decode_dslp : decodeCommand Opc.reference [0x07] = .ok .dslp := by decide
theorem test_decode_dtm1 : decodeCommand Opc.reference [0x10] = .ok .dtm1 := by decide
theorem test_decode_dsp : decodeCommand Opc.reference [0x11] = .ok .dsp := by decide
theorem test_decode_drf : decodeCommand Opc.reference [0x12] = .ok .drf := by decide
theorem test_decode_dtm2 : decodeCommand Opc.reference [0x13] = .ok .dtm2 := by decide
theorem test_decode_pll : decodeCommand Opc.reference [0x30] = .ok .pll := by decide
theorem test_decode_cdi : decodeCommand Opc.reference [0x50] = .ok .cdi := by decide
theorem test_decode_tres : decodeCommand Opc.reference [0x61] = .ok .tres := by decide
theorem test_decode_vdcs : decodeCommand Opc.reference [0x82] = .ok .vdcs := by decide
/-- R94: the codes on both sides of the reserved ranges. -/
theorem test_decode_reserved : decodeRequest [0x00] = .error (.reservedOp 0x00) ∧
    decodeRequest [0x0D] = .error (.reservedOp 0x0D) ∧ decodeRequest [0xFF] = .error (.reservedOp 0xFF) := by decide
/-- V24, V51, V56 and R95: lengths and reserved bits. -/
theorem test_decode_malformed :
    decodeRequest [0x03, 0, 0, 0, 4, 0xAA, 0x55] = .error .wrongLength ∧
    decodeRequest [0x03, 0xFF, 0xFF, 0xFF, 0xFF] = .error .wrongLength ∧
    decodeRequest [0x01, 0x00] = .error .wrongLength ∧
    decodeRequest [0x02, 0x02] = .error .reservedBits ∧
    decodeRequest [0x0A, 0, 0, 0, 0, 0x02] = .error .reservedBits := by decide
/-- R100: the command set is closed. -/
theorem test_decode_unknown_command : decodeCommand Opc.reference [0x02] = .error (.unknownCommand 0x02) := by decide
/-- R102: request lengths. -/
theorem test_request_length : requestLength [0x03, 0, 0, 0, 4] = some 9 ∧ requestLength [0x0A] = some 6 ∧
    requestLength [0x0D] = none := by decide
/-- The table's numbering: INIT with BLANK is byte 1 bit 0, which is bit 8 of the word. -/
theorem test_table_words : decodeTableWord 16 0x0102 = some (.init true) ∧ decodeTableWord 8 0x61 = some .tres ∧
    decodeTableWord 8 0x03 = some (.display 0 []) ∧ decodeTableWord 8 0x07 = some .wake := by decide
/-- A placed word is the next thing the reference machine runs, down to the kernel. -/
theorem test_fetch_reset : (nextOf (step (State.reset.withFetchWord 8 0x01))).isSome = true := by decide
theorem test_fetch_fill : (nextOf (step (State.reset.withFetchWord 16 0xAA09))).isSome = true := by decide
theorem test_fetch_tres : (nextOf (step (State.reset.withFetchWord 8 0x61))).isSome = true := by decide

/-! ### One step of each host operation -/

/-- V13: the first event of the pulse. -/
theorem test_reset_first_step : seen (step (asks fresh [0x01])) = some ([.drive .rstN true], none, .resetting) := by decide
/-- R160: the last step of RESET ends it. -/
theorem test_reset_last_step : seen (step (standing .reset 4)) =
    some ([.drive .rstN true], some [0x00, 0x00], .uninitialized) := by decide
/-- V14, R163: from Sleeping, INIT begins with the pulse. -/
theorem test_init_first_step : seen (step (asks { idle with ctrl := .sleeping } [0x02, 0x00])) =
    some ([.drive .rstN true], none, .resetting) := by decide
/-- R163: the fifth event of the pulse leaves Resetting for Initializing. -/
theorem test_init_pulse_ends : seen (step { standing (.init false) 4 with ctrl := .resetting }) =
    some ([.drive .rstN true], none, .initializing) := by decide
/-- V21: DISPLAY begins with the command phase of DTM2. -/
theorem test_display_first_step : seen (step (asks idle [0x03, 0, 0, 0, 4, 0xAA, 0x55, 0x00, 0xFF])) =
    some ([.drive .csN true], none, .idle) := by decide
/-- V23, V63: the state check comes before the size check. -/
theorem test_display_in_sleeping : seen (step (asks { idle with ctrl := .sleeping } [0x03, 0, 0, 0, 3, 0xAA, 0x55, 0x00])) =
    some ([], some [0x02, 0x05], .sleeping) := by decide
/-- V30. -/
theorem test_show_uninitialized : seen (step (asks fresh [0x04])) = some ([], some [0x02, 0x00], .uninitialized) := by decide
/-- V29: SHOW of an unwritten buffer. -/
theorem test_show_unwritten : faultOf (step (asks { fresh with ctrl := .idle } [0x04])) = some .readUnwritten := by decide
/-- V32. -/
theorem test_clear_uninitialized : seen (step (asks fresh [0x05])) = some ([], some [0x02, 0x00], .uninitialized) := by decide
/-- V31: the last of 5 + 4 × 4 events ends CLEAR. -/
theorem test_clear_last_step : seen (step (standing .clear 20)) = some ([.drive .csN true], some [0x00, 0x03], .idle) := by
  decide
/-- V35. -/
theorem test_sleep_sleeping : seen (step (asks { idle with ctrl := .sleeping } [0x06])) =
    some ([], some [0x02, 0x05], .sleeping) := by decide
/-- V33: the idle sample after the nine events of DSLP. -/
theorem test_sleep_last_step : seen (step { standing .sleep 9 with busyIn := [true] }) =
    some ([.sample true], some [0x00, 0x05], .sleeping) := by decide
/-- V38. -/
theorem test_wake_failed : seen (step (asks { idle with ctrl := .failed } [0x07])) =
    some ([], some [0x02, 0x06], .failed) := by decide
/-- V37. -/
theorem test_wake_first_step : seen (step (asks { idle with ctrl := .sleeping } [0x07])) =
    some ([.drive .rstN true], none, .resetting) := by decide
/-- V52. -/
theorem test_draw : (nextOf (step (asks fresh [0x08, 0, 0, 0, 4, 0xAA, 0x55, 0x00, 0xFF]))).map (fun s => s.pb.readBytes 0 4) =
    some (some [0xAA, 0x55, 0x00, 0xFF]) := by decide
/-- V55. -/
theorem test_draw_short : seen (step (asks idle [0x08, 0, 0, 0, 3, 0xAA, 0x55, 0x00])) =
    some ([], some [0x01, 0x03], .idle) := by decide
/-- R241: the first of the NBUF writes. -/
theorem test_fill_first_byte : (nextOf (step (asks idle [0x09, 0x11]))).map (fun s => s.pb.readBytes 0 4) =
    some (some [0x11, 0x55, 0x00, 0xFF]) := by decide
/-- V39, R241: the last of them, in Sleeping. -/
theorem test_fill_last_byte : seen (step { standing (.fill 0xFF) 3 with ctrl := .sleeping }) =
    some ([], some [0x00, 0x05], .sleeping) := by decide
/-- V46 from AA 55 00 FF: pixel (15, 1) is bit 0 of byte 3. -/
theorem test_setpix : (nextOf (step (asks idle [0x0A, 0, 15, 0, 1, 0]))).map (fun s => s.pb.readBytes 0 4) =
    some (some [0xAA, 0x55, 0x00, 0xFE]) := by decide
/-- V49. -/
theorem test_setpix_out_of_range : seen (step (asks idle [0x0A, 0, 0, 0, 2, 1])) = some ([], some [0x05, 0x03], .idle) := by
  decide
/-- V53. -/
theorem test_getpix : seen (step (asks idle [0x0B, 0, 9, 0, 0])) = some ([], some [0x00, 0x03, 0x01], .idle) := by decide
/-- V59: one written pixel does not make its neighbour readable. -/
theorem test_getpix_unwritten : faultOf (step (asks { idle with pb := ({ written := [], value := [] } : PixelBuffer).writePixel 3 6 false }
    [0x0B, 0, 8, 0, 1])) = some .readUnwritten := by decide
/-- V54. -/
theorem test_readbuf : seen (step (asks idle [0x0C])) = some ([], some [0x00, 0x03, 0xAA, 0x55, 0x00, 0xFF], .idle) := by
  decide
/-- V58. -/
theorem test_readbuf_unwritten : faultOf (step (asks fresh [0x0C])) = some .readUnwritten := by decide

/-! ### One step of each controller command -/

/-- V1: BTST's payload. -/
theorem test_btst_payload : seen (exec .btst { standing (.init false) 12 with ctrl := .initializing }) =
    some ([.write [0x17, 0x17, 0x17] .ok], none, .initializing) := by decide
theorem test_pwr_payload : seen (exec .pwr { standing (.init false) 21 with ctrl := .initializing }) =
    some ([.write [1, 2, 3, 4, 5] .ok], none, .initializing) := by decide
/-- V2: PON's command byte. -/
theorem test_pon_byte : seen (exec .pon { standing (.init false) 26 with ctrl := .initializing }) =
    some ([.write [0x04] .ok], none, .initializing) := by decide
theorem test_psr_byte : seen (exec .psr { standing (.init false) 32 with ctrl := .initializing }) =
    some ([.write [0x00] .ok], none, .initializing) := by decide
theorem test_pll_byte : seen (exec .pll { standing (.init false) 41 with ctrl := .initializing }) =
    some ([.write [0x30] .ok], none, .initializing) := by decide
/-- V18: 16 × 2 is `00 10 00 02`. -/
theorem test_tres_payload : seen (exec .tres { standing (.init false) 54 with ctrl := .initializing }) =
    some ([.write [0x00, 0x10, 0x00, 0x02] .ok], none, .initializing) := by decide
theorem test_vdcs_byte : seen (exec .vdcs { standing (.init false) 59 with ctrl := .initializing }) =
    some ([.write [0x82] .ok], none, .initializing) := by decide
/-- R163, R172: the last event of CDI leaves Initializing for Idle and ends INIT. -/
theorem test_cdi_last : seen (exec .cdi { standing (.init false) 73 with ctrl := .initializing }) =
    some ([.drive .csN true], some [0x00, 0x03], .idle) := by decide
theorem test_dtm2_dc : seen (exec .dtm2 (standing .showBuf 2)) = some ([.drive .dc false], none, .idle) := by decide
theorem test_dsp_byte : seen (exec .dsp (standing .showBuf 17)) = some ([.write [0x11] .ok], none, .idle) := by decide
/-- R194: the last event of DRF leaves Idle for Busy. -/
theorem test_drf_last : seen (exec .drf (standing .showBuf 23)) = some ([.drive .csN true], none, .busy) := by decide
theorem test_dtm1_byte : seen (exec .dtm1 (standing .clear 3)) = some ([.write [0x10] .ok], none, .idle) := by decide
theorem test_dslp_payload : seen (exec .dslp (standing .sleep 7)) = some ([.write [0xA5] .ok], none, .idle) := by decide
/-- V15: TRES corner values. -/
theorem test_tres_corners : tresPayload { smallCfg with width := 8, height := 1 } = [0x00, 0x08, 0x00, 0x01] ∧
    tresPayload { smallCfg with width := 65528, height := 65535 } = [0xFF, 0xF8, 0xFF, 0xFF] := by decide

/-! ### Failures -/

/-- V4: the failed command byte, then chip select high and the end of the operation. -/
theorem test_failed_write : seen (step { standing .clear 3 with answerIn := [.fail] }) =
    some ([.write [0x10] .fail], none, .idle) ∧
    seen (step { idle with seq := .aborting .clear 3 }) = some ([.drive .csN true], some [0x03, 0x06], .failed) := by decide
/-- V8, V9: the third sample that is not idle times out; an idle one in its place does not. -/
theorem test_timeout : seen (step { waiting with polls := 2, trace := [] }) =
    some ([.sample false], some [0x04, 0x06], .failed) ∧
    seen (step { waiting with polls := 2, busyIn := [true], trace := [] }) = some ([.sample true], none, .initializing) := by
  decide
/-- V62: a reserved code. -/
theorem test_reserved_code : seen (step (asks idle [0x00])) = some ([], some [0x06, 0x03], .idle) := by decide
/-- R291, R300: an odd width is BadConfig. -/
theorem test_bad_width : faultOf (construct { smallCfg with width := 12 }) = some .badConfig := by decide

/-! ### The observation and the program text -/

/-- R103, R140: a command with its payload, then a data phase of its own. -/
theorem test_txns : txns (commandEvents 0x06 [0x17] ++ commandEvents 0x13 [] ++ dataEvents [0xAA] ++ dataEvents [0x55]) =
    [{ cmd := [0x06], data := [[0x17]] }, { cmd := [0x13], data := [[0xAA], [0x55]] }] := by decide
/-- R104, R106: a program. -/
theorem test_assemble : assemble "INIT BLANK\nSETPIX 9, 0x1, 0 -- one pixel\nSHOWBUF <AA 55>\nREINIT" =
    some [.init true, .setpix 9 1 false, .draw 2 [0xAA, 0x55], .showBuf, .reset, .init false] := by decide

/-! ### Witnesses: every statement's hypotheses can be met -/

theorem test_witness_DecodeOfEncodeIsTheInstruction :
    opcDistinct Opc.reference = true ∧ (Instr.display 2 [1, 2]).wellFormed = true ∧ Instr.pon.wellFormed = true := by decide
theorem test_witness_EncodeOfDecodeIsTheBytes :
    decode Opc.reference .request [0x09, 0xAA] = .ok (.fill 0xAA) ∧ decode Opc.reference .command [0x50] = .ok .cdi := by decide
theorem test_witness_ReservedCodesAreIllegal :
    ((0x00 : Byte) = 0x00 ∧ (0x0D : Nat) ≤ (0x0D : Byte).toNat ∧ (0x0D : Nat) ≤ (0xFF : Byte).toNat) ∧
    (asks idle [0x00]).seq = .ready ∧ (asks idle [0x0D, 1]).hreq = (0x0D :: [1]) :: [] := by decide
theorem test_witness_MalformedRequestsAreIllegal :
    (requestLength [0x01, 0x00] = some 1 ∧ [(0x01 : Byte), 0x00].length ≠ 1) ∧
    ((0x03 : Byte) = 0x03 ∧ [(0x00 : Byte), 0, 0].length < 4) ∧ (0x02 : Byte) &&& 0xFE ≠ 0 ∧ (0x80 : Byte) &&& 0xFE ≠ 0 ∧
    (asks idle [0x02, 0x02]).seq = .ready ∧ (asks idle [0x02, 0x02]).hreq = [0x02, 0x02] :: [] := by decide
theorem test_witness_StepExecutesTheDecodedRequest :
    (asks idle [0x09, 0xAA]).seq = .ready ∧ (asks idle [0x09, 0xAA]).hreq = [0x09, 0xAA] :: [] ∧
    decode (asks idle [0x09, 0xAA]).cfg.opc .request [0x09, 0xAA] = .ok (.fill 0xAA) := by decide
theorem test_witness_StepExecutesTheRunningInstruction :
    (standing (.init false) 5).seq = .running (.init false) 5 ∧ commandAt smallCfg (.init false) 5 = some .btst ∧
    commandAt smallCfg (.init false) 4 = none ∧
    { idle with seq := .aborting .clear 3 }.seq = .aborting .clear 3 ∧ commandAt smallCfg .clear 3 = some .dtm1 ∧
    commandAt smallCfg .clear 7 = none := by decide
theorem test_witness_StepAppendsAtMostOneEvent : ∃ t, step waiting = .next t := exists_next _ (by decide)
theorem test_witness_StepKeepsTheConfiguration : ∃ t, step (asks idle [0x04]) = .next t := exists_next _ (by decide)
/-- Each outcome occurs, with outputs that are not empty: a next state, a fault, a refusal. -/
theorem test_witness_OutputsAreNeverRead :
    (∃ t, step { waiting with status := 6, hrsp := [[1]] } = .next t) ∧
    step { asks fresh [0x0C] with status := 6, trace := [.hold 1], hrsp := [[1]] } = .fault .readUnwritten ∧
    step { fresh with seq := .running .readbuf 0, status := 6, hrsp := [[1]] } = .refused .requestWhileRunning :=
  ⟨exists_next _ (by decide), rfl, rfl⟩
theorem test_witness_OneStatusAndOneResponsePerOperation :
    (∃ t, step waiting = .next t) ∧ ∃ t, step (asks idle [0x0C]) = .next t :=
  ⟨exists_next _ (by decide), exists_next _ (by decide)⟩
theorem test_witness_PixelBufferWriters :
    (nextOf (step (asks idle [0x09, 0x11]))).map (fun t => decide (t.pb ≠ idle.pb)) = some true ∧
    (nextOf (step (standing (.init true) 74))).map (fun t => decide (t.pb ≠ idle.pb)) = some true := by decide
theorem test_witness_RequestWhileRunningIsRefused : waiting.seq = .running (.init false) 28 ∧ Instr.clear ≠ .init false ∧
    ∀ c : Command, Instr.clear ≠ c.instr := by
  refine ⟨by decide, by decide, ?_⟩
  intro c
  cases c <;> decide
theorem test_witness_CommandOutsideAnOperationIsRefused : idle.seq = .ready := by decide
theorem distinct_small : ∀ m n : Command, smallCfg.opc.code m = smallCfg.opc.code n → m = n := by
  intro m n
  cases m <;> cases n <;> decide
theorem test_witness_ConstructionChecksAndSetsEveryRegister :
    (smallCfg.width % 8 = 0 ∧ (8 ≤ smallCfg.width ∧ smallCfg.width ≤ 65528 ∧ 1 ≤ smallCfg.height ∧ smallCfg.height ≤ 65535) ∧
      (smallCfg.pPwr.length = 5 ∧ smallCfg.pPsr.length = 1 ∧ smallCfg.pPll.length = 1 ∧ smallCfg.pVdcs.length = 1 ∧
        smallCfg.pCdi.length = 1) ∧ (∀ m n : Command, smallCfg.opc.code m = smallCfg.opc.code n → m = n) ∧
      smallCfg.busyTimeout ≠ some 0 ∧ smallCfg.chunking ≠ [] ∧ (∀ n ∈ smallCfg.chunking, 0 < n) ∧
      smallCfg.chunking.sum = smallCfg.width * smallCfg.height / 8) ∧
    ¬ (8 ≤ { smallCfg with width := 0 }.width) ∧ { smallCfg with busyTimeout := some 0 }.busyTimeout = some 0 :=
  ⟨⟨by decide, by decide, by decide, distinct_small, by decide, by decide, by decide, by decide⟩, by decide, by decide⟩
/-- R300 at its bounds: the smallest and the largest panel are legal, and one past each bound is not. -/
theorem test_legal_bounds :
    legal { smallCfg with width := 8, height := 1, chunking := [1], busyTimeout := some 1 } = true ∧
    legal { smallCfg with width := 65528, height := 65535, chunking := [536797185] } = true ∧
    legal { smallCfg with width := 65536, height := 1, chunking := [8192] } = false ∧
    legal { smallCfg with height := 0, chunking := [] } = false ∧
    legal { smallCfg with height := 65536, chunking := [131072] } = false ∧
    legal { smallCfg with pPwr := [1, 2, 3, 4] } = false ∧ legal { smallCfg with chunking := [4, 0] } = false ∧
    legal { smallCfg with chunking := [3] } = false ∧
    legal { smallCfg with opc := { Opc.reference with psr := 0x01 } } = false := by decide
theorem test_witness_ConstructionEstablishesTheInvariants : construct smallCfg = .next (State.initial smallCfg) := rfl
theorem test_witness_OperationsOutsideTheirStateAreInvalid :
    fresh.seq = .ready ∧ fresh.ctrl ≠ .idle ∧ fresh.ctrl ≠ .sleeping ∧ idle.ctrl ≠ .sleeping := by decide
theorem test_witness_WrongLengthIsSizeMismatch :
    idle.seq = .ready ∧ idle.ctrl = .idle ∧ (3 : BitVec 32).toNat ≠ idle.cfg.width * idle.cfg.height / 8 ∧
    (5 : BitVec 32).toNat ≠ idle.cfg.width * idle.cfg.height / 8 := by decide
theorem test_witness_CoordinatesOutsideThePanelAreOutOfRange :
    idle.seq = .ready ∧ idle.cfg.width ≤ (16 : BitVec 16).toNat ∧ idle.cfg.height ≤ (2 : BitVec 16).toNat := by decide
theorem test_witness_PixelAddressesLieInTheBufferAndDiffer :
    legal smallCfg = true ∧ 15 < smallCfg.width ∧ 1 < smallCfg.height ∧ pixByte smallCfg 15 1 = 3 ∧ pixBit 15 = 0 := by decide
theorem test_witness_DrawCopiesTheBuffer :
    fresh.seq = .ready ∧ (4 : BitVec 32).toNat = nbuf fresh.cfg ∧ [(1 : Byte), 2, 3, 4].length = nbuf fresh.cfg := by decide
theorem test_witness_FillWritesEveryByte : legal fresh.cfg = true ∧ fresh.seq = .ready := by decide
theorem test_witness_SetpixWritesOnePixel :
    fresh.seq = .ready ∧ (15 : BitVec 16).toNat < fresh.cfg.width ∧ (1 : BitVec 16).toNat < fresh.cfg.height := by decide
theorem test_witness_GetpixReadsOnePixel :
    idle.pb.readPixel ((1 : BitVec 16).toNat * (idle.cfg.width / 8) + (15 : BitVec 16).toNat / 8) (7 - (15 : BitVec 16).toNat % 8)
      = some true ∧
    fresh.pb.readPixel ((0 : BitVec 16).toNat * (fresh.cfg.width / 8) + (0 : BitVec 16).toNat / 8) (7 - (0 : BitVec 16).toNat % 8)
      = none ∧ idle.seq = .ready ∧ fresh.seq = .ready := by decide
theorem test_witness_ReadbufReadsTheBuffer :
    idle.seq = .ready ∧ [(0xAA : Byte), 0x55, 0x00, 0xFF].length = nbuf idle.cfg ∧
    (∀ a, a < nbuf idle.cfg → idle.pb.readByte a = [(0xAA : Byte), 0x55, 0x00, 0xFF][a]?) ∧
    3 < nbuf fresh.cfg ∧ fresh.pb.readByte 3 = none := by decide
theorem test_witness_WhiteBufferReadsWhite :
    let s := { idle with pb := ({ written := [], value := [] } : PixelBuffer).writeBytes 0 [0xFF, 0xFF, 0xFF, 0xFF] }
    legal s.cfg = true ∧ s.seq = .ready ∧ (∀ a, a < nbuf s.cfg → s.pb.readByte a = some 0xFF) ∧
      (15 : BitVec 16).toNat < s.cfg.width ∧ (1 : BitVec 16).toNat < s.cfg.height := by decide
theorem test_witness_ResolutionPayloadIsBigEndian :
    legal smallCfg = true ∧ legal { smallCfg with width := 65528, height := 65535, chunking := [536797185] } = true := by decide
theorem test_witness_PayloadsHaveTheirArity : legal smallCfg = true ∧ arity .tres = some 4 ∧ arity .pon = some 0 := by decide
theorem test_witness_ChunksConcatenateToTheBuffer :
    legal smallCfg = true ∧ [(0xAA : Byte), 0x55, 0x00, 0xFF].length = nbuf smallCfg ∧
    split [(0xAA : Byte), 0x55, 0x00, 0xFF] smallCfg.chunking = [[0xAA], [0x55, 0x00, 0xFF]] := by decide
/-- The first primitive of each of the thirteen transactions. -/
theorem test_witness_CommandsCompleteTheirTransactions :
    legal smallCfg = true ∧ idle.answersOk 2 = true ∧
    ([((Instr.init false), 5, Command.btst), (.init false, 14, .pwr), (.init false, 23, .pon), (.init false, 29, .psr),
      (.init false, 38, .pll), (.init false, 47, .tres), (.init false, 56, .vdcs), (.init false, 65, .cdi),
      (.showBuf, 1, .dtm2), (.showBuf, 14, .dsp), (.showBuf, 19, .drf), (.clear, 0, .dtm1), (.sleep, 0, .dslp)].all
      (fun (op, k, c) => decide ((standing op k).seq = .running op k) && decide (commandAt smallCfg op k = some c) &&
        (k == 0 || decide (commandAt smallCfg op (k - 1) ≠ some c)))) = true := by decide
theorem test_witness_FramerTouchesOnlyDcAndChipSelect :
    ∃ t, exec Command.pwr.instr (standing (.init false) 21) = .next t := exists_next _ (by decide)
theorem test_witness_FailedWriteAbandonsTheOperation :
    (standing .clear 3).seq = .running .clear 3 ∧
    (body (standing .clear 3).cfg .clear)[3]? = some (micro (some .dtm1) (.write (.bytes [0x10]))) ∧
    (Source.bytes [0x10]).get idle.pb = some [0x10] ∧ idle.cfg.transportCanFail = true ∧
    { standing .clear 3 with answerIn := [.fail] }.answerIn = .fail :: [] := by decide
/-- One sample of the wait after PON: idle; the third that is not idle, with a timeout of 3; the second. -/
theorem test_witness_OneSampleOfAWait :
    waiting.seq = .running (.init false) 28 ∧ (body waiting.cfg (.init false))[28]? = some (micro none .sample) ∧
    { waiting with busyIn := [true] }.busyIn = waiting.cfg.idleLevel :: [] ∧ waiting.busyIn = false :: [true, true, false] ∧
    false ≠ waiting.cfg.idleLevel ∧ waiting.cfg.busyTimeout = some 3 ∧ 3 ≤ { waiting with polls := 2 }.polls + 1 ∧
    { waiting with polls := 1 }.polls + 1 < 3 := by decide
theorem test_witness_WaitWithoutTimeoutHangs :
    let s := { waiting with cfg := { smallCfg with busyTimeout := none }, busyIn := [false, false, true] }
    s.seq = .running (.init false) 28 ∧ (body s.cfg (.init false))[28]? = some (micro none .sample) ∧
      s.cfg.busyTimeout = none ∧ s.busyIn = List.replicate 2 (!s.cfg.idleLevel) ++ [true] := by decide
theorem test_witness_WaitWithTimeoutEnds :
    waiting.seq = .running (.init false) 28 ∧ (body waiting.cfg (.init false))[28]? = some (micro none .sample) ∧
    waiting.cfg.busyTimeout = some 3 ∧ 0 < 3 ∧ waiting.polls = 0 := by decide
theorem waiting_ctrl : waiting.CtrlOk := ⟨by decide, rfl⟩
theorem test_witness_OperationsEndUnderATimeout : waiting.CtrlOk ∧ waiting.cfg.busyTimeout = some 3 :=
  ⟨waiting_ctrl, rfl⟩
theorem test_witness_ResetPulsesTheController : fresh.seq = .ready := rfl
theorem test_witness_InitSendsTheSequence :
    legal fresh.cfg = true ∧ fresh.seq = .ready ∧ withinTimeout fresh.cfg 1 = true ∧ withinTimeout fresh.cfg 2 = true ∧
    withinTimeout fresh.cfg 3 = false ∧ fresh.answersOk 15 = true ∧
    fresh.busyIn = waitLevels fresh.cfg 1 ++ [true, false] := by decide
theorem test_witness_WakeRepeatsTheSequence :
    let s := { idle with ctrl := .sleeping }
    legal s.cfg = true ∧ s.seq = .ready ∧ s.ctrl = .sleeping ∧ withinTimeout s.cfg 1 = true ∧ s.answersOk 15 = true ∧
      s.busyIn = waitLevels s.cfg 1 ++ [true, false] := by decide
theorem test_witness_InitBlankRefreshesWhite :
    legal fresh.cfg = true ∧ fresh.seq = .ready ∧ withinTimeout fresh.cfg 1 = true ∧ withinTimeout fresh.cfg 0 = true ∧
    fresh.answersOk (18 + fresh.cfg.chunking.length) = true ∧
    fresh.busyIn = waitLevels fresh.cfg 1 ++ (waitLevels fresh.cfg 0 ++ [false]) := by decide
theorem test_witness_DisplayStreamsTheBuffer :
    legal idle.cfg = true ∧ idle.seq = .ready ∧ idle.ctrl = .idle ∧ (4 : BitVec 32).toNat = nbuf idle.cfg ∧
    [(1 : Byte), 2, 3, 4].length = nbuf idle.cfg ∧ withinTimeout idle.cfg 1 = true ∧
    idle.answersOk (3 + idle.cfg.chunking.length) = true ∧ idle.busyIn = waitLevels idle.cfg 1 ++ [true, false] := by decide
theorem test_witness_ShowStreamsThePixelBuffer :
    legal idle.cfg = true ∧ idle.seq = .ready ∧ idle.ctrl = .idle ∧
    idle.pb.readBytes 0 (nbuf idle.cfg) = some [0xAA, 0x55, 0x00, 0xFF] ∧ withinTimeout idle.cfg 1 = true ∧
    idle.answersOk (3 + idle.cfg.chunking.length) = true ∧ idle.busyIn = waitLevels idle.cfg 1 ++ [true, false] := by decide
theorem test_witness_ShowOfAnUnwrittenBufferFaults :
    let s := { fresh with ctrl := .idle }
    s.seq = .ready ∧ s.ctrl = .idle ∧ 3 < nbuf s.cfg ∧ s.pb.readByte 3 = none := by decide
theorem test_witness_ClearSendsWhiteBytes :
    legal idle.cfg = true ∧ idle.seq = .ready ∧ idle.ctrl = .idle ∧ idle.answersOk (1 + nbuf idle.cfg) = true := by decide
/-- With a payload, and with none. -/
theorem test_witness_SleepSendsDeepSleep :
    let s := { idle with cfg := { smallCfg with pDslp := [] } }
    idle.seq = .ready ∧ idle.ctrl = .idle ∧ withinTimeout idle.cfg 1 = true ∧
      idle.answersOk (if idle.cfg.pDslp = [] then 1 else 2) = true ∧ idle.busyIn = waitLevels idle.cfg 1 ++ [true, false] ∧
      s.cfg.pDslp = [] ∧ s.answersOk (if s.cfg.pDslp = [] then 1 else 2) = true := by decide
theorem test_witness_InitProjectsToEightTransactions : legal smallCfg = true := by decide
theorem test_witness_StepKeepsThePixelBufferWellFormed :
    legal (asks idle [0x0A, 0, 15, 0, 1, 0]).cfg = true ∧ (asks idle [0x0A, 0, 15, 0, 1, 0]).PbOk ∧
    ∃ t, step (asks idle [0x0A, 0, 15, 0, 1, 0]) = .next t :=
  ⟨by decide, by unfold State.PbOk; decide, exists_next _ (by decide)⟩
theorem test_witness_StepKeepsTheControllerState :
    (waiting.CtrlOk ∧ ∃ t, step waiting = .next t) ∧ idle.CtrlOk ∧ ∃ t, step (asks idle [0x06]) = .next t :=
  ⟨⟨waiting_ctrl, exists_next _ (by decide)⟩, rfl, exists_next _ (by decide)⟩
theorem waiting_pins : waiting.PinsOk := by
  intro p
  cases p <;> exact rfl
theorem aborting_pins : { idle with dc := .driven false, csN := .driven false, seq := .aborting .clear 3 }.PinsOk := by
  refine ⟨⟨micro (some .dtm1) (.write (.bytes [0x10])), rfl, _, rfl⟩, ?_⟩
  intro p
  cases p
  · exact rfl
  · exact rfl
  · intro _
    decide
theorem test_witness_StepKeepsThePins :
    (waiting.PinsOk ∧ ∃ t, step waiting = .next t) ∧
    { idle with dc := .driven false, csN := .driven false, seq := .aborting .clear 3 }.PinsOk ∧
    ∃ t, step { idle with dc := .driven false, csN := .driven false, seq := .aborting .clear 3 } = .next t :=
  ⟨⟨waiting_pins, exists_next _ (by decide)⟩, aborting_pins, exists_next _ (by decide)⟩
theorem test_witness_OnlyTheTransitionsOfTheTable : waiting.CtrlOk ∧ waiting.PinsOk ∧ ∃ t, step waiting = .next t :=
  ⟨waiting_ctrl, waiting_pins, exists_next _ (by decide)⟩
/-- In the wait after PON an idle sample is owed. -/
theorem waiting_bus : waiting.BusOk ∧ (watched waiting.cfg waiting.trace).owed = true :=
  ⟨⟨by decide, by decide, BusWatch.start, by decide, rfl, fun h => absurd h (by decide)⟩, by decide⟩
theorem test_witness_StepWritesNothingWhileBusy :
    legal waiting.cfg = true ∧ waiting.CtrlOk ∧ waiting.PinsOk ∧ waiting.BusOk ∧ ∃ t, step waiting = .next t :=
  ⟨by decide, waiting_ctrl, waiting_pins, waiting_bus.1, exists_next _ (by decide)⟩
theorem test_witness_StepKeepsTheBusClosed :
    legal waiting.cfg = true ∧ waiting.PinsOk ∧ waiting.OpOk ∧ waiting.PhasesOk ∧ ∃ t, step waiting = .next t :=
  ⟨by decide, waiting_pins, trivial, ⟨by decide, by decide⟩, exists_next _ (by decide)⟩
theorem fresh_pins : (asks fresh [0x01]).PinsOk := ⟨by decide, by decide⟩
/-- At Ready, RESET begins and appends an event; FILL begins in Uninitialized; inside INIT, a step appends an event. -/
theorem test_witness_OnlyRecoveryReachesTheBusOutsideIdle :
    ((asks fresh [0x01]).CtrlOk ∧ (asks fresh [0x01]).PinsOk ∧
      (nextOf (step (asks fresh [0x01]))).map (fun t => decide (t.trace ≠ fresh.trace ∧ t.seq = .running .reset 1)) =
        some true) ∧
    (nextOf (step (asks fresh [0x09, 0xFF]))).map (fun t => decide (t.seq = .running (.fill 0xFF) 1)) = some true ∧
    waiting.CtrlOk ∧ waiting.PinsOk ∧
    (nextOf (step waiting)).map (fun t => decide (t.trace ≠ waiting.trace)) = some true :=
  ⟨⟨rfl, fresh_pins, by decide⟩, by decide, waiting_ctrl, waiting_pins, by decide⟩

end Sys2Proof.Tests
end

section
/-! PROOFS. Scope (00_scope.md): a controller command outside an operation (R2, R100), and the pixel addresses (R18, R61). -/

namespace Sys2Proof.Machine

/-! ### A controller command outside an operation -/

/-- Every controller command means the next primitive of its transaction (R97). -/
theorem exec_command (c : Command) (s : State) : exec c.instr s = transaction c s := by
  cases c <;> rfl

theorem transaction_ready (c : Command) (s : State) (hq : s.seq = .ready) :
    transaction c s = .refused .commandNotDue := by
  simp [transaction, hq]

/-- Settles O14: a controller command is its transaction, and at Ready no transaction is under way. -/
theorem commandOutsideAnOperationIsRefused : Obligations.CommandOutsideAnOperationIsRefused := by
  intro s c hq
  rw [exec_command, transaction_ready c s hq]

/-! ### Pixel addresses -/

/-- A legal width is a whole number of bytes (R300 (a)). -/
theorem eight_dvd_width (c : Cfg) (hc : legal c = true) : 8 ∣ c.width := by
  simp only [legal, Bool.and_eq_true, beq_iff_eq] at hc
  omega

/-- The buffer is `H` rows of `W div 8` bytes: the division of `NBUF` is exact (R18, R60). -/
theorem nbuf_eq_height_mul_rowBytes (c : Cfg) (hc : legal c = true) : nbuf c = c.height * (c.width / 8) := by
  rw [nbuf, Nat.mul_comm, Nat.mul_div_assoc _ (eight_dvd_width c hc)]

theorem column_lt_rowBytes (c : Cfg) (x : Nat) (hc : legal c = true) (hx : x < c.width) : x / 8 < c.width / 8 :=
  Nat.div_lt_div_of_lt_of_dvd (eight_dvd_width c hc) hx

/-- The row of a pixel, read back from its byte address (R61). -/
theorem pixByte_div_rowBytes (c : Cfg) (x y : Nat) (hc : legal c = true) (hx : x < c.width) :
    pixByte c x y / (c.width / 8) = y := by
  have hcol := column_lt_rowBytes c x hc hx
  rw [pixByte, Nat.mul_comm, Nat.mul_add_div (by omega), Nat.div_eq_of_lt hcol, Nat.add_zero]

/-- The byte column of a pixel, read back from its byte address (R61). -/
theorem pixByte_mod_rowBytes (c : Cfg) (x y : Nat) (hc : legal c = true) (hx : x < c.width) :
    pixByte c x y % (c.width / 8) = x / 8 := by
  rw [pixByte, Nat.mul_comm, Nat.mul_add_mod, Nat.mod_eq_of_lt (column_lt_rowBytes c x hc hx)]

theorem pixByte_lt_nbuf (c : Cfg) (x y : Nat) (hc : legal c = true) (hx : x < c.width) (hy : y < c.height) :
    pixByte c x y < nbuf c := by
  have hrow : pixByte c x y / (c.width / 8) < c.height := by rwa [pixByte_div_rowBytes c x y hc hx]
  have hcol := column_lt_rowBytes c x hc hx
  rw [nbuf_eq_height_mul_rowBytes c hc]
  exact (Nat.div_lt_iff_lt_mul (by omega)).1 hrow

theorem pixBit_lt (x : Nat) : pixBit x < 8 := by
  unfold pixBit
  omega

/-- The byte column and the bit position fix the pixel's column. -/
theorem eq_of_div_eq_of_pixBit_eq {x x' : Nat} (hd : x' / 8 = x / 8) (hb : pixBit x' = pixBit x) : x' = x := by
  unfold pixBit at hb
  omega

/-- The address and the bit position fix the pixel: its row and its byte column are read back from the address. -/
theorem pixel_eq_of_address_eq (c : Cfg) (x y x' y' : Nat) (hc : legal c = true) (hx : x < c.width)
    (hx' : x' < c.width) (ha : pixByte c x' y' = pixByte c x y) (hb : pixBit x' = pixBit x) : x' = x ∧ y' = y := by
  have hrow : y' = y := by rw [← pixByte_div_rowBytes c x' y' hc hx', ha, pixByte_div_rowBytes c x y hc hx]
  have hcol : x' / 8 = x / 8 := by
    rw [← pixByte_mod_rowBytes c x' y' hc hx', ha, pixByte_mod_rowBytes c x y hc hx]
  exact ⟨eq_of_div_eq_of_pixBit_eq hcol hb, hrow⟩

/-- Settles O20: the bound from the row count of the buffer, the injectivity by reading row and column back. -/
theorem pixelAddressesLieInTheBufferAndDiffer : Obligations.PixelAddressesLieInTheBufferAndDiffer := by
  intro c x y hc hx hy
  refine ⟨pixByte_lt_nbuf c x y hc hx hy, pixBit_lt x, ?_⟩
  intro x' y' hx' _ ha hb
  exact pixel_eq_of_address_eq c x y x' y' hc hx hx' ha hb

end Sys2Proof.Machine
end

section
/-! PROOFS. State (10_state.md): what a step changes and what it keeps (R31, R33, R37, R39, R40, R43). -/

namespace Sys2Proof.Machine

/-! ### Which instruction a step executes (R37, R90, R134) -/

/-- Settles O6: the request space decodes by `decodeRequest`, and the request taken is the head of the list. -/
theorem stepExecutesTheDecodedRequest : Obligations.StepExecutesTheDecodedRequest := by
  intro s req rest i hq hr hd
  have ht : s.takeRequest = { s with hreq := rest } := by simp [State.takeRequest, hr]
  rw [step_request s req rest i hq hr hd, ht]

theorem step_of_seq (s : State) (op : Instr) (k : Nat) (hq : s.seq = .running op k ∨ s.seq = .aborting op k) :
    step s = exec (currentAt s.cfg op k) s := by
  rcases hq with hq | hq <;> simp [step, hq]

/-- A position inside a transaction is a position of the body. -/
theorem get_of_commandAt (c : Cfg) (op : Instr) (k : Nat) (n : Command) (h : commandAt c op k = some n) :
    ∃ m, (body c op)[k]? = some m ∧ m.cmd = some n := by
  simpa [commandAt, Option.bind_eq_some_iff] using h

/-- Inside a transaction the command and the operation mean the same step (R134). -/
theorem exec_command_eq_exec_op (s : State) (op : Instr) (k : Nat) (n : Command)
    (hq : s.seq = .running op k ∨ s.seq = .aborting op k) (hn : commandAt s.cfg op k = some n) :
    exec n.instr s = exec op s := by
  obtain ⟨m, hm, hc⟩ := get_of_commandAt _ _ _ _ hn
  rcases hq with hq | hq
  · rw [exec_command_running n s op k m hq hm hc, exec_op_running s op k m hq hm]
  · rw [exec_command_aborting n s op k hq hn, exec_op_aborting s op k hq (List.getElem?_eq_some_iff.1 hm).1]

/-- Settles O7: `step` executes `currentAt`, which is the command inside a transaction and the operation elsewhere. -/
theorem stepExecutesTheRunningInstruction : Obligations.StepExecutesTheRunningInstruction := by
  intro s op k hq
  have hs := step_of_seq s op k hq
  refine ⟨fun n hn => ⟨?_, exec_command_eq_exec_op s op k n hq hn⟩, fun hn => ?_⟩
  · rw [hs, currentAt, hn]
  · rw [hs, currentAt, hn]

/-! ### What `advance`, `raise` and `abort` leave unchanged -/

@[simp] theorem advance_cfg (op : Instr) (k : Nat) (m : Micro) (s : State) : (advance op k m s).cfg = s.cfg := by
  rcases advance_eq op k m s with ⟨-, h⟩ | ⟨-, h⟩ <;> simp [h]

@[simp] theorem advance_trace (op : Instr) (k : Nat) (m : Micro) (s : State) :
    (advance op k m s).trace = s.trace := by
  rcases advance_eq op k m s with ⟨-, h⟩ | ⟨-, h⟩ <;> simp [h]

@[simp] theorem advance_pb (op : Instr) (k : Nat) (m : Micro) (s : State) : (advance op k m s).pb = s.pb := by
  rcases advance_eq op k m s with ⟨-, h⟩ | ⟨-, h⟩ <;> simp [h]

theorem advance_ctrl (op : Instr) (k : Nat) (m : Micro) (s : State) :
    (advance op k m s).ctrl = m.after.foldl ctrlAct s.ctrl := by
  rcases advance_eq op k m s with ⟨-, h⟩ | ⟨-, h⟩ <;> simp [h, State.acts_ctrl]

@[simp] theorem advance_pin (op : Instr) (k : Nat) (m : Micro) (s : State) (p : Pin) :
    (advance op k m s).pin p = s.pin p := by
  have hseq : ∀ q, ((s.acts m.after).setSeq q).pin p = (s.acts m.after).pin p := fun q => by cases p <;> rfl
  have hfin : ((s.acts m.after).finish .ok []).pin p = (s.acts m.after).pin p := by cases p <;> rfl
  rcases advance_eq op k m s with ⟨-, h⟩ | ⟨-, h⟩
  · rw [h, hseq, State.acts_pin]
  · rw [h, hfin, State.acts_pin]

@[simp] theorem State.abort_cfg (s : State) : s.abort.cfg = s.cfg := rfl
@[simp] theorem State.abort_ctrl (s : State) : s.abort.ctrl = .failed := rfl
@[simp] theorem State.abort_seq (s : State) : s.abort.seq = .ready := rfl
@[simp] theorem State.abort_trace (s : State) : s.abort.trace = s.trace ++ [.drive .csN true] := rfl
@[simp] theorem State.abort_pb (s : State) : s.abort.pb = s.pb := rfl
@[simp] theorem State.abort_csN (s : State) : s.abort.csN = .driven true := rfl
@[simp] theorem State.abort_rstN (s : State) : s.abort.rstN = s.rstN := rfl

/-- No check before execution raises a fatal error: `STATE` stays (R277). -/
theorem preCheck_not_fatal (i : Instr) (s : State) (r : Result) (h : preCheck i s = some r) :
    r ≠ .busTransferFailure ∧ r ≠ .busyTimeout := by
  have hop : ∀ r, operandError s.cfg i = some r → r = .sizeMismatch ∨ r = .outOfRange := by
    intro r hr
    cases i <;> simp [operandError] at hr <;> simp [hr.2.symm]
  unfold preCheck at h
  split at h
  · rcases hop r h with rfl | rfl <;> decide
  · cases h; decide

/-- An operation is accepted where the acceptance table and the operand check both let it pass (R46, R281). -/
theorem preCheck_eq_none_iff (i : Instr) (s : State) :
    preCheck i s = none ↔ accepts i s.ctrl = true ∧ operandError s.cfg i = none := by
  unfold preCheck
  split <;> simp_all

/-! ### The step that begins an operation -/

/-- The step that begins an operation is at position 0 of its body, or ends an operation whose body is empty. -/
theorem performAt_zero_next (op : Instr) (s t : State) (h : performAt op 0 s = .next t) :
    (∃ m, (body s.cfg op)[0]? = some m ∧ PrimCase op 0 m s t) ∨ (body s.cfg op = [] ∧ t = s.finish .ok []) := by
  cases hm : (body s.cfg op)[0]? with
  | some m =>
    rw [performAt_of_get op 0 m s hm] at h
    exact .inl ⟨m, rfl, perform_next op 0 m s t h⟩
  | none =>
    have ht : State.finish s .ok [] = t := by simpa [performAt, hm] using h
    exact .inr ⟨by simpa using hm, ht.symm⟩

/-- Only FILL of an empty buffer has no position. -/
theorem fill_of_body_nil (c : Cfg) (op : Instr) (hb : hasBody op = true) (h : body c op = []) :
    ∃ v, op = .fill v := by
  cases op with
  | fill v => exact ⟨v, rfl⟩
  | _ => simp [hasBody, body, resetBody, initBody, displayBody, showBody, clearBody, sleepBody, thenWait, sendCommand,
      commandPhase, resetPulse] at hb h

/-- RESET, INIT and WAKE begin by driving RST_N high, with no register write after it (R161). -/
theorem body_zero_of_recovers (c : Cfg) (op : Instr) (h : recovers op = true) :
    (body c op)[0]? = some (micro none (.drive .rstN true)) := by
  cases op with
  | reset => rfl
  | init blank => rfl
  | wake => rfl
  | _ => simp [recovers] at h

/-! ### The configuration (R31) -/

theorem PrimCase.cfg_eq {op : Instr} {k : Nat} {m : Micro} {s t : State} (h : PrimCase op k m s t) : t.cfg = s.cfg := by
  cases h with
  | goesOn _ ht => simp [ht]
  | fails _ _ _ _ _ ht => simp [ht]
  | timesOut _ _ _ _ _ ht => simp [ht]
  | waits _ _ _ ht => simp [ht]

theorem performAt_zero_cfg (op : Instr) (s t : State) (h : performAt op 0 s = .next t) : t.cfg = s.cfg := by
  rcases performAt_zero_next op s t h with ⟨m, -, hc⟩ | ⟨-, ht⟩
  · exact hc.cfg_eq
  · simp [ht]

theorem AccessCase.cfg_eq {i : Instr} {s t : State} (h : AccessCase s i t) : t.cfg = s.cfg := by
  cases h <;> rfl

theorem ReadyCase.cfg_eq {i : Instr} {s t : State} (h : ReadyCase i s t) : t.cfg = s.cfg := by
  cases h with
  | check r _ ht => simp [ht]
  | access _ h => exact h.cfg_eq
  | begins _ _ h => simpa using performAt_zero_cfg i _ t h

theorem step_cfg (s t : State) (h : step s = .next t) : t.cfg = s.cfg := by
  cases step_next s t h with
  | waiting _ _ ht => rw [ht]
  | illegal _ _ _ _ _ _ ht => simp [ht, State.illegalRequest]
  | request _ _ _ _ _ _ h => simpa using h.cfg_eq
  | position _ _ _ _ _ h => exact h.cfg_eq
  | exhausted _ _ _ _ _ ht => simp [ht]
  | aborted _ _ _ ht => simp [ht]

/-- Settles O9: `CFG` is the same after every one of the things a step can do. -/
theorem stepKeepsTheConfiguration : Obligations.StepKeepsTheConfiguration := step_cfg

/-! ### The trace (R37, R39) -/

/-- The trace of `t` is that of `s` with at most one event more. -/
def AppendsOne (s t : State) : Prop := ∃ es : List Event, t.trace = s.trace ++ es ∧ es.length ≤ 1

theorem appendsOne_of_same {s t : State} (h : t.trace = s.trace) : AppendsOne s t := ⟨[], by simp [h], by simp⟩

theorem appendsOne_of_event {s t : State} (e : Event) (h : t.trace = s.trace ++ [e]) : AppendsOne s t :=
  ⟨[e], h, by simp⟩

/-- A port primitive appends its one event; a pixel-buffer access none (R13, R14). -/
theorem appendsOne_effect (s : State) (p : Prim) : AppendsOne s (s.effect p) := by
  cases p with
  | drive p v => exact appendsOne_of_event (.drive p v) (by simp [State.effect])
  | hold ms => exact appendsOne_of_event (.hold ms) rfl
  | write src => exact appendsOne_of_event _ (State.busWrite_trace s _)
  | sample => exact appendsOne_of_event _ (State.busSample_trace s)
  | memWrite a bs => exact appendsOne_of_same rfl
  | memReadAll => exact appendsOne_of_same rfl

theorem PrimCase.appendsOne {op : Instr} {k : Nat} {m : Micro} {s t : State} (h : PrimCase op k m s t) :
    AppendsOne s t := by
  cases h with
  | goesOn _ ht => subst ht; simpa [AppendsOne] using appendsOne_effect s m.prim
  | fails _ bs _ _ _ ht => exact appendsOne_of_event (.write bs s.nextAnswer) (by simp [ht])
  | timesOut _ _ _ _ _ ht => exact appendsOne_of_event (.sample s.nextLevel) (by simp [ht])
  | waits _ _ _ ht => exact appendsOne_of_event (.sample s.nextLevel) (by simp [ht])

theorem AccessCase.trace_eq {i : Instr} {s t : State} (h : AccessCase s i t) : t.trace = s.trace := by
  cases h <;> rfl

theorem ReadyCase.appendsOne {i : Instr} {s t : State} (h : ReadyCase i s t) : AppendsOne s t := by
  cases h with
  | check r _ ht => exact appendsOne_of_same (by simp [ht])
  | access _ h => exact appendsOne_of_same h.trace_eq
  | begins _ _ h =>
    rcases performAt_zero_next i _ t h with ⟨m, -, hc⟩ | ⟨-, ht⟩
    · simpa [AppendsOne] using hc.appendsOne
    · exact appendsOne_of_same (by simp [ht])

/-- Settles O8: a step performs at most one port primitive, and each records one event. -/
theorem stepAppendsAtMostOneEvent : Obligations.StepAppendsAtMostOneEvent := by
  intro s t h
  change AppendsOne s t
  cases step_next s t h with
  | waiting _ _ ht => exact appendsOne_of_same (by rw [ht])
  | illegal _ _ _ _ _ _ ht => exact appendsOne_of_same (by simp [ht, State.illegalRequest])
  | request _ _ _ _ _ _ h => simpa [AppendsOne] using h.appendsOne
  | position _ _ _ _ _ h => exact h.appendsOne
  | exhausted _ _ _ _ _ ht => exact appendsOne_of_same (by simp [ht])
  | aborted _ _ _ ht => exact appendsOne_of_event _ (by rw [ht, State.abort_trace])

/-! ### STATUS and the responses (R33, R96, R270) -/

/-- `t` goes on with the operation: no response, and `STATUS` stays. -/
def Silent (s t : State) : Prop := t.hrsp = s.hrsp ∧ t.status = s.status ∧ t.seq ≠ .ready

/-- `t` has ended an operation: a code of R270 in `STATUS`, and one response that begins with it and the code of
`STATE`. -/
def Answered (s t : State) : Prop :=
  t.seq = .ready ∧ t.status.toNat ≤ 6 ∧ ∃ d : List Byte, t.hrsp = s.hrsp ++ [response t.status t.ctrl d]

theorem Result.code_le (r : Result) : r.code.toNat ≤ 6 := by cases r <;> decide

/-- Ending an operation answers it, from any state with the responses of `s`. -/
theorem answered_finish {s u : State} (h : u.hrsp = s.hrsp) (r : Result) (d : List Byte) : Answered s (u.finish r d) :=
  ⟨rfl, r.code_le, d, by simp [h, response]⟩

theorem answered_raise {s u : State} (h : u.hrsp = s.hrsp) (r : Result) : Answered s (u.raise r) := by
  cases r with
  | busTransferFailure => exact answered_finish (u := u.setCtrl .failed) h _ _
  | busyTimeout => exact answered_finish (u := u.setCtrl .failed) h _ _
  | _ => exact answered_finish h _ _

@[simp] theorem State.effect_hrsp (s : State) (p : Prim) : (s.effect p).hrsp = s.hrsp := by
  cases p <;> simp [State.effect]

@[simp] theorem State.effect_status (s : State) (p : Prim) : (s.effect p).status = s.status := by
  cases p <;> simp [State.effect]

theorem PrimCase.silent_or_answered {op : Instr} {k : Nat} {m : Micro} {s t : State} (h : PrimCase op k m s t) :
    Silent s t ∨ Answered s t := by
  cases h with
  | goesOn _ ht =>
    rcases advance_eq op k m (s.effect m.prim) with ⟨-, h⟩ | ⟨-, h⟩
    · exact .inl (by simp [ht, h, Silent])
    · exact .inr (by rw [ht, h]; exact answered_finish (by simp) _ _)
  | fails _ _ _ _ _ ht => exact .inl (by simp [ht, Silent])
  | timesOut _ _ _ _ _ ht => exact .inr (by rw [ht]; exact answered_raise (by simp) _)
  | waits _ _ _ ht => exact .inl (by simp [ht, Silent])

theorem AccessCase.answered {i : Instr} {s t : State} (h : AccessCase s i t) : Answered s t := by
  cases h with
  | draw len data => exact answered_finish (u := s.setPb _) rfl _ _
  | setpix x y v => exact answered_finish (u := s.setPb _) rfl _ _
  | getpix x y v _ => exact answered_finish rfl _ _
  | readbuf d _ => exact answered_finish rfl _ _

theorem ReadyCase.silent_or_answered {i : Instr} {s t : State} (h : ReadyCase i s t) : Silent s t ∨ Answered s t := by
  cases h with
  | check r _ ht => rw [ht]; exact .inr (answered_raise rfl r)
  | access _ h => exact .inr h.answered
  | begins _ _ h =>
    rcases performAt_zero_next i _ t h with ⟨m, -, hc⟩ | ⟨-, ht⟩
    · simpa [Silent, Answered] using hc.silent_or_answered
    · rw [ht]; exact .inr (answered_finish (by simp) _ _)

/-- Settles O11: every way a step ends goes through `finish`, and no other writes `STATUS` or responds. -/
theorem oneStatusAndOneResponsePerOperation : Obligations.OneStatusAndOneResponsePerOperation := by
  intro s t h
  change (t = s ∨ Silent s t) ∨ Answered s t
  cases step_next s t h with
  | waiting _ _ ht => exact .inl (.inl ht)
  | illegal _ _ _ _ _ _ ht => rw [ht]; exact .inr (answered_raise (u := s.takeRequest) rfl _)
  | request _ _ _ _ _ _ h => exact h.silent_or_answered.imp_left .inr
  | position _ _ _ _ _ h => exact h.silent_or_answered.imp_left .inr
  | exhausted _ _ _ _ _ ht => rw [ht]; exact .inr (answered_finish rfl _ _)
  | aborted _ _ _ ht => rw [ht]; exact .inr (answered_raise (u := s.drive .csN true) (by simp) _)

end Sys2Proof.Machine
end

section
/-! PROOFS. State (10_state.md): where the sequencer puts `STATE` and the pins (R34 to R36, R44, R45). -/

namespace Sys2Proof.Machine

/-! ### The invariants at each form of `SEQ` -/

theorem State.ctrlOk_ready {s : State} (h : s.seq = .ready) : s.CtrlOk ↔ s.ctrl.stable = true := by
  simp [State.CtrlOk, h]

theorem State.ctrlOk_running {s : State} {op : Instr} {k : Nat} (h : s.seq = .running op k) :
    s.CtrlOk ↔ ctrlFits s op k := by simp [State.CtrlOk, h]

theorem State.ctrlOk_aborting {s : State} {op : Instr} {k : Nat} (h : s.seq = .aborting op k) :
    s.CtrlOk ↔ ctrlFits s op k := by simp [State.CtrlOk, h]

theorem State.pinsOk_ready {s : State} (h : s.seq = .ready) :
    s.PinsOk ↔ s.csN ≠ .driven false ∧ s.rstN ≠ .driven false := by simp [State.PinsOk, h]

theorem State.pinsOk_running {s : State} {op : Instr} {k : Nat} (h : s.seq = .running op k) :
    s.PinsOk ↔ ∀ p, pinFits s p ((body s.cfg op).take k) := by simp [State.PinsOk, h]

theorem State.pinsOk_aborting {s : State} {op : Instr} {k : Nat} (h : s.seq = .aborting op k) :
    s.PinsOk ↔ (∃ m, (body s.cfg op)[k]? = some m ∧ ∃ src, m.prim = .write src) ∧
      ∀ p, pinFits s p ((body s.cfg op).take k) := by simp [State.PinsOk, h]

/-! ### The track of a body, at a state that fits it

No fact here depends on the bytes streamed, so every source is let through (`Q` is true). -/

/-- What holds at a position of a body, whatever it streams. -/
theorem fits_at (c : Cfg) (op : Instr) (k : Nat) (m : Micro) (hm : (body c op)[k]? = some m) :
    Track.Fits c (fun _ => True) (((body c op).take k).foldl Track.next (Track.of op)) m :=
  body_fits c _ (fun _ _ => trivial) op k m (fun _ _ => trivial) hm

/-- What holds at the end of a body, whatever it streams. -/
theorem ends_at (c : Cfg) (op : Instr) (hb : hasBody op = true) :
    ((body c op).foldl Track.next (Track.of op)).Ends := by
  obtain ⟨u, ⟨-, hu⟩, he⟩ := body_leads_of c (fun _ => True) (fun _ _ => trivial) op hb (fun _ _ => trivial)
  rw [hu]
  exact he

theorem track_of_pin (c : Cfg) (op : Instr) (k : Nat) (p : Pin) :
    (((body c op).take k).foldl Track.next (Track.of op)).pin p = pinAfter p ((body c op).take k) := by
  rw [track_pin, pinAfter_eq]
  cases p <;> rfl

theorem track_of_ctrl (c : Cfg) (op : Instr) (k : Nat) (d : Ctrl) (hd : entryCtrl op = some d) :
    (((body c op).take k).foldl Track.next (Track.of op)).ctrl = ctrlAfter d ((body c op).take k) := by
  rw [track_ctrl, Track.of, hd]
  rfl

/-- `STATE` is the value of the track where the operation writes it. -/
theorem ctrlFits.track {s : State} {op : Instr} {k : Nat} {d : Ctrl} (h : ctrlFits s op k) (hd : entryCtrl op = some d) :
    (((body s.cfg op).take k).foldl Track.next (Track.of op)).ctrl = s.ctrl := by
  obtain ⟨-, h⟩ := h
  simp only [hd] at h
  rw [track_of_ctrl s.cfg op k d hd, h]

/-- An operation that never writes `STATE` has only buffer writes in its body. -/
theorem memWrite_of_no_entry (c : Cfg) (op : Instr) (k : Nat) (m : Micro) (hd : entryCtrl op = none)
    (hm : (body c op)[k]? = some m) : ∃ a bs, m.prim = .memWrite a bs := by
  have hb := hasBody_of_get _ _ _ _ hm
  cases op <;> simp [hasBody, entryCtrl] at hb hd
  case fill v =>
    simp only [body, fillLoop_map, List.getElem?_map, Option.map_eq_some_iff] at hm
    obtain ⟨a, -, rfl⟩ := hm
    exact ⟨a, [v], rfl⟩

/-! ### STATE at a position -/

theorem ctrlFits_congr {s t : State} {op : Instr} {k : Nat} (hcfg : t.cfg = s.cfg) (hctrl : t.ctrl = s.ctrl) :
    ctrlFits t op k ↔ ctrlFits s op k := by simp [ctrlFits, hcfg, hctrl]

/-- One position further on, with the register writes of the position made. -/
theorem ctrlFits_succ {s t : State} {op : Instr} {k : Nat} {m : Micro} (h : ctrlFits s op k)
    (hm : (body s.cfg op)[k]? = some m) (hk : k + 1 < (body s.cfg op).length) (hcfg : t.cfg = s.cfg)
    (hctrl : t.ctrl = m.after.foldl ctrlAct s.ctrl) : ctrlFits t op (k + 1) := by
  obtain ⟨-, h⟩ := h
  refine ⟨by rwa [hcfg], ?_⟩
  cases hd : entryCtrl op with
  | some d => simp only [hd] at h ⊢; rw [hctrl, hcfg, ctrlAfter_succ d _ k m hm, h]
  | none => simp only [hd] at h ⊢; rw [hctrl, after_of_no_entry s.cfg op k m hd hm]; exact h

/-- After the last position of a body `STATE` is stable (R44). -/
theorem stable_of_last {s : State} {op : Instr} {k : Nat} {m : Micro} (h : ctrlFits s op k)
    (hm : (body s.cfg op)[k]? = some m) (hk : (body s.cfg op).length ≤ k + 1) :
    (m.after.foldl ctrlAct s.ctrl).stable = true := by
  cases hd : entryCtrl op with
  | some d =>
    obtain ⟨-, -, hend⟩ := ends_at s.cfg op (hasBody_of_get _ _ _ _ hm)
    obtain ⟨-, h⟩ := h
    simp only [hd] at h
    rwa [h, ← ctrlAfter_succ d _ k m hm, ← track_of_ctrl s.cfg op (k + 1) d hd, List.take_of_length_le hk]
  | none =>
    obtain ⟨-, h⟩ := h
    simp only [hd] at h
    rwa [after_of_no_entry s.cfg op k m hd hm]

/-- A primitive performed where `STATE` fits leaves it where the sequencer goes. -/
theorem PrimCase.ctrlOk {op : Instr} {k : Nat} {m : Micro} {s t : State} (h : PrimCase op k m s t)
    (hm : (body s.cfg op)[k]? = some m) (hs : ctrlFits s op k) : t.CtrlOk := by
  cases h with
  | goesOn _ ht =>
    rcases advance_eq op k m (s.effect m.prim) with ⟨hk, ha⟩ | ⟨hk, ha⟩
    · rw [State.ctrlOk_running (by rw [ht, ha]; rfl)]
      exact ctrlFits_succ hs hm (by simpa using hk) (by simp [ht]) (by simp [ht, advance_ctrl])
    · rw [State.ctrlOk_ready (by rw [ht, ha]; rfl), ht, advance_ctrl, State.effect_ctrl]
      exact stable_of_last hs hm (by simpa using hk)
  | fails _ _ _ _ _ ht =>
    rw [State.ctrlOk_aborting (by rw [ht]; rfl), ctrlFits_congr (s := s) (by simp [ht]) (by simp [ht])]
    exact hs
  | timesOut _ _ _ _ _ ht =>
    rw [ht, State.ctrlOk_ready (by simp)]
    rfl
  | waits _ _ _ ht =>
    rw [State.ctrlOk_running (by rw [ht]; rfl), ctrlFits_congr (s := s) (by simp [ht]) (by simp [ht])]
    exact hs

/-- An accepted operation begins with `STATE` at its entry value (R45, R46). -/
theorem ctrlFits_zero_of_accepts {s : State} {op : Instr} (hst : s.ctrl.stable = true)
    (ha : accepts op s.ctrl = true) (hlen : 0 < (body s.cfg op).length) :
    ctrlFits (s.acts (entryActs op)) op 0 := by
  refine ⟨by simpa using hlen, ?_⟩
  cases op <;> simp_all [entryCtrl, entryActs, accepts, ctrlAfter]

theorem ReadyCase.ctrlOk {i : Instr} {s t : State} (h : ReadyCase i s t) (hs : s.ctrl.stable = true) :
    t.CtrlOk := by
  cases h with
  | check r hp ht =>
    obtain ⟨h₁, h₂⟩ := preCheck_not_fatal i s r hp
    rw [ht, State.raise_preCheck s r h₁ h₂]
    exact hs
  | access _ h => cases h <;> exact hs
  | begins hp hb h =>
    rcases performAt_zero_next i _ t h with ⟨m, hm, hc⟩ | ⟨hnil, ht⟩
    · obtain ⟨hlen, -⟩ := List.getElem?_eq_some_iff.1 hm
      exact hc.ctrlOk hm
        (ctrlFits_zero_of_accepts hs ((preCheck_eq_none_iff i s).1 hp).1 (by simpa using hlen))
    · obtain ⟨v, rfl⟩ := fill_of_body_nil _ i hb hnil
      rw [ht]
      exact hs

/-- Settles O49: at Ready by the acceptance table, at a position by the track of the body, whose end is stable. -/
theorem stepKeepsTheControllerState : Obligations.StepKeepsTheControllerState := by
  intro s t hs h
  cases step_next s t h with
  | waiting _ _ ht => rwa [ht]
  | illegal _ _ _ hq _ _ ht => rw [ht]; exact (State.ctrlOk_ready hq).1 hs
  | request _ _ _ hq _ _ h => exact h.ctrlOk ((State.ctrlOk_ready hq).1 hs)
  | position _ _ _ hq hm h => exact h.ctrlOk hm ((State.ctrlOk_running hq).1 hs)
  | exhausted op k hq hk _ _ =>
    obtain ⟨hlt, -⟩ := (State.ctrlOk_running hq).1 hs
    omega
  | aborted _ _ _ ht =>
    rw [ht, State.ctrlOk_ready rfl]
    rfl

/-! ### The pins at a position -/

/-- CS_N and RST_N are not low at Ready (R34, R36). -/
def State.PinsHigh (s : State) : Prop := ∀ p, p ≠ .dc → s.pin p ≠ .driven false

theorem State.pinsHigh_iff (s : State) : s.PinsHigh ↔ s.csN ≠ .driven false ∧ s.rstN ≠ .driven false := by
  constructor
  · intro h
    exact ⟨h .csN (by decide), h .rstN (by decide)⟩
  · rintro ⟨hcs, hrst⟩ p hp
    cases p with
    | csN => exact hcs
    | dc => exact absurd rfl hp
    | rstN => exact hrst

theorem State.pinsOk_of_pinsHigh {s : State} (hq : s.seq = .ready) (h : s.PinsHigh) : s.PinsOk :=
  (State.pinsOk_ready hq).2 ((State.pinsHigh_iff s).1 h)

/-- Where the positions performed so far drove neither low last, CS_N and RST_N are not low. -/
theorem pinsHigh_of_fits {s : State} {ms : List Micro} (h : ∀ p, pinFits s p ms)
    (hcs : pinAfter .csN ms ≠ some false) (hrst : pinAfter .rstN ms ≠ some false) : s.PinsHigh :=
  (State.pinsHigh_iff s).2 ⟨pinFits_not_low s .csN (by decide) ms (h .csN) hcs,
    pinFits_not_low s .rstN (by decide) ms (h .rstN) hrst⟩

/-- At the end of a body the pins that fit it are high. -/
theorem pinsHigh_of_end {s : State} (op : Instr) (c : Cfg) (k : Nat) (hb : hasBody op = true)
    (hk : (body c op).length ≤ k) (h : ∀ p, pinFits s p ((body c op).take k)) : s.PinsHigh := by
  obtain ⟨hcs, hrst, -⟩ := ends_at c op hb
  rw [← List.take_of_length_le hk] at hcs hrst
  exact pinsHigh_of_fits h (by rw [← track_of_pin]; exact hcs) (by rw [← track_of_pin]; exact hrst)

/-- At a write RST_N was not last driven low; in a wait CS_N neither. -/
theorem pinAfter_rstN_of_write {c : Cfg} {op : Instr} {k : Nat} {m : Micro} {src : Source}
    (hm : (body c op)[k]? = some m) (hp : m.prim = .write src) : pinAfter .rstN ((body c op).take k) ≠ some false := by
  obtain ⟨-, h⟩ := fits_at c op k m hm
  simp only [hp] at h
  rw [← track_of_pin]
  exact h.1

theorem pinAfter_of_sample {c : Cfg} {op : Instr} {k : Nat} {m : Micro}
    (hm : (body c op)[k]? = some m) (hp : m.prim = .sample) :
    pinAfter .csN ((body c op).take k) ≠ some false ∧ pinAfter .rstN ((body c op).take k) ≠ some false := by
  obtain ⟨-, h⟩ := fits_at c op k m hm
  simp only [hp] at h
  obtain ⟨hcs, hrst, -⟩ := h
  rw [← track_of_pin, ← track_of_pin]
  exact ⟨hcs, hrst⟩

/-- One position further on, with the primitive's effect on the pins made. -/
theorem pinFits_succ {s t : State} {op : Instr} {c : Cfg} {k : Nat} {m : Micro} (p : Pin)
    (h : pinFits s p ((body c op).take k)) (hm : (body c op)[k]? = some m)
    (ht : t.pin p = (s.effect m.prim).pin p) : pinFits t p ((body c op).take (k + 1)) := by
  unfold pinFits at h ⊢
  rw [pinAfter_succ p _ k m hm, ht]
  unfold pinStep
  cases hp : m.prim with
  | drive q b =>
    rw [State.effect_drive_pin]
    by_cases hqp : q = p
    · simp [hqp]
    · simpa [hqp] using h
  | _ =>
    rw [State.effect_pin s _ p (by simp)]
    exact h

/-- A primitive performed where the pins fit leaves them where the sequencer goes. -/
theorem PrimCase.pinsOk {op : Instr} {k : Nat} {m : Micro} {s t : State} (h : PrimCase op k m s t)
    (hm : (body s.cfg op)[k]? = some m) (hs : ∀ p, pinFits s p ((body s.cfg op).take k)) : t.PinsOk := by
  have hcfg := h.cfg_eq
  cases h with
  | goesOn _ ht =>
    have hnext : ∀ p, pinFits t p ((body s.cfg op).take (k + 1)) :=
      fun p => pinFits_succ p (hs p) hm (by rw [ht, advance_pin])
    rcases advance_eq op k m (s.effect m.prim) with ⟨-, ha⟩ | ⟨hk, ha⟩
    · rw [State.pinsOk_running (by rw [ht, ha]; rfl), hcfg]
      exact hnext
    · refine State.pinsOk_of_pinsHigh (by rw [ht, ha]; rfl)
        (pinsHigh_of_end op s.cfg (k + 1) (hasBody_of_get _ _ _ _ hm) (by simpa using hk) hnext)
  | fails src bs hp _ _ ht =>
    rw [State.pinsOk_aborting (by rw [ht]; rfl), hcfg]
    exact ⟨⟨m, hm, src, hp⟩, fun p => (pinFits_congr t s p _ (by cases p <;> simp [ht, State.pin])).2 (hs p)⟩
  | timesOut _ hp _ _ _ ht =>
    obtain ⟨hcs, hrst⟩ := pinAfter_of_sample hm hp
    have hhigh := (State.pinsHigh_iff s).1 (pinsHigh_of_fits hs hcs hrst)
    rw [State.pinsOk_ready (by simp [ht])]
    simpa [ht] using hhigh
  | waits _ _ _ ht =>
    rw [State.pinsOk_running (by rw [ht]; rfl), hcfg]
    exact fun p => (pinFits_congr t s p _ (by cases p <;> simp [ht, State.pin])).2 (hs p)

theorem ReadyCase.pinsOk {i : Instr} {s t : State} (h : ReadyCase i s t) (hs : s.PinsHigh) : t.PinsOk := by
  have hhigh := (State.pinsHigh_iff s).1 hs
  cases h with
  | check r _ ht =>
    rw [State.pinsOk_ready (by simp [ht])]
    simpa [ht] using hhigh
  | access _ h => cases h <;> exact hhigh
  | begins _ _ h =>
    rcases performAt_zero_next i _ t h with ⟨m, hm, hc⟩ | ⟨-, ht⟩
    · refine hc.pinsOk hm (fun p => ?_)
      intro hp
      rw [State.acts_pin]
      exact hs p hp
    · rw [State.pinsOk_ready (by simp [ht])]
      simpa [ht] using hhigh

/-- Settles O50: each position moves the pins as `pinAfter` says, and every body ends with CS_N and RST_N high. -/
theorem stepKeepsThePins : Obligations.StepKeepsThePins := by
  intro s t hs h
  cases step_next s t h with
  | waiting _ _ ht => rwa [ht]
  | illegal _ _ _ hq _ _ ht => rw [ht]; exact (State.pinsOk_ready hq).1 hs
  | request _ _ _ hq _ _ h => exact h.pinsOk ((State.pinsHigh_iff _).2 ((State.pinsOk_ready hq).1 hs))
  | position _ _ _ hq hm h => exact h.pinsOk hm ((State.pinsOk_running hq).1 hs)
  | exhausted op k hq hk hb ht =>
    rw [ht]
    exact State.pinsOk_of_pinsHigh rfl (pinsHigh_of_end op s.cfg k hb hk ((State.pinsOk_running hq).1 hs))
  | aborted op k hq ht =>
    obtain ⟨⟨m, hm, src, hp⟩, hfits⟩ := (State.pinsOk_aborting hq).1 hs
    rw [ht, State.pinsOk_ready rfl]
    exact ⟨by simp, pinFits_not_low s .rstN (by decide) _ (hfits .rstN) (pinAfter_rstN_of_write hm hp)⟩

/-! ### The transitions of STATE (R45) -/

/-- A step from `STATE` `c` to `d` that the table of R45 gives to a position of a body. -/
def Ctrl.Moves (c d : Ctrl) : Prop :=
  d = c ∨ (c, d) ∈ [(Ctrl.resetting, Ctrl.uninitialized), (.resetting, .initializing), (.initializing, .idle),
    (.idle, .busy), (.busy, .idle), (.idle, .sleeping), (.initializing, .failed), (.idle, .failed), (.busy, .failed)]

/-- The register writes of a position make a transition of the table. -/
theorem moves_of_after {s : State} {op : Instr} {k : Nat} {m : Micro} (hm : (body s.cfg op)[k]? = some m)
    (hs : ctrlFits s op k) : s.ctrl.Moves (m.after.foldl ctrlAct s.ctrl) := by
  cases hd : entryCtrl op with
  | none => exact .inl (by rw [after_of_no_entry s.cfg op k m hd hm]; rfl)
  | some d =>
    obtain ⟨hmv, -⟩ := fits_at s.cfg op k m hm
    rw [Track.moves, hs.track hd] at hmv
    refine hmv.imp id (fun h => ?_)
    simp only [List.mem_cons, List.not_mem_nil, or_false] at h ⊢
    tauto

/-- A write and a wait are made in Initializing, Idle or Busy only, from which Failed can be reached. -/
theorem moves_failed {s : State} {op : Instr} {k : Nat} {m : Micro} (hm : (body s.cfg op)[k]? = some m)
    (hs : ctrlFits s op k) (hp : m.prim = .sample ∨ ∃ src, m.prim = .write src) : s.ctrl.Moves .failed := by
  cases hd : entryCtrl op with
  | none =>
    obtain ⟨a, bs, hw⟩ := memWrite_of_no_entry s.cfg op k m hd hm
    simp [hw] at hp
  | some d =>
    have hc : s.ctrl = .initializing ∨ s.ctrl = .idle ∨ s.ctrl = .busy := by
      obtain ⟨-, hf⟩ := fits_at s.cfg op k m hm
      rw [hs.track hd] at hf
      rcases hp with hp | ⟨src, hp⟩
      · simp only [hp] at hf
        exact hf.2.2
      · simp only [hp] at hf
        obtain ⟨-, hc, -⟩ := hf
        tauto
    rcases hc with hc | hc | hc <;> simp [Ctrl.Moves, hc]

theorem PrimCase.ctrl_moves {op : Instr} {k : Nat} {m : Micro} {s t : State} (h : PrimCase op k m s t)
    (hm : (body s.cfg op)[k]? = some m) (hs : ctrlFits s op k) : s.ctrl.Moves t.ctrl := by
  cases h with
  | goesOn _ ht => simpa [ht, advance_ctrl] using moves_of_after hm hs
  | fails _ _ _ _ _ ht => exact .inl (by simp [ht])
  | timesOut _ hp _ _ _ ht => simpa [ht] using moves_failed hm hs (.inl hp)
  | waits _ _ _ ht => exact .inl (by simp [ht])

/-- RESET, INIT and WAKE begin in Resetting and stay there in their first step. -/
theorem PrimCase.ctrl_of_recovers {op : Instr} {m : Micro} {s t : State} (h : PrimCase op 0 m s t)
    (hm : (body s.cfg op)[0]? = some m) (hr : recovers op = true) : t.ctrl = s.ctrl := by
  obtain rfl : micro none (.drive .rstN true) = m := by simpa [body_zero_of_recovers s.cfg op hr] using hm
  cases h with
  | goesOn _ ht => rw [ht, advance_ctrl, State.effect_ctrl]; rfl
  | fails _ _ hp => cases hp
  | timesOut _ hp => cases hp
  | waits hp => cases hp

theorem entryActs_of_recovers {op : Instr} (h : recovers op = true) : entryActs op = [.setCtrl .resetting] := by
  cases op with
  | reset => rfl
  | init blank => rfl
  | wake => rfl
  | _ => simp [recovers] at h

theorem entryActs_of_not_recovers {op : Instr} (h : recovers op = false) : entryActs op = [] := by
  cases op with
  | reset => simp [recovers] at h
  | init blank => simp [recovers] at h
  | wake => simp [recovers] at h
  | _ => rfl

theorem ReadyCase.ctrl_moves {i : Instr} {s t : State} (h : ReadyCase i s t) (hs : s.ctrl.stable = true) :
    t.ctrl = .resetting ∨ s.ctrl.Moves t.ctrl := by
  cases h with
  | check r hp ht =>
    obtain ⟨h₁, h₂⟩ := preCheck_not_fatal i s r hp
    exact .inr (.inl (by rw [ht, State.raise_preCheck s r h₁ h₂]; rfl))
  | access _ h => exact .inr (.inl (by cases h <;> rfl))
  | begins hp hb h =>
    rcases performAt_zero_next i _ t h with ⟨m, hm, hc⟩ | ⟨hnil, ht⟩
    · cases hr : recovers i with
      | true =>
        have ht := hc.ctrl_of_recovers hm hr
        rw [entryActs_of_recovers hr] at ht
        exact .inl ht
      | false =>
        obtain ⟨hlen, -⟩ := List.getElem?_eq_some_iff.1 hm
        have hfits := ctrlFits_zero_of_accepts hs ((preCheck_eq_none_iff i s).1 hp).1 (by simpa using hlen)
        have hmoves := hc.ctrl_moves hm hfits
        rw [entryActs_of_not_recovers hr] at hmoves
        exact .inr hmoves
    · obtain ⟨v, rfl⟩ := fill_of_body_nil _ i hb hnil
      exact .inr (.inl (by rw [ht]; rfl))

/-- From `STATE` and pins that follow the sequencer, a step makes a move of the table or begins a recovery. -/
theorem step_ctrl_moves {s t : State} (hc : s.CtrlOk) (hp : s.PinsOk) (h : step s = .next t) :
    (s.ctrl.stable = true ∧ t.ctrl = .resetting) ∨ s.ctrl.Moves t.ctrl := by
  cases step_next s t h with
  | waiting _ _ ht => exact .inr (.inl (by rw [ht]))
  | illegal _ _ _ _ _ _ ht => exact .inr (.inl (by rw [ht]; rfl))
  | request _ _ _ hq _ _ h =>
    have hst := (State.ctrlOk_ready hq).1 hc
    exact (h.ctrl_moves hst).imp_left (⟨hst, ·⟩)
  | position _ _ _ hq hm h => exact .inr (h.ctrl_moves hm ((State.ctrlOk_running hq).1 hc))
  | exhausted _ _ _ _ _ ht => exact .inr (.inl (by rw [ht]; rfl))
  | aborted op k hq ht =>
    obtain ⟨⟨m, hm, hw⟩, -⟩ := (State.pinsOk_aborting hq).1 hp
    rw [ht]
    exact .inr (moves_failed hm ((State.ctrlOk_aborting hq).1 hc) (.inr hw))

/-- Settles O51: the transitions are those of the positions' register writes, of a failure, and of the entry writes. -/
theorem onlyTheTransitionsOfTheTable : Obligations.OnlyTheTransitionsOfTheTable := by
  intro s t hc hp h
  rcases step_ctrl_moves hc hp h with hr | he | hm
  · exact .inr (.inl hr)
  · exact .inl he
  · exact .inr (.inr hm)

end Sys2Proof.Machine
end

section
/-! PROOFS. State (10_state.md): who writes `PB` and that it stays well formed (R40, R60, R245). -/

namespace Sys2Proof.Machine

/-! ### The positions that write PB -/

/-- No position of the list writes `PB`. -/
def KeepsPb (ms : List Micro) : Prop := ∀ m ∈ ms, ∀ a bs, m.prim ≠ .memWrite a bs

@[simp] theorem keepsPb_nil : KeepsPb [] := by simp [KeepsPb]

@[simp] theorem keepsPb_cons (m : Micro) (ms : List Micro) :
    KeepsPb (m :: ms) ↔ (∀ a bs, m.prim ≠ .memWrite a bs) ∧ KeepsPb ms := by simp [KeepsPb]

@[simp] theorem keepsPb_append (ms ns : List Micro) : KeepsPb (ms ++ ns) ↔ KeepsPb ms ∧ KeepsPb ns := by
  simp [KeepsPb, or_imp, forall_and]

/-- Register writes after a list do not write `PB`. -/
@[simp] theorem keepsPb_andThen (ms : List Micro) (as : List Action) : KeepsPb (andThen ms as) ↔ KeepsPb ms := by
  rcases List.eq_nil_or_concat ms with rfl | ⟨ns, n, rfl⟩
  · rfl
  · simp [List.concat_eq_append, andThen_append]

@[simp] theorem keepsPb_sendData (cmd : Option Command) (src : Source) : KeepsPb (sendData cmd src) := by
  simp [sendData, micro]

@[simp] theorem keepsPb_sendCommand (c : Cfg) (n : Command) : KeepsPb (sendCommand c n) := by
  have hdata : KeepsPb (payloadPhase n (payload c n)) := by
    cases payload c n with
    | nil => exact keepsPb_nil
    | cons p ps => exact keepsPb_sendData _ _
  simp [sendCommand, commandPhase, micro, hdata]

@[simp] theorem keepsPb_thenWait (ms : List Micro) (as : List Action) : KeepsPb (thenWait ms as) ↔ KeepsPb ms := by
  simp [thenWait]

@[simp] theorem keepsPb_resetPulse : KeepsPb resetPulse := by simp [resetPulse, micro]

theorem keepsPb_flatMap {β : Type} (g : β → List Micro) (l : List β) (h : ∀ b, KeepsPb (g b)) :
    KeepsPb (l.flatMap g) := by
  intro m hm
  obtain ⟨b, -, hb⟩ := List.mem_flatMap.1 hm
  exact h b m hb

@[simp] theorem keepsPb_displayBody (c : Cfg) (chunks : List Source) : KeepsPb (displayBody c chunks) := by
  simp [displayBody, keepsPb_flatMap]

@[simp] theorem keepsPb_initBody (c : Cfg) : KeepsPb (initBody c false) := by simp [initBody]

/-- Only the bodies of FILL and of INIT with BLANK write `PB` (R40). -/
theorem writer_of_memWrite (c : Cfg) (op : Instr) (k : Nat) (m : Micro) (a : Nat) (bs : List Byte)
    (hm : (body c op)[k]? = some m) (hp : m.prim = .memWrite a bs) : (∃ v, op = .fill v) ∨ op = .init true := by
  by_contra hno
  have hkeep : KeepsPb (body c op) := by
    cases op with
    | fill v => exact absurd (.inl ⟨v, rfl⟩) hno
    | init blank =>
      cases blank with
      | true => exact absurd (.inr rfl) hno
      | false => exact keepsPb_initBody c
    | showBuf => simp [body, showBody, micro]
    | clear => rw [body, clearBody_eq]; simp [keepsPb_flatMap]
    | _ => simp [body, resetBody, sleepBody]
  exact hkeep m (List.mem_of_getElem? hm) a bs hp

/-- A primitive leaves `PB`, or is a buffer write that goes on. -/
theorem PrimCase.pb_cases {op : Instr} {k : Nat} {m : Micro} {s t : State} (h : PrimCase op k m s t) :
    t.pb = s.pb ∨ ∃ a bs, m.prim = .memWrite a bs ∧ t.pb = s.pb.writeBytes a bs := by
  cases h with
  | goesOn _ ht =>
    rw [ht, advance_pb]
    cases hp : m.prim with
    | memWrite a bs => exact .inr ⟨a, bs, rfl, rfl⟩
    | _ => exact .inl (by simp [State.effect])
  | fails _ _ _ _ _ ht => exact .inl (by simp [ht])
  | timesOut _ _ _ _ _ ht => exact .inl (by simp [ht])
  | waits _ _ _ ht => exact .inl (by simp [ht])

/-! ### Who writes PB (R40) -/

theorem PrimCase.writer {op : Instr} {k : Nat} {m : Micro} {s t : State} (h : PrimCase op k m s t) {c : Cfg}
    (hm : (body c op)[k]? = some m) (hne : t.pb ≠ s.pb) : (∃ v, op = .fill v) ∨ op = .init true := by
  rcases h.pb_cases with he | ⟨a, bs, hp, -⟩
  · exact absurd he hne
  · exact writer_of_memWrite c op k m a bs hm hp

/-- At Ready, DRAW and SETPIX write `PB` in their one step and FILL begins to; INIT begins with the pulse. -/
theorem ReadyCase.writer {i : Instr} {s t : State} (h : ReadyCase i s t) (hne : t.pb ≠ s.pb) :
    (∃ len d, i = .draw len d) ∨ (∃ x y v, i = .setpix x y v) ∨ ∃ v, i = .fill v := by
  cases h with
  | check r _ ht => exact absurd (by simp [ht]) hne
  | access _ h =>
    cases h with
    | draw len data => exact .inl ⟨len, data, rfl⟩
    | setpix x y v => exact .inr (.inl ⟨x, y, v, rfl⟩)
    | getpix => exact absurd rfl hne
    | readbuf => exact absurd rfl hne
  | begins _ _ h =>
    rcases performAt_zero_next i _ t h with ⟨m, hm, hc⟩ | ⟨-, ht⟩
    · rcases hc.writer hm (by simpa using hne) with hf | rfl
      · exact .inr (.inr hf)
      · obtain rfl := Option.some.inj (hm.symm.trans (body_zero_of_recovers _ (.init true) rfl))
        rcases hc.pb_cases with he | ⟨_, _, hp, -⟩
        · exact absurd (by simpa using he) hne
        · cases hp
    · exact absurd (by simp [ht]) hne

/-- Settles O12: a change of `PB` is a buffer write, and only those operations have one. -/
theorem pixelBufferWriters : Obligations.PixelBufferWriters := by
  intro s t h hne
  cases step_next s t h with
  | waiting _ _ ht => exact absurd (by rw [ht]) hne
  | illegal _ _ _ _ _ _ ht => exact absurd (by rw [ht]; rfl) hne
  | request req rest i hq hr hd h => exact .inl ⟨req, rest, i, hq, hr, hd, h.writer hne⟩
  | position op k _ hq hm h => exact .inr ⟨op, k, hq, h.writer hm hne⟩
  | exhausted _ _ _ _ _ ht => exact absurd (by rw [ht]; rfl) hne
  | aborted _ _ _ ht => exact absurd (by rw [ht]; rfl) hne

/-! ### A request that decodes is well formed (R91, R95) -/

theorem formatN_wellFormed {i j : Instr} {rest : List Byte} (hi : i.wellFormed = true) (h : formatN i rest = .ok j) :
    j.wellFormed = true := by
  unfold formatN at h
  split at h <;> cases h
  exact hi

theorem formatF_wellFormed {mk : Bit → Instr} {j : Instr} {rest : List Byte} (hmk : ∀ b, (mk b).wellFormed = true)
    (h : formatF mk rest = .ok j) : j.wellFormed = true := by
  unfold formatF at h
  split at h
  · split at h <;> cases h
    exact hmk _
  · cases h

theorem formatV_wellFormed {mk : Byte → Instr} {j : Instr} {rest : List Byte} (hmk : ∀ v, (mk v).wellFormed = true)
    (h : formatV mk rest = .ok j) : j.wellFormed = true := by
  unfold formatV at h
  split at h <;> cases h
  exact hmk _

/-- Format B is the one that checks: the data are as many as `L` says. -/
theorem formatB_wellFormed {mk : BitVec 32 → List Byte → Instr} {j : Instr} {rest : List Byte}
    (hmk : ∀ len data, data.length = len.toNat → (mk len data).wellFormed = true) (h : formatB mk rest = .ok j) :
    j.wellFormed = true := by
  unfold formatB at h
  split at h
  · split at h <;> cases h
    exact hmk _ _ ‹_›
  · cases h

theorem formatP_wellFormed {mk : BitVec 16 → BitVec 16 → Instr} {j : Instr} {rest : List Byte}
    (hmk : ∀ x y, (mk x y).wellFormed = true) (h : formatP mk rest = .ok j) : j.wellFormed = true := by
  unfold formatP at h
  split at h <;> cases h
  exact hmk _ _

theorem formatPW_wellFormed {mk : BitVec 16 → BitVec 16 → Bit → Instr} {j : Instr} {rest : List Byte}
    (hmk : ∀ x y v, (mk x y v).wellFormed = true) (h : formatPW mk rest = .ok j) : j.wellFormed = true := by
  unfold formatPW at h
  split at h
  · split at h <;> cases h
    exact hmk _ _ _
  · cases h

/-- The operation map is a chain of choices: a fact of what is chosen on either side holds of what is chosen. -/
theorem wellFormed_of_ite {p : Prop} [Decidable p] {a b : Except DecodeError Instr} {j : Instr}
    (ha : a = .ok j → j.wellFormed = true) (hb : b = .ok j → j.wellFormed = true) :
    (if p then a else b) = .ok j → j.wellFormed = true := by
  split
  · exact ha
  · exact hb

theorem decodeOp_wellFormed {op : Byte} {rest : List Byte} {i : Instr} (h : decodeOp op rest = .ok i) :
    i.wellFormed = true := by
  revert h
  unfold decodeOp
  exact wellFormed_of_ite (formatN_wellFormed rfl) <|
    wellFormed_of_ite (formatF_wellFormed fun _ => rfl) <|
    wellFormed_of_ite (formatB_wellFormed fun _ _ hl => by simpa [Instr.wellFormed] using hl) <|
    wellFormed_of_ite (formatN_wellFormed rfl) <|
    wellFormed_of_ite (formatN_wellFormed rfl) <|
    wellFormed_of_ite (formatN_wellFormed rfl) <|
    wellFormed_of_ite (formatN_wellFormed rfl) <|
    wellFormed_of_ite (formatB_wellFormed fun _ _ hl => by simpa [Instr.wellFormed] using hl) <|
    wellFormed_of_ite (formatV_wellFormed fun _ => rfl) <|
    wellFormed_of_ite (formatPW_wellFormed fun _ _ _ => rfl) <|
    wellFormed_of_ite (formatP_wellFormed fun _ _ => rfl) <|
    wellFormed_of_ite (formatN_wellFormed rfl) nofun

theorem decodeRequest_wellFormed {req : List Byte} {i : Instr} (h : decodeRequest req = .ok i) :
    i.wellFormed = true := by
  cases req with
  | nil => cases h
  | cons op rest => exact decodeOp_wellFormed h

/-! ### PB stays well formed (R40, R60, R245) -/

theorem State.pbOk_of_pb_eq {s t : State} (hs : s.PbOk) (hcfg : t.cfg = s.cfg) (hpb : t.pb = s.pb) : t.PbOk := by
  rw [State.PbOk, hcfg, hpb]
  exact hs

/-- A position's buffer write lies inside the buffer. -/
theorem PrimCase.pbOk {op : Instr} {k : Nat} {m : Micro} {s t : State} (h : PrimCase op k m s t)
    (hm : (body s.cfg op)[k]? = some m) (hs : s.PbOk) : t.PbOk := by
  rcases h.pb_cases with he | ⟨a, bs, hp, he⟩
  · exact State.pbOk_of_pb_eq hs h.cfg_eq he
  · obtain ⟨-, hf⟩ := fits_at s.cfg op k m hm
    simp only [hp] at hf
    rw [State.PbOk, h.cfg_eq, he]
    exact PixelBuffer.wf_writeBytes _ _ _ _ hs hf

/-- The checks and the format keep DRAW and SETPIX inside the buffer (R271, R275). -/
theorem AccessCase.pbOk {i : Instr} {s t : State} (h : AccessCase s i t) (hc : legal s.cfg = true)
    (hw : i.wellFormed = true) (hp : operandError s.cfg i = none) (hs : s.PbOk) : t.PbOk := by
  cases h with
  | draw len data =>
    have hlen : len.toNat = nbuf s.cfg := by simpa [operandError] using hp
    have hdata : data.length = len.toNat := by simpa [Instr.wellFormed] using hw
    exact PixelBuffer.wf_writeBytes _ _ _ _ hs (by rw [hdata, hlen, Nat.zero_add]; rfl)
  | setpix x y v =>
    have hin : x.toNat < s.cfg.width ∧ y.toNat < s.cfg.height := by simpa [operandError, inPanel] using hp
    exact PixelBuffer.wf_writePixel _ _ _ _ _ hs (pixByte_lt_nbuf s.cfg _ _ hc hin.1 hin.2)
  | getpix => exact hs
  | readbuf => exact hs

theorem ReadyCase.pbOk {i : Instr} {s t : State} (h : ReadyCase i s t) (hc : legal s.cfg = true)
    (hw : i.wellFormed = true) (hs : s.PbOk) : t.PbOk := by
  cases h with
  | check r _ ht => exact State.pbOk_of_pb_eq hs (by simp [ht]) (by simp [ht])
  | access hp h => exact h.pbOk hc hw ((preCheck_eq_none_iff i s).1 hp).2 hs
  | begins _ _ h =>
    rcases performAt_zero_next i _ t h with ⟨m, hm, hcase⟩ | ⟨-, ht⟩
    · exact hcase.pbOk hm (State.pbOk_of_pb_eq hs (by simp) (by simp))
    · exact State.pbOk_of_pb_eq hs (by simp [ht]) (by simp [ht])

/-- Settles O48: every write of `PB` lies inside the buffer, and each keeps the two lists canonical and masked. -/
theorem stepKeepsThePixelBufferWellFormed : Obligations.StepKeepsThePixelBufferWellFormed := by
  intro s t hc hs h
  cases step_next s t h with
  | waiting _ _ ht => rwa [ht]
  | illegal _ _ _ _ _ _ ht => exact State.pbOk_of_pb_eq hs (by rw [ht]; rfl) (by rw [ht]; rfl)
  | request _ _ _ _ _ hd h => exact h.pbOk hc (decodeRequest_wellFormed hd) hs
  | position _ _ _ _ hm h => exact h.pbOk hm hs
  | exhausted _ _ _ _ _ ht => exact State.pbOk_of_pb_eq hs (by rw [ht]; rfl) (by rw [ht]; rfl)
  | aborted _ _ _ ht => exact State.pbOk_of_pb_eq hs (by rw [ht]; rfl) (by rw [ht]; rfl)

end Sys2Proof.Machine
end

section
/-! PROOFS. State (10_state.md): the block never reads what it only writes (R39, R43). -/

namespace Sys2Proof.Machine

/-! ### A state over other outputs -/

/-- The state with the events `T` and the responses `H` before its own, and `STATUS` at `x`. -/
def State.over (u : State) (x : Byte) (T : List Event) (H : List (List Byte)) : State :=
  { u with status := x, trace := T ++ u.trace, hrsp := H ++ u.hrsp }

section
variable (u : State) (x : Byte) (T : List Event) (H : List (List Byte))

@[simp] theorem State.over_cfg : (u.over x T H).cfg = u.cfg := rfl
@[simp] theorem State.over_seq : (u.over x T H).seq = u.seq := rfl
@[simp] theorem State.over_polls : (u.over x T H).polls = u.polls := rfl
@[simp] theorem State.over_pb : (u.over x T H).pb = u.pb := rfl
@[simp] theorem State.over_hreq : (u.over x T H).hreq = u.hreq := rfl
@[simp] theorem State.over_nextLevel : (u.over x T H).nextLevel = u.nextLevel := rfl
@[simp] theorem State.over_nextAnswer : (u.over x T H).nextAnswer = u.nextAnswer := rfl
@[simp] theorem State.over_eraseOutputs : (u.over x T H).eraseOutputs = u.eraseOutputs := rfl

/-- Every state stands over itself with the outputs taken out. -/
theorem State.eraseOutputs_over : u.eraseOutputs.over u.status u.trace u.hrsp = u := by
  simp [State.over, State.eraseOutputs]

/-! ### The register writes and the port primitives -/

@[simp] theorem State.over_setSeq (q : Seq) : (u.over x T H).setSeq q = (u.setSeq q).over x T H := rfl
@[simp] theorem State.over_setPolls (n : Nat) : (u.over x T H).setPolls n = (u.setPolls n).over x T H := rfl
@[simp] theorem State.over_setCtrl (c : Ctrl) : (u.over x T H).setCtrl c = (u.setCtrl c).over x T H := rfl
@[simp] theorem State.over_setPb (p : PixelBuffer) : (u.over x T H).setPb p = (u.setPb p).over x T H := rfl
@[simp] theorem State.over_takeRequest : (u.over x T H).takeRequest = u.takeRequest.over x T H := rfl

@[simp] theorem State.over_emit (e : Event) : (u.over x T H).emit e = (u.emit e).over x T H := by
  simp [State.over, State.emit]

@[simp] theorem State.over_drive (p : Pin) (v : Bit) : (u.over x T H).drive p v = (u.drive p v).over x T H := by
  have hpin : (u.over x T H).setPin p (.driven v) = (u.setPin p (.driven v)).over x T H := by cases p <;> rfl
  rw [State.drive, hpin, State.over_emit]
  rfl

@[simp] theorem State.over_busSample : (u.over x T H).busSample = u.busSample.over x T H := by
  have htake : (u.over x T H).takeLevel = u.takeLevel.over x T H := by
    cases hb : u.busyIn <;> simp [State.takeLevel, hb, State.over]
  simp [State.busSample, htake]

@[simp] theorem State.over_busWrite (bs : List Byte) : (u.over x T H).busWrite bs = (u.busWrite bs).over x T H := by
  have htake : (u.over x T H).takeAnswer = u.takeAnswer.over x T H := by
    cases hf : u.cfg.transportCanFail <;> cases ha : u.answerIn <;> simp [State.takeAnswer, hf, ha, State.over]
  simp [State.busWrite, htake]

@[simp] theorem State.over_acts (as : List Action) : (u.over x T H).acts as = (u.acts as).over x T H := by
  induction as generalizing u with
  | nil => rfl
  | cons a as ih =>
    have hact : (u.over x T H).act a = (u.act a).over x T H := by cases a <;> rfl
    rw [State.acts_cons, State.acts_cons, hact, ih]

/-! ### How an operation ends: `STATUS` is written, the rest as before -/

@[simp] theorem State.over_finish (r : Result) (d : List Byte) :
    (u.over x T H).finish r d = (u.finish r d).over r.code T H := by
  simp [State.over, State.finish]

@[simp] theorem State.over_raise (r : Result) : (u.over x T H).raise r = (u.raise r).over r.code T H := by
  cases r <;> simp [State.raise]

@[simp] theorem State.over_abort : (u.over x T H).abort = u.abort.over Result.busTransferFailure.code T H := by
  simp only [State.abort, State.over_drive, State.over_raise]

@[simp] theorem preCheck_over (i : Instr) : preCheck i (u.over x T H) = preCheck i u := rfl

end

/-! ### Outcomes over other outputs -/

/-- The first outcome is the second, its next state over the events `T` and the responses `H`. -/
inductive OutcomeOver (T : List Event) (H : List (List Byte)) :
    Host.Outcome State Fault Refusal → Host.Outcome State Fault Refusal → Prop
  | next (x : Byte) (u : State) : OutcomeOver T H (.next (u.over x T H)) (.next u)
  | fault (f : Fault) : OutcomeOver T H (.fault f) (.fault f)
  | refused (r : Refusal) : OutcomeOver T H (.refused r) (.refused r)

theorem outcomeOver_of_eq {T : List Event} {H : List (List Byte)} {s u : State} (x : Byte) (h : s = u.over x T H) :
    OutcomeOver T H (.next s) (.next u) := h ▸ .next x u

/-- A meaning that commutes with putting other outputs underneath: it never reads them. -/
def Ignores (f : State → Host.Outcome State Fault Refusal) : Prop :=
  ∀ (u : State) (x : Byte) (T : List Event) (H : List (List Byte)), OutcomeOver T H (f (u.over x T H)) (f u)

theorem advance_ignores (op : Instr) (k : Nat) (m : Micro) : Ignores (fun s => .next (advance op k m s)) := by
  intro u x T H
  simp only [advance, State.over_acts, State.over_cfg, State.over_setSeq, State.over_finish]
  split <;> exact .next _ _

theorem poll_ignores (op : Instr) (k : Nat) (m : Micro) : Ignores (fun s => .next (poll op k m s)) := by
  intro u x T H
  simp only [poll, State.over_busSample, State.over_nextLevel, State.over_cfg, State.over_polls, State.over_setPolls,
    State.over_setSeq, State.over_raise]
  split
  · exact advance_ignores op k m _ x T H
  · split
    · split <;> exact .next _ _
    · exact .next _ _

theorem transfer_ignores (op : Instr) (k : Nat) (m : Micro) (bs : List Byte) :
    Ignores (fun s => .next (transfer op k m bs s)) := by
  intro u x T H
  simp only [transfer, State.over_nextAnswer, State.over_busWrite, State.over_setSeq]
  split
  · exact advance_ignores op k m _ x T H
  · exact .next _ _

theorem perform_ignores (op : Instr) (k : Nat) (m : Micro) : Ignores (perform op k m) := by
  intro u x T H
  simp only [perform, State.over_drive, State.over_emit, State.over_pb, State.over_cfg, State.over_setPb]
  split
  · exact advance_ignores op k m _ x T H
  · exact advance_ignores op k m _ x T H
  · split
    · exact transfer_ignores op k m _ u x T H
    · exact .fault _
  · exact poll_ignores op k m u x T H
  · exact advance_ignores op k m _ x T H
  · split
    · exact advance_ignores op k m u x T H
    · exact .fault _

theorem performAt_ignores (op : Instr) (k : Nat) : Ignores (performAt op k) := by
  intro u x T H
  simp only [performAt, State.over_cfg, State.over_finish]
  split
  · exact perform_ignores op k _ u x T H
  · exact .next _ _

theorem sequenced_ignores (op : Instr) (entry : List Action) : Ignores (sequenced op entry) := by
  intro u x T H
  simp only [sequenced, State.over_seq, preCheck_over, State.over_raise, State.over_acts, State.over_abort]
  split
  · split
    · exact .next _ _
    · exact performAt_ignores op 0 _ x T H
  · split
    · exact performAt_ignores op _ u x T H
    · exact .refused _
  · split
    · exact .next _ _
    · exact .refused _

theorem immediate_ignores (op : Instr) (effect : State → Host.Outcome State Fault Refusal) (he : Ignores effect) :
    Ignores (immediate op effect) := by
  intro u x T H
  simp only [immediate, State.over_seq, preCheck_over, State.over_raise]
  split
  · split
    · exact .next _ _
    · exact he u x T H
  · exact .refused _
  · exact .refused _

theorem transaction_ignores (n : Command) : Ignores (transaction n) := by
  intro u x T H
  cases hq : u.seq with
  | ready =>
    simp only [transaction, State.over_seq, hq]
    exact .refused _
  | running op k =>
    simp only [transaction, State.over_seq, hq]
    by_cases hn : commandAt u.cfg op k = some n
    · simp only [State.over_cfg, hn, ↓reduceIte]
      exact performAt_ignores op k u x T H
    · simp only [State.over_cfg, hn, ↓reduceIte]
      exact .refused _
  | aborting op k =>
    simp only [transaction, State.over_seq, hq]
    by_cases hn : commandAt u.cfg op k = some n
    · simp only [State.over_cfg, State.over_abort, hn, ↓reduceIte]
      exact .next _ _
    · simp only [State.over_cfg, hn, ↓reduceIte]
      exact .refused _

theorem execDraw_ignores (len : BitVec 32) (data : List Byte) : Ignores (execDraw len data) :=
  immediate_ignores _ _ fun u x T H => outcomeOver_of_eq Result.ok.code (by simp)

theorem execSetpix_ignores (a b : BitVec 16) (v : Bit) : Ignores (execSetpix a b v) :=
  immediate_ignores _ _ fun u x T H => outcomeOver_of_eq Result.ok.code (by simp)

theorem execGetpix_ignores (a b : BitVec 16) : Ignores (execGetpix a b) := by
  refine immediate_ignores _ _ fun u x T H => ?_
  simp only [State.over_pb, State.over_cfg, State.over_finish]
  split
  · exact .next _ _
  · exact .fault _

theorem execReadbuf_ignores : Ignores execReadbuf := by
  refine immediate_ignores _ _ fun u x T H => ?_
  simp only [State.over_pb, State.over_cfg, State.over_finish]
  split
  · exact .next _ _
  · exact .fault _

/-- No instruction reads the outputs: each is sequenced, immediate or a transaction. -/
theorem exec_ignores (i : Instr) : Ignores (exec i) := by
  cases i with
  | reset => exact sequenced_ignores .reset [.setCtrl .resetting]
  | init blank => exact sequenced_ignores (.init blank) [.setCtrl .resetting]
  | display len data => exact sequenced_ignores (.display len data) []
  | showBuf => exact sequenced_ignores .showBuf []
  | clear => exact sequenced_ignores .clear []
  | sleep => exact sequenced_ignores .sleep []
  | wake => exact sequenced_ignores .wake [.setCtrl .resetting]
  | fill val => exact sequenced_ignores (.fill val) []
  | draw len data => exact execDraw_ignores len data
  | setpix a b v => exact execSetpix_ignores a b v
  | getpix a b => exact execGetpix_ignores a b
  | readbuf => exact execReadbuf_ignores
  | _ => exact transaction_ignores _

theorem step_ignores : Ignores step := by
  intro u x T H
  simp only [step, State.over_seq, State.over_hreq, State.over_cfg, State.over_takeRequest, State.illegalRequest,
    State.over_raise]
  split
  · split
    · exact .next _ _
    · split
      · exact exec_ignores _ _ x T H
      · exact .next _ _
  · exact exec_ignores _ u x T H
  · exact exec_ignores _ u x T H

/-- Settles O10: a step commutes with putting other outputs underneath, and every state stands over its erased one. -/
theorem outputsAreNeverRead : Obligations.OutputsAreNeverRead := by
  intro s
  have h : OutcomeOver s.trace s.hrsp (step s) (step s.eraseOutputs) := by
    simpa [State.eraseOutputs_over] using step_ignores s.eraseOutputs s.status s.trace s.hrsp
  cases hs : step s.eraseOutputs <;> rw [hs] at h <;> generalize step s = o at h <;> cases h
  case next u x =>
    refine ⟨fun t ht => ?_, by simp, by simp⟩
    cases ht
    exact ⟨u, rfl, (State.over_eraseOutputs u x _ _).symm, rfl, rfl⟩
  case fault f => simp
  case refused r => simp

end Sys2Proof.Machine
end

section
/-! PROOFS. Memory (20_memory.md): after PON, DRF and DSLP nothing is written before BUSY is idle again (R72, and R304 to
R306 of 70_reset_and_hazards.md). -/

namespace Sys2Proof.Machine

/-! ### The observer over a piece of a body -/

/-- The observer after the events of a piece of a body. -/
def watchPiece (c : Cfg) (w : BusWatch) (ms : List Micro) : BusWatch := (pieceEvents c ms).foldl (watch c) w

@[simp] theorem watchPiece_nil (c : Cfg) (w : BusWatch) : watchPiece c w [] = w := rfl

theorem watchPiece_append (c : Cfg) (w : BusWatch) (ms ns : List Micro) :
    watchPiece c w (ms ++ ns) = watchPiece c (watchPiece c w ms) ns := by
  simp [watchPiece, pieceEvents]

/-- Register writes are no events. -/
@[simp] theorem watchPiece_andThen (c : Cfg) (w : BusWatch) (ms : List Micro) (as : List Action) :
    watchPiece c w (andThen ms as) = watchPiece c w ms := by
  rcases List.eq_nil_or_concat ms with rfl | ⟨ns, n, rfl⟩
  · rfl
  · rw [List.concat_eq_append, andThen_append, watchPiece_append, watchPiece_append]
    rfl

theorem watch_sample (c : Cfg) (w : BusWatch) (l : Bit) :
    watch c w (.sample l) = if l = c.idleLevel then { w with owed := false, tail := false } else w := rfl

theorem watch_write (c : Cfg) (w : BusWatch) (bs : List Byte) (r : Answer) :
    watch c w (.write bs r) =
      if w.dc = .driven false then
        { w with ok := w.ok && !w.owed, owed := mustWait c bs, tail := bs == [c.opc.dslp] }
      else { w with ok := w.ok && (!w.owed || w.tail), tail := false } := rfl

/-- A write that was not allowed is never forgotten. -/
theorem ok_of_ok_watch {c : Cfg} {w : BusWatch} {e : Event} (h : (watch c w e).ok = true) : w.ok = true := by
  cases e with
  | drive p v => cases p <;> exact h
  | hold ms => exact h
  | sample l =>
    rw [watch_sample] at h
    split at h <;> exact h
  | write bs r =>
    rw [watch_write] at h
    split at h
    · exact (Bool.and_eq_true_iff.1 h).1
    · exact (Bool.and_eq_true_iff.1 h).1

theorem ok_of_ok_watchPiece {c : Cfg} {w : BusWatch} {ms : List Micro} (h : (watchPiece c w ms).ok = true) :
    w.ok = true := by
  unfold watchPiece at h
  generalize pieceEvents c ms = es at h
  induction es generalizing w with
  | nil => exact h
  | cons e es ih => exact ok_of_ok_watch (ih h)

/-- What is allowed over a whole body is allowed up to every position. -/
theorem ok_watchPiece_take {c : Cfg} {w : BusWatch} {ms : List Micro} (k : Nat) (h : (watchPiece c w ms).ok = true) :
    (watchPiece c w (ms.take k)).ok = true := by
  rw [← List.take_append_drop k ms, watchPiece_append] at h
  exact ok_of_ok_watchPiece h

theorem watchPiece_take_succ (c : Cfg) (w : BusWatch) (ms : List Micro) (k : Nat) (m : Micro) (hm : ms[k]? = some m) :
    watchPiece c w (ms.take (k + 1)) = watchPiece c (watchPiece c w (ms.take k)) [m] := by
  rw [List.take_add_one, hm, watchPiece_append]
  rfl

/-! ### Phases and transactions -/

/-- A data phase is allowed where nothing is owed or as the payload of DSLP, and settles nothing (R131). -/
theorem watchPiece_sendData (c : Cfg) (w : BusWatch) (cmd : Option Command) (src : Source) :
    watchPiece c w (sendData cmd src) =
      { dc := .driven true, owed := w.owed, tail := false, ok := w.ok && (!w.owed || w.tail) } := by
  cases src <;> rfl

/-- A command phase is allowed where nothing is owed; from then on its own wait is owed (R130, R306). -/
theorem watchPiece_commandPhase (c : Cfg) (w : BusWatch) (m : Command) :
    watchPiece c w (commandPhase c m) =
      { dc := .driven false, owed := mustWait c [c.opc.code m], tail := [c.opc.code m] == [c.opc.dslp],
        ok := w.ok && !w.owed } := rfl

/-- Every write so far was allowed and no idle sample is owed. -/
def BusWatch.Settled (w : BusWatch) : Prop := w.ok = true ∧ w.owed = false

/-- From an observer that satisfies `P`, the piece leads to a settled one. -/
def Settles (c : Cfg) (P : BusWatch → Prop) (ms : List Micro) : Prop := ∀ w, P w → (watchPiece c w ms).Settled

theorem Settles.append {c : Cfg} {P : BusWatch → Prop} {ms ns : List Micro} (h₁ : Settles c P ms)
    (h₂ : Settles c BusWatch.Settled ns) : Settles c P (ms ++ ns) := by
  intro w hw
  rw [watchPiece_append]
  exact h₂ _ (h₁ w hw)

theorem Settles.andThen {c : Cfg} {P : BusWatch → Prop} {ms : List Micro} (h : Settles c P ms) (as : List Action) :
    Settles c P (andThen ms as) := by
  intro w hw
  rw [watchPiece_andThen]
  exact h w hw

theorem settles_flatMap {β : Type} {c : Cfg} (g : β → List Micro) (l : List β)
    (h : ∀ b, Settles c BusWatch.Settled (g b)) : Settles c BusWatch.Settled (l.flatMap g) := by
  induction l with
  | nil => exact fun _ hw => hw
  | cons b l ih =>
    rw [List.flatMap_cons]
    exact (h b).append ih

theorem settles_sendData (c : Cfg) (cmd : Option Command) (src : Source) :
    Settles c BusWatch.Settled (sendData cmd src) := by
  rintro w ⟨hok, howed⟩
  rw [watchPiece_sendData]
  simp [BusWatch.Settled, hok, howed]

/-- Distinct opcode bytes belong to distinct commands (R98). -/
theorem Opc.code_injective {t : Opc} (ht : opcDistinct t = true) : Function.Injective t.code := by
  have hnodup : (Command.all.map t.code).Nodup := by simpa [opcDistinct] using ht
  have hall : ∀ m : Command, m ∈ Command.all := by
    intro m
    cases m <;> decide
  exact fun m n h => List.inj_on_of_nodup_map hnodup (hall m) (hall n) h

/-- The commands after which the block must wait (R306). -/
theorem mustWait_code {c : Cfg} (hc : opcDistinct c.opc = true) (m : Command) :
    mustWait c [c.opc.code m] = true ↔ m = .pon ∨ m = .drf ∨ m = .dslp := by
  have hcode : ∀ n : Command, c.opc.code m = c.opc.code n ↔ m = n := fun _ => (Opc.code_injective hc).eq_iff
  simp only [mustWait, Bool.or_eq_true, beq_iff_eq, List.cons.injEq, and_true, or_assoc]
  exact or_congr (hcode .pon) (or_congr (hcode .drf) (hcode .dslp))

/-- A command without a wait, with its payload, leaves nothing owed. -/
theorem settles_sendCommand {c : Cfg} (hc : opcDistinct c.opc = true) (m : Command)
    (hm : ¬ (m = .pon ∨ m = .drf ∨ m = .dslp)) : Settles c BusWatch.Settled (sendCommand c m) := by
  have hphase : Settles c BusWatch.Settled (commandPhase c m) := by
    rintro w ⟨hok, howed⟩
    rw [watchPiece_commandPhase]
    exact ⟨by simp [hok, howed], by rwa [← mustWait_code hc, Bool.not_eq_true] at hm⟩
  refine hphase.append ?_
  cases payload c m with
  | nil => exact fun _ hw => hw
  | cons p ps => exact settles_sendData c _ _

/-- A command with a wait is allowed as a whole: it has no payload, or is DSLP, whose payload may follow. -/
theorem ok_watchPiece_sendCommand {c : Cfg} {m : Command} (hm : payload c m = [] ∨ m = .dslp) {w : BusWatch}
    (hw : w.Settled) : (watchPiece c w (sendCommand c m)).ok = true := by
  obtain ⟨hok, howed⟩ := hw
  rw [sendCommand, watchPiece_append, watchPiece_commandPhase]
  cases hp : payload c m with
  | nil => simp [payloadPhase, hok, howed]
  | cons p ps =>
    obtain rfl : m = .dslp := hm.resolve_left (by simp [hp])
    rw [payloadPhase_cons, watchPiece_sendData]
    simp [hok, howed, Opc.code]

/-- A wait that ends settles what its command owes (R136). -/
theorem settles_thenWait {c : Cfg} {ms : List Micro} (as : List Action)
    (h : ∀ w : BusWatch, w.Settled → (watchPiece c w ms).ok = true) : Settles c BusWatch.Settled (thenWait ms as) := by
  intro w hw
  rw [thenWait, watchPiece_append, watchPiece_andThen]
  simpa [BusWatch.Settled, watchPiece, pieceEvents, watch] using h w hw

/-! ### The bodies -/

/-- The reset pulse settles whatever was owed (R280). -/
theorem settles_resetPulse (c : Cfg) : Settles c (fun w => w.ok = true) resetPulse := fun _ hok => ⟨hok, rfl⟩

/-- The pixel loop is not on the bus. -/
@[simp] theorem watchPiece_fillLoop (c : Cfg) (w : BusWatch) (v : Byte) : watchPiece c w (fillLoop c v) = w := by
  have hnone : pieceEvents c (fillLoop c v) = [] := by simp [pieceEvents, fillLoop_map, micro]
  rw [watchPiece, hnone, List.foldl_nil]

theorem settles_displayBody {c : Cfg} (hc : opcDistinct c.opc = true) (chunks : List Source) :
    Settles c BusWatch.Settled (displayBody c chunks) := by
  have hdtm2 := settles_sendCommand hc .dtm2 (by decide)
  have hdata := settles_flatMap (sendData none) chunks (settles_sendData c none)
  have hdsp := settles_sendCommand hc .dsp (by decide)
  have hdrf : Settles c BusWatch.Settled (thenWait (andThen (sendCommand c .drf) [.setCtrl .busy]) [.setCtrl .idle]) :=
    settles_thenWait _ fun w hw => by
      rw [watchPiece_andThen]
      exact ok_watchPiece_sendCommand (.inl rfl) hw
  exact ((hdtm2.append hdata).append hdsp).append hdrf

theorem settles_showBody {c : Cfg} (hc : opcDistinct c.opc = true) : Settles c BusWatch.Settled (showBody c) :=
  settles_displayBody hc (bufferChunks c)

theorem settles_blankRefresh {c : Cfg} (hc : opcDistinct c.opc = true) :
    Settles c BusWatch.Settled (blankRefresh c) := by
  intro w hw
  rw [blankRefresh, List.append_assoc, watchPiece_append, watchPiece_fillLoop]
  exact settles_showBody hc w hw

theorem settles_initBody {c : Cfg} (hc : opcDistinct c.opc = true) (blank : Bit) :
    Settles c (fun w => w.ok = true) (initBody c blank) := by
  have hpulse := (settles_resetPulse c).andThen [.setCtrl .initializing]
  have hbtst := settles_sendCommand hc .btst (by decide)
  have hpwr := settles_sendCommand hc .pwr (by decide)
  have hpon := settles_thenWait [] fun w hw => ok_watchPiece_sendCommand (c := c) (m := .pon) (.inl rfl) hw
  have hpsr := settles_sendCommand hc .psr (by decide)
  have hpll := settles_sendCommand hc .pll (by decide)
  have htres := settles_sendCommand hc .tres (by decide)
  have hvdcs := settles_sendCommand hc .vdcs (by decide)
  have hcdi := (settles_sendCommand hc .cdi (by decide)).andThen [.setCtrl .idle]
  have hblank : Settles c BusWatch.Settled (if blank then blankRefresh c else []) := by
    cases blank with
    | false => exact fun _ hw => hw
    | true => exact settles_blankRefresh hc
  exact ((((((((hpulse.append hbtst).append hpwr).append hpon).append hpsr).append hpll).append htres).append
    hvdcs).append hcdi).append hblank

theorem settles_clearBody {c : Cfg} (hc : opcDistinct c.opc = true) : Settles c BusWatch.Settled (clearBody c) := by
  rw [clearBody_eq]
  exact (settles_sendCommand hc .dtm1 (by decide)).append (settles_flatMap _ _ fun _ => settles_sendData c none _)

theorem settles_sleepBody (c : Cfg) : Settles c BusWatch.Settled (sleepBody c) :=
  settles_thenWait _ fun _ hw => ok_watchPiece_sendCommand (.inr rfl) hw

/-- Every operation that writes `STATE` leaves nothing owed: from anything allowed where it begins with the reset pulse,
else from a settled observer. -/
theorem settles_body {c : Cfg} (hc : opcDistinct c.opc = true) (op : Instr) (hop : entryCtrl op ≠ none) :
    Settles c (fun w => w.ok = true ∧ (w.owed = true → entryCtrl op = some .resetting)) (body c op) := by
  rintro w ⟨hok, howed⟩
  have hidle : entryCtrl op = some .idle → w.Settled := fun h => ⟨hok, by simpa [h] using howed⟩
  cases op with
  | reset => exact (settles_resetPulse c).andThen _ w hok
  | init blank => exact settles_initBody hc blank w hok
  | wake => exact settles_initBody hc false w hok
  | display len data => exact settles_displayBody hc _ w (hidle rfl)
  | showBuf => exact settles_showBody hc w (hidle rfl)
  | clear => exact settles_clearBody hc w (hidle rfl)
  | sleep => exact settles_sleepBody c w (hidle rfl)
  | _ => exact absurd rfl hop

/-- An operation that never writes `STATE` is not on the bus. -/
theorem watchPiece_body_of_no_entry (c : Cfg) (w : BusWatch) (op : Instr) (hop : entryCtrl op = none) :
    watchPiece c w (body c op) = w := by
  cases op with
  | reset | init | wake | display | showBuf | clear | sleep => cases hop
  | fill v => exact watchPiece_fillLoop c w v
  | _ => rfl

/-- The observer with which an operation may begin, `STATE` at `ctrl`: an idle sample is owed only before the reset pulse
or, after a failure, before an operation that writes nothing. -/
def BusWatch.MayBegin (w : BusWatch) (op : Instr) (ctrl : Ctrl) : Prop :=
  w.ok = true ∧ (w.owed = true → entryCtrl op = some .resetting ∨ (entryCtrl op = none ∧ ctrl = .failed))

/-- Over a body begun so every write is allowed, and at its end an idle sample is owed only where the body wrote nothing
after a failure. -/
theorem body_watched {c : Cfg} (hc : opcDistinct c.opc = true) {w : BusWatch} {op : Instr} {ctrl : Ctrl}
    (hw : w.MayBegin op ctrl) : (watchPiece c w (body c op)).ok = true ∧
      ((watchPiece c w (body c op)).owed = true → entryCtrl op = none ∧ ctrl = .failed) := by
  obtain ⟨hok, howed⟩ := hw
  by_cases hop : entryCtrl op = none
  · rw [watchPiece_body_of_no_entry c w op hop]
    exact ⟨hok, fun h => (howed h).resolve_left (by simp [hop])⟩
  · obtain ⟨hend, hsettled⟩ := settles_body hc op hop w ⟨hok, fun h => (howed h).resolve_right fun h => hop h.1⟩
    exact ⟨hend, by simp [hsettled]⟩

/-! ### The invariant at each form of `SEQ` -/

/-- The observer agrees with DC and with the positions of `op` performed before `k`. -/
def State.BusAt (s : State) (op : Instr) (k : Nat) : Prop :=
  (watched s.cfg s.trace).dc = s.dc ∧
    ∃ w : BusWatch, watched s.cfg s.trace = watchPiece s.cfg w ((body s.cfg op).take k) ∧ w.MayBegin op s.ctrl

theorem State.busOk_ready {s : State} (h : s.seq = .ready) :
    s.BusOk ↔ (watched s.cfg s.trace).ok = true ∧ (watched s.cfg s.trace).dc = s.dc ∧
      ((watched s.cfg s.trace).owed = true → s.ctrl = .failed) := by simp [State.BusOk, h]

theorem State.busOk_running {s : State} {op : Instr} {k : Nat} (h : s.seq = .running op k) :
    s.BusOk ↔ (watched s.cfg s.trace).ok = true ∧ s.BusAt op k := by
  simp [State.BusOk, h, State.BusAt, watchPiece, BusWatch.MayBegin]

theorem State.busOk_aborting {s : State} {op : Instr} {k : Nat} (h : s.seq = .aborting op k) :
    s.BusOk ↔ (watched s.cfg s.trace).ok = true ∧ (watched s.cfg s.trace).dc = s.dc := by
  simp [State.BusOk, h]

/-- At Ready only `STATE`, DC and the trace count, and a failure excuses what is owed. -/
theorem State.busOk_of_same {s t : State} (hs : s.BusOk) (hq : s.seq = .ready) (hq' : t.seq = .ready)
    (hcfg : t.cfg = s.cfg) (htrace : t.trace = s.trace) (hdc : t.dc = s.dc) (hctrl : t.ctrl = s.ctrl) : t.BusOk := by
  rw [State.busOk_ready hq', hcfg, htrace, hdc, hctrl]
  exact (State.busOk_ready hq).1 hs

/-! ### The observer over one event -/

theorem watched_concat (c : Cfg) (es : List Event) (e : Event) :
    watched c (es ++ [e]) = watch c (watched c es) e := by simp [watched]

/-- A sample that is not idle settles nothing. -/
theorem watch_sample_not_idle (c : Cfg) (w : BusWatch) (l : Bit) (h : l ≠ c.idleLevel) : watch c w (.sample l) = w := by
  simp [watch, h]

/-- The observer reads DC at a write and never drives it. -/
theorem watch_write_dc (c : Cfg) (w : BusWatch) (bs : List Byte) (r : Answer) : (watch c w (.write bs r)).dc = w.dc := by
  rw [watch_write]
  split <;> rfl

/-- The write at a position is to the observer what the piece says: it does not look at the answer, nor at the bytes of a
data phase. -/
theorem watch_write_eq_watchPiece (c : Cfg) (w : BusWatch) (m : Micro) (p : PixelBuffer) (src : Source) (bs : List Byte)
    (r : Answer) (hp : m.prim = .write src) (hg : src.get p = some bs)
    (hsrc : (∃ b, src = .bytes b) ∨ w.dc = .driven true) : watch c w (.write bs r) = watchPiece c w [m] := by
  cases src with
  | bytes b =>
    obtain rfl : b = bs := by simpa [Source.get] using hg
    have hpiece : pieceEvents c [m] = [.write b .ok] := by simp [pieceEvents, hp]
    rw [watchPiece, hpiece]
    rfl
  | buffer a n =>
    have hdc : w.dc = .driven true := by simpa using hsrc
    simp [watchPiece, pieceEvents, hp, watch, hdc]

/-- At a write of a body the source is given bytes, or DC is high. -/
theorem source_at_write {s : State} {op : Instr} {k : Nat} {m : Micro} {src : Source}
    (hm : (body s.cfg op)[k]? = some m) (hp : m.prim = .write src) (hdc : pinFits s .dc ((body s.cfg op).take k)) :
    (∃ b, src = .bytes b) ∨ s.dc = .driven true := by
  obtain ⟨-, hf⟩ := fits_at s.cfg op k m hm
  simp only [hp] at hf
  obtain ⟨-, -, ⟨-, n, hn⟩ | ⟨hhigh, -⟩⟩ := hf
  · exact .inl ⟨_, hn⟩
  · have hpin : pinAfter .dc ((body s.cfg op).take k) = some true := by rw [← track_of_pin]; exact hhigh
    simp only [pinFits, hpin] at hdc
    exact .inr hdc

/-! ### A primitive at a position -/

/-- A primitive that goes on takes the observer one position further. -/
theorem watched_effect {s : State} {m : Micro} (hgo : s.goesOn m.prim)
    (hsrc : ∀ src, m.prim = .write src → (∃ b, src = .bytes b) ∨ (watched s.cfg s.trace).dc = .driven true) :
    watched s.cfg (s.effect m.prim).trace = watchPiece s.cfg (watched s.cfg s.trace) [m] := by
  cases hp : m.prim with
  | drive p v => simp [State.effect, watched_concat, watchPiece, pieceEvents, hp]
  | hold ms => simp [State.effect, watched_concat, watchPiece, pieceEvents, hp]
  | memWrite a bs => simp [State.effect, watchPiece, pieceEvents, hp]
  | memReadAll => simp [State.effect, watchPiece, pieceEvents, hp]
  | sample =>
    have hl : s.nextLevel = s.cfg.idleLevel := by simpa [hp, State.goesOn] using hgo
    simp [State.effect, watched_concat, watchPiece, pieceEvents, hp, hl]
  | write src =>
    simp only [hp, State.goesOn] at hgo
    obtain ⟨bs, hbs⟩ := Option.isSome_iff_exists.1 hgo.1
    rw [← watch_write_eq_watchPiece s.cfg _ m s.pb src bs s.nextAnswer hp hbs (hsrc src hp), ← watched_concat]
    simp [State.effect, hbs]

/-- The observer's DC is the register's after every primitive. -/
theorem watched_effect_dc {s : State} (p : Prim) (h : (watched s.cfg s.trace).dc = s.dc) :
    (watched s.cfg (s.effect p).trace).dc = (s.effect p).dc := by
  cases p with
  | drive q v => cases q <;> simp [State.effect, watched_concat, watch, h]
  | write src => simp [State.effect, watched_concat, watch_write_dc, h]
  | sample =>
    by_cases hl : s.nextLevel = s.cfg.idleLevel <;> simp [State.effect, watched_concat, watch, h, hl]
  | _ => simp [State.effect, watched_concat, watch, h]

theorem BusWatch.MayBegin.after {w : BusWatch} {op : Instr} {s : State} {k : Nat} {m : Micro}
    (h : w.MayBegin op s.ctrl) (hm : (body s.cfg op)[k]? = some m) :
    w.MayBegin op (m.after.foldl ctrlAct s.ctrl) := by
  obtain ⟨hok, howed⟩ := h
  refine ⟨hok, fun ho => (howed ho).imp_right ?_⟩
  rintro ⟨hnone, hfailed⟩
  rw [after_of_no_entry s.cfg op k m hnone hm]
  exact ⟨hnone, hfailed⟩

/-- Going on from a position where the observer stands after it. -/
theorem busOk_advance {op : Instr} {k : Nat} {m : Micro} {u : State} {w : BusWatch}
    (hc : opcDistinct u.cfg.opc = true) (hm : (body u.cfg op)[k]? = some m)
    (hu : watched u.cfg u.trace = watchPiece u.cfg w ((body u.cfg op).take (k + 1)))
    (hdc : (watched u.cfg u.trace).dc = u.dc) (hbegin : w.MayBegin op u.ctrl) : (advance op k m u).BusOk := by
  have hafter := hbegin.after hm
  obtain ⟨hok, hend⟩ := body_watched hc hafter
  have hnow : (watched u.cfg u.trace).ok = true := by rw [hu]; exact ok_watchPiece_take (k + 1) hok
  have hdc' : (advance op k m u).dc = u.dc := advance_pin op k m u .dc
  rcases advance_eq op k m u with ⟨-, ha⟩ | ⟨hk, ha⟩
  · rw [State.busOk_running (by rw [ha]; rfl), State.BusAt, hdc', advance_cfg, advance_trace, advance_ctrl]
    exact ⟨hnow, hdc, w, hu, hafter⟩
  · rw [State.busOk_ready (by rw [ha]; rfl), hdc', advance_cfg, advance_trace, advance_ctrl]
    rw [List.take_of_length_le hk] at hu
    exact ⟨hnow, hdc, fun h => (hend (hu ▸ h)).2⟩

/-- A primitive performed where the observer agrees leaves it where the sequencer goes. -/
theorem PrimCase.busOk {op : Instr} {k : Nat} {m : Micro} {s t : State} (h : PrimCase op k m s t)
    (hc : opcDistinct s.cfg.opc = true) (hm : (body s.cfg op)[k]? = some m)
    (hpin : pinFits s .dc ((body s.cfg op).take k)) (hs : s.BusAt op k) : t.BusOk := by
  obtain ⟨hdc, w, hw, hbegin⟩ := hs
  have hok := (body_watched hc hbegin).1
  have hnow : (watched s.cfg s.trace).ok = true := by rw [hw]; exact ok_watchPiece_take k hok
  have hnext : watchPiece s.cfg (watched s.cfg s.trace) [m] = watchPiece s.cfg w ((body s.cfg op).take (k + 1)) := by
    rw [hw, watchPiece_take_succ _ _ _ _ _ hm]
  have hsrc : ∀ src, m.prim = .write src → (∃ b, src = .bytes b) ∨ (watched s.cfg s.trace).dc = .driven true :=
    fun src hp => hdc ▸ source_at_write hm hp hpin
  cases h with
  | goesOn hgo ht =>
    rw [ht]
    exact busOk_advance (w := w) (by simpa using hc) (by simpa using hm)
      (by simpa using (watched_effect hgo hsrc).trans hnext) (by simpa using watched_effect_dc m.prim hdc)
      (by simpa using hbegin)
  | fails src bs hp hg _ ht =>
    have hwrite := (watch_write_eq_watchPiece s.cfg _ m s.pb src bs s.nextAnswer hp hg (hsrc src hp)).trans hnext
    have hok' : (watch s.cfg (watched s.cfg s.trace) (.write bs s.nextAnswer)).ok = true := by
      rw [hwrite]
      exact ok_watchPiece_take (k + 1) hok
    rw [State.busOk_aborting (by rw [ht]; rfl)]
    simp [ht, watched_concat, watch_write_dc, hok', hdc]
  | timesOut _ _ hl _ _ ht =>
    rw [State.busOk_ready (by simp [ht])]
    simp [ht, watched_concat, watch_sample_not_idle _ _ _ hl, hnow, hdc]
  | waits _ hl _ ht =>
    rw [State.busOk_running (by rw [ht]; rfl)]
    have hat : t.BusAt op k :=
      ⟨by simp [ht, watched_concat, watch_sample_not_idle _ _ _ hl, hdc], w,
        by simp [ht, watched_concat, watch_sample_not_idle _ _ _ hl, hw], by simpa [ht] using hbegin⟩
    exact ⟨by simp [ht, watched_concat, watch_sample_not_idle _ _ _ hl, hnow], hat⟩

/-! ### The step -/

/-- An accepted operation may begin: where it does not begin with the reset pulse, `STATE` is Idle or the operation
writes nothing (R46, R301). -/
theorem mayBegin_of_accepts {s : State} {op : Instr} (hok : (watched s.cfg s.trace).ok = true)
    (howed : (watched s.cfg s.trace).owed = true → s.ctrl = .failed) (ha : accepts op s.ctrl = true) :
    (watched s.cfg s.trace).MayBegin op (s.acts (entryActs op)).ctrl := by
  refine ⟨hok, fun h => ?_⟩
  have hfailed := howed h
  rw [hfailed] at ha
  cases op with
  | reset | init | wake => exact .inl rfl
  | display | showBuf | clear | sleep => cases ha
  | _ => exact .inr ⟨rfl, hfailed⟩

theorem ReadyCase.busOk {i : Instr} {s t : State} (h : ReadyCase i s t) (hc : opcDistinct s.cfg.opc = true)
    (hq : s.seq = .ready) (hs : s.BusOk) : t.BusOk := by
  cases h with
  | check r hp ht =>
    obtain ⟨h₁, h₂⟩ := preCheck_not_fatal i s r hp
    rw [ht, State.raise_preCheck s r h₁ h₂]
    exact State.busOk_of_same hs hq rfl rfl rfl rfl rfl
  | access _ h => cases h <;> exact State.busOk_of_same hs hq rfl rfl rfl rfl rfl
  | begins hp hb h =>
    obtain ⟨hok, hdc, howed⟩ := (State.busOk_ready hq).1 hs
    rcases performAt_zero_next i _ t h with ⟨m, hm, hcase⟩ | ⟨hnil, ht⟩
    · have hbegin := mayBegin_of_accepts hok howed ((preCheck_eq_none_iff i s).1 hp).1
      refine hcase.busOk (by simpa using hc) hm (fun h => absurd rfl h) ?_
      exact ⟨by simpa using hdc, watched s.cfg s.trace, by simp, hbegin⟩
    · obtain ⟨v, rfl⟩ := fill_of_body_nil _ i hb hnil
      rw [ht]
      exact State.busOk_of_same hs hq rfl rfl rfl rfl rfl

theorem opcDistinct_of_legal {c : Cfg} (hc : legal c = true) : opcDistinct c.opc = true := by
  simp only [legal, Bool.and_eq_true] at hc
  tauto

/-- Settles O52: every body waits after what it owes, so the observer of the positions performed so far allows each
write; at Ready something is owed after a failure only, from which only the reset pulse reaches the bus. -/
theorem stepWritesNothingWhileBusy : Obligations.StepWritesNothingWhileBusy := by
  intro s t hlegal hctrl hpins hs h
  have hc := opcDistinct_of_legal hlegal
  cases step_next s t h with
  | waiting _ _ ht => rwa [ht]
  | illegal _ _ _ hq _ _ ht =>
    rw [ht]
    exact State.busOk_of_same hs hq rfl rfl rfl rfl rfl
  | request _ _ _ hq _ _ h => exact h.busOk hc hq (State.busOk_of_same hs hq hq rfl rfl rfl rfl)
  | position _ _ _ hq hm h =>
    exact h.busOk hc hm ((State.pinsOk_running hq).1 hpins .dc) ((State.busOk_running hq).1 hs).2
  | exhausted op k hq hk _ _ =>
    obtain ⟨hlt, -⟩ := (State.ctrlOk_running hq).1 hctrl
    omega
  | aborted op k hq ht =>
    obtain ⟨hok, hdc⟩ := (State.busOk_aborting hq).1 hs
    have hdc' : s.abort.dc = s.dc := rfl
    rw [ht, State.busOk_ready rfl, hdc', State.abort_cfg, State.abort_trace, watched_concat]
    exact ⟨hok, hdc, fun _ => rfl⟩

end Sys2Proof.Machine
end

section
/-! PROOFS. Encoding (30_encoding.md): the decoder and the encoder agree in both spaces (R91 to R93, R98). -/

namespace Sys2Proof.Machine

/-! ### FLAGS and PV (R91) -/

theorem reservedClear_flagByte (v : Bit) : reservedClear (flagByte v) = true := by cases v <;> rfl

theorem flagByte_getLsbD_zero (v : Bit) : (flagByte v).getLsbD 0 = v := by cases v <;> rfl

theorem reservedClear_eq_false (b : Byte) (h : b &&& 0xFE ≠ 0) : reservedClear b = false := beq_eq_false_iff_ne.2 h

/-- With the reserved bits clear a byte is what its bit 0 encodes to. -/
theorem flagByte_of_reservedClear (b : Byte) (h : reservedClear b = true) : flagByte (b.getLsbD 0) = b := by
  revert b
  decide

/-! ### The command of an opcode byte (R98) -/

theorem Opc.command_code {t : Opc} (ht : opcDistinct t = true) (c : Command) : t.command (t.code c) = some c := by
  have hcode : ∀ n : Command, (t.code n == t.code c) = (n == c) := fun n =>
    Bool.eq_iff_iff.2 (by simpa using (Opc.code_injective ht).eq_iff)
  simp only [Opc.command, hcode]
  cases c <;> rfl

theorem Opc.code_of_command {t : Opc} {b : Byte} {c : Command} (h : t.command b = some c) : t.code c = b := by
  simpa using List.find?_some h

theorem encode_instr (t : Opc) (c : Command) : encode t c.instr = (.command, [t.code c]) := by cases c <;> rfl

theorem instr_wellFormed (c : Command) : c.instr.wellFormed = true := by cases c <;> rfl

theorem decode_encode_command {t : Opc} (ht : opcDistinct t = true) (c : Command) :
    decode t (encode t c.instr).1 (encode t c.instr).2 = .ok c.instr := by
  simp [encode_instr, decode, decodeCommand, Opc.command_code ht]

/-! ### Formats: the words of the operands decode to the operands (R91, R92) -/

theorem formatF_flagByte (mk : Bit → Instr) (v : Bit) : formatF mk [flagByte v] = .ok (mk v) := by
  rw [formatF, reservedClear_flagByte, flagByte_getLsbD_zero, if_pos rfl]

theorem formatB_bytes (mk : BitVec 32 → List Byte → Instr) (len : BitVec 32) (data : List Byte)
    (h : data.length = len.toNat) :
    formatB mk (byteOf len 3 :: byteOf len 2 :: byteOf len 1 :: byteOf len 0 :: data) = .ok (mk len data) := by
  simp [formatB, be32_byteOf, h]

theorem formatP_bytes (mk : BitVec 16 → BitVec 16 → Instr) (x y : BitVec 16) :
    formatP mk [byteOf x 1, byteOf x 0, byteOf y 1, byteOf y 0] = .ok (mk x y) := by
  simp [formatP, be16_byteOf]

theorem formatPW_bytes (mk : BitVec 16 → BitVec 16 → Bit → Instr) (x y : BitVec 16) (v : Bit) :
    formatPW mk [byteOf x 1, byteOf x 0, byteOf y 1, byteOf y 0, flagByte v] = .ok (mk x y v) := by
  rw [formatPW, reservedClear_flagByte, flagByte_getLsbD_zero, if_pos rfl, be16_byteOf, be16_byteOf]

/-- Settles O1: a host operation by its format, a command by the one opcode byte that distinct bytes leave it. -/
theorem decodeOfEncodeIsTheInstruction : Obligations.DecodeOfEncodeIsTheInstruction := by
  intro t i ht hw
  cases i with
  | reset | showBuf | clear | sleep | wake | readbuf | fill => rfl
  | init blank => exact formatF_flagByte .init blank
  | display len data => exact formatB_bytes .display len data (by simpa [Instr.wellFormed] using hw)
  | draw len data => exact formatB_bytes .draw len data (by simpa [Instr.wellFormed] using hw)
  | setpix x y v => exact formatPW_bytes .setpix x y v
  | getpix x y => exact formatP_bytes .getpix x y
  | psr => exact decode_encode_command ht .psr
  | pwr => exact decode_encode_command ht .pwr
  | pon => exact decode_encode_command ht .pon
  | btst => exact decode_encode_command ht .btst
  | dslp => exact decode_encode_command ht .dslp
  | dtm1 => exact decode_encode_command ht .dtm1
  | dsp => exact decode_encode_command ht .dsp
  | drf => exact decode_encode_command ht .drf
  | dtm2 => exact decode_encode_command ht .dtm2
  | pll => exact decode_encode_command ht .pll
  | cdi => exact decode_encode_command ht .cdi
  | tres => exact decode_encode_command ht .tres
  | vdcs => exact decode_encode_command ht .vdcs

/-! ### Formats: what decodes has the words of its operands -/

theorem formatN_ok {i j : Instr} {rest : List Byte} (h : formatN i rest = .ok j) : j = i ∧ rest = [] := by
  unfold formatN at h
  split at h <;> cases h
  exact ⟨rfl, rfl⟩

theorem formatF_ok {mk : Bit → Instr} {j : Instr} {rest : List Byte} (h : formatF mk rest = .ok j) :
    ∃ v, j = mk v ∧ rest = [flagByte v] := by
  unfold formatF at h
  split at h
  · split at h <;> cases h
    exact ⟨_, rfl, by rw [flagByte_of_reservedClear _ ‹_›]⟩
  · cases h

theorem formatV_ok {mk : Byte → Instr} {j : Instr} {rest : List Byte} (h : formatV mk rest = .ok j) :
    ∃ v, j = mk v ∧ rest = [v] := by
  unfold formatV at h
  split at h <;> cases h
  exact ⟨_, rfl, rfl⟩

theorem formatB_ok {mk : BitVec 32 → List Byte → Instr} {j : Instr} {rest : List Byte} (h : formatB mk rest = .ok j) :
    ∃ len data, j = mk len data ∧
      rest = byteOf len 3 :: byteOf len 2 :: byteOf len 1 :: byteOf len 0 :: data := by
  unfold formatB at h
  split at h
  · next b3 b2 b1 b0 data =>
    split at h <;> cases h
    obtain ⟨h3, h2, h1, h0⟩ := byteOf_be32 b3 b2 b1 b0
    exact ⟨_, data, rfl, by rw [h3, h2, h1, h0]⟩
  · cases h

theorem formatP_ok {mk : BitVec 16 → BitVec 16 → Instr} {j : Instr} {rest : List Byte} (h : formatP mk rest = .ok j) :
    ∃ x y, j = mk x y ∧ rest = [byteOf x 1, byteOf x 0, byteOf y 1, byteOf y 0] := by
  unfold formatP at h
  split at h <;> cases h
  exact ⟨_, _, rfl, by simp only [byteOf_be16_hi, byteOf_be16_lo]⟩

theorem formatPW_ok {mk : BitVec 16 → BitVec 16 → Bit → Instr} {j : Instr} {rest : List Byte}
    (h : formatPW mk rest = .ok j) :
    ∃ x y v, j = mk x y v ∧ rest = [byteOf x 1, byteOf x 0, byteOf y 1, byteOf y 0, flagByte v] := by
  unfold formatPW at h
  split at h
  · split at h <;> cases h
    exact ⟨_, _, _, rfl, by simp only [byteOf_be16_hi, byteOf_be16_lo, flagByte_of_reservedClear _ ‹_›]⟩
  · cases h

/-! ### What decodes encodes to the bytes read -/

/-- One choice of the operation map: the code is the one chosen by, or the later choices say it. -/
theorem encode_of_ite {t : Opc} {op x : Byte} {rest : List Byte} {a b : Except DecodeError Instr} {j : Instr}
    (ha : a = .ok j → encode t j = (.request, x :: rest)) (hb : b = .ok j → encode t j = (.request, op :: rest)) :
    (if op = x then a else b) = .ok j → encode t j = (.request, op :: rest) := by
  split
  · next hop => rw [hop]; exact ha
  · exact hb

theorem encode_of_decodeOp (t : Opc) {op : Byte} {rest : List Byte} {j : Instr} (h : decodeOp op rest = .ok j) :
    encode t j = (.request, op :: rest) := by
  have formN : ∀ {x : Byte} {i : Instr}, encode t i = (.request, [x]) → formatN i rest = .ok j →
      encode t j = (.request, x :: rest) := by
    intro x i hi h
    obtain ⟨rfl, rfl⟩ := formatN_ok h
    exact hi
  have formB : ∀ {x : Byte} {mk : BitVec 32 → List Byte → Instr},
      (∀ len data, encode t (mk len data) = (.request, encodeB x len data)) → formatB mk rest = .ok j →
      encode t j = (.request, x :: rest) := by
    intro x mk hmk h
    obtain ⟨len, data, rfl, rfl⟩ := formatB_ok h
    exact hmk len data
  revert h
  unfold decodeOp
  refine encode_of_ite (formN rfl) <| encode_of_ite ?init <| encode_of_ite (formB fun _ _ => rfl) <|
    encode_of_ite (formN rfl) <| encode_of_ite (formN rfl) <| encode_of_ite (formN rfl) <|
    encode_of_ite (formN rfl) <| encode_of_ite (formB fun _ _ => rfl) <| encode_of_ite ?fill <|
    encode_of_ite ?setpix <| encode_of_ite ?getpix <| encode_of_ite (formN rfl) nofun
  case init => intro h; obtain ⟨v, rfl, rfl⟩ := formatF_ok h; rfl
  case fill => intro h; obtain ⟨v, rfl, rfl⟩ := formatV_ok h; rfl
  case setpix => intro h; obtain ⟨x, y, v, rfl, rfl⟩ := formatPW_ok h; rfl
  case getpix => intro h; obtain ⟨x, y, rfl, rfl⟩ := formatP_ok h; rfl

theorem encode_of_decodeRequest (t : Opc) {req : List Byte} {i : Instr} (h : decodeRequest req = .ok i) :
    encode t i = (.request, req) := by
  cases req with
  | nil => cases h
  | cons op rest => exact encode_of_decodeOp t h

/-- A command phase that decodes is the one opcode byte of a command of the closed set (R97, R100). -/
theorem decodeCommand_ok {t : Opc} {bytes : List Byte} {i : Instr} (h : decodeCommand t bytes = .ok i) :
    ∃ c : Command, i = c.instr ∧ bytes = [t.code c] := by
  unfold decodeCommand at h
  split at h
  · cases h
  · split at h <;> cases h
    exact ⟨_, rfl, by rw [Opc.code_of_command ‹_›]⟩
  · cases h

/-- Settles O2: each format, and the command space, read back the bytes that the encoder writes. -/
theorem encodeOfDecodeIsTheBytes : Obligations.EncodeOfDecodeIsTheBytes := by
  intro t sp bytes i h
  cases sp with
  | request => exact ⟨decodeRequest_wellFormed h, encode_of_decodeRequest t h⟩
  | command =>
    obtain ⟨c, rfl, rfl⟩ := decodeCommand_ok h
    exact ⟨instr_wellFormed c, encode_instr t c⟩

/-- Settles O3: each word is decoded by computation. -/
theorem writtenOutWordsDecode : Obligations.WrittenOutWordsDecode := ⟨rfl, rfl, rfl, rfl, rfl, rfl⟩

end Sys2Proof.Machine
end

section
/-! PROOFS. Encoding (30_encoding.md): a request that decodes to nothing (R94, R95, R102). -/

namespace Sys2Proof.Machine

/-- A request that does not decode is taken and answered `[06, STATE]`; only `STATUS` changes besides (R276, R277). -/
theorem step_of_decodeRequest_error (s : State) (req : List Byte) (rest : List (List Byte)) (e : DecodeError)
    (hq : s.seq = .ready) (hr : s.hreq = req :: rest) (hd : decodeRequest req = .error e) :
    step s = .next { s with status := 0x06, hreq := rest, hrsp := s.hrsp ++ [response 0x06 s.ctrl []] } := by
  rw [step_illegal s req rest e hq hr hd]
  simp [State.illegalRequest, State.raise, State.finish, State.takeRequest, response, Result.code, hq, hr]

/-! ### Reserved codes (R94) -/

theorem decodeOp_reserved (op : Byte) (tail : List Byte) (h : op = 0x00 ∨ 0x0D ≤ op.toNat) :
    decodeOp op tail = .error (.reservedOp op) := by
  have hne : ∀ x : Byte, 0x00 < x.toNat → x.toNat < 0x0D → op ≠ x := by
    rintro x hlo hhi rfl
    rcases h with h | h
    · simp [h] at hlo
    · omega
  simp [decodeOp, hne]

/-- Settles O4: no choice of the operation map is a reserved code. -/
theorem reservedCodesAreIllegal : Obligations.ReservedCodesAreIllegal := by
  intro s op tail rest hop hq hr
  exact step_of_decodeRequest_error s _ rest _ hq hr (decodeOp_reserved op tail hop)

/-! ### Malformed requests (R95) -/

/-- R102 for every instruction. -/
theorem formatLength (i : Instr) : Laws.FormatLength.Statement i := by
  cases i with
  | display len data => exact Laws.FormatLength.display len data
  | draw len data => exact Laws.FormatLength.draw len data
  | _ => exact fun _ _ => rfl

/-- A request that decodes has the length that its first bytes announce (R95 (a), R102). -/
theorem requestLength_of_decodeRequest {req : List Byte} {i : Instr} (h : decodeRequest req = .ok i) :
    requestLength req = some req.length := by
  simpa [encode_of_decodeRequest Opc.reference h] using formatLength i (decodeRequest_wellFormed h) Opc.reference

/-- A request of any other length does not decode. -/
theorem decodeRequest_error_of_length {req : List Byte} (h : requestLength req ≠ some req.length) :
    ∃ e, decodeRequest req = .error e := by
  cases hd : decodeRequest req with
  | error e => exact ⟨e, rfl⟩
  | ok i => exact absurd (requestLength_of_decodeRequest hd) h

/-- A format-B request too short for `L` announces no length. -/
theorem requestLength_short_formatB {op : Byte} {tail : List Byte} (hop : op = 0x03 ∨ op = 0x08)
    (h : tail.length < 4) : requestLength (op :: tail) = none := by
  match tail, h with
  | [], _ | [_], _ | [_, _], _ | [_, _, _], _ => rcases hop with rfl | rfl <;> rfl

/-- Settles O5: a wrong length by R102, a reserved bit by the check of its format. -/
theorem malformedRequestsAreIllegal : Obligations.MalformedRequestsAreIllegal := by
  intro s req rest hq hr hbad
  have hd : ∃ e, decodeRequest req = .error e := by
    rcases hbad with ⟨n, hn, hlen⟩ | ⟨op, tail, rfl, hop, hlen⟩ | ⟨flags, rfl, hbits⟩ |
      ⟨x1, x0, y1, y0, pv, rfl, hbits⟩
    · exact decodeRequest_error_of_length (by rw [hn]; simpa using Ne.symm hlen)
    · exact decodeRequest_error_of_length (by simp [requestLength_short_formatB hop hlen])
    · exact ⟨.reservedBits, by simp [decodeRequest, decodeOp, formatF, reservedClear_eq_false flags hbits]⟩
    · exact ⟨.reservedBits, by simp [decodeRequest, decodeOp, formatPW, reservedClear_eq_false pv hbits]⟩
  obtain ⟨e, he⟩ := hd
  exact step_of_decodeRequest_error s req rest e hq hr he

end Sys2Proof.Machine
end

section
/-! PROOFS. Encoding (30_encoding.md): payloads (R98, R99, R101), the projection of INIT (R103, R140), and the closed
set on the bus (R100, R103, R131). -/

namespace Sys2Proof.Machine

/-! ### What a legal configuration gives (R300) -/

theorem legal_panel {c : Cfg} (hc : legal c = true) :
    8 ≤ c.width ∧ c.width ≤ 65528 ∧ 1 ≤ c.height ∧ c.height ≤ 65535 := by
  simp only [legal, Bool.and_eq_true, decide_eq_true_eq] at hc
  tauto

theorem legal_openPayloads {c : Cfg} (hc : legal c = true) : c.pPwr.length = 5 ∧ c.pPsr.length = 1 ∧
    c.pPll.length = 1 ∧ c.pVdcs.length = 1 ∧ c.pCdi.length = 1 := by
  simp only [legal, Bool.and_eq_true, beq_iff_eq] at hc
  tauto

theorem legal_chunking {c : Cfg} (hc : legal c = true) : (∀ n ∈ c.chunking, 0 < n) ∧ c.chunking.sum = nbuf c := by
  simp only [legal, Bool.and_eq_true, beq_iff_eq, List.all_eq_true, decide_eq_true_eq] at hc
  tauto

/-! ### Payloads -/

/-- A number below 2^16 is its two bytes, the high one first (R101). -/
theorem toNat_bytes_bigEndian (n : Nat) (h : n < 65536) :
    (BitVec.ofNat 8 (n / 256)).toNat * 256 + (BitVec.ofNat 8 n).toNat = n := by
  simp only [BitVec.toNat_ofNat]
  omega

/-- Settles O27: `W` and `H` are below 2^16, so two bytes hold each. -/
theorem resolutionPayloadIsBigEndian : Obligations.ResolutionPayloadIsBigEndian := by
  refine ⟨fun c hc => ?_, rfl⟩
  obtain ⟨-, hw, -, hh⟩ := legal_panel hc
  exact ⟨_, _, _, _, rfl, toNat_bytes_bigEndian c.width (by omega), toNat_bytes_bigEndian c.height (by omega)⟩

theorem payload_length {c : Cfg} (hc : legal c = true) (m : Command) (n : Nat) (hm : arity m = some n) :
    (payload c m).length = n := by
  obtain ⟨hpwr, hpsr, hpll, hvdcs, hcdi⟩ := legal_openPayloads hc
  cases m with
  | dslp => cases hm
  | psr => cases hm; exact hpsr
  | pwr => cases hm; exact hpwr
  | pll => cases hm; exact hpll
  | vdcs => cases hm; exact hvdcs
  | cdi => cases hm; exact hcdi
  | _ => cases hm; rfl

/-- Settles O28: the OPEN payloads have the lengths a legal configuration asks for, the others are written out. -/
theorem payloadsHaveTheirArity : Obligations.PayloadsHaveTheirArity :=
  fun _ hc => ⟨payload_length hc, rfl, rfl, rfl, rfl, rfl, rfl⟩

/-! ### The projection of events (R103, R140) -/

/-- Holds, samples and drives of RST_N are no transfers. -/
theorem phasesFrom_pulseEvents (lv : PinLevel) (es : List Event) :
    phasesFrom lv (pulseEvents ++ es) = phasesFrom lv es := rfl

theorem phasesFrom_waitEvents (lv : PinLevel) (c : Cfg) (n : Nat) (es : List Event) :
    phasesFrom lv (waitEvents c n ++ es) = phasesFrom lv es := by
  induction n with
  | zero => rfl
  | succ n ih => exact ih

/-- The data phases a payload makes: one, or none when it is empty (R130, D16). -/
def payloadData (p : List Byte) : List (List Byte) := if p = [] then [] else [p]

theorem payloadData_of_length {p : List Byte} {n : Nat} (h : p.length = n + 1) : payloadData p = [p] :=
  if_neg (List.ne_nil_of_length_eq_add_one h)

/-- A transaction, from any DC level: a command phase, and the payload as the first of its data phases. DC is left at
the last phase. -/
theorem groupPhases_commandEvents (lv : PinLevel) (op : Byte) (p : List Byte) (es : List Event) :
    groupPhases (phasesFrom lv (commandEvents op p ++ es)) =
      ([], { cmd := [op], data := payloadData p ++ (groupPhases (phasesFrom (.driven (p != [])) es)).1 } ::
        (groupPhases (phasesFrom (.driven (p != [])) es)).2) := by
  cases p <;> rfl

/-- Settles O46: INIT's events are eight transactions with a pulse before them and a wait inside. -/
theorem initProjectsToEightTransactions : Obligations.InitProjectsToEightTransactions := by
  intro c n hc
  obtain ⟨hpwr, hpsr, hpll, hvdcs, hcdi⟩ := legal_openPayloads hc
  have hend : initEvents c n = initEvents c n ++ [] := (List.append_nil _).symm
  rw [txns, phases, hend]
  simp only [initEvents, List.append_assoc, phasesFrom_pulseEvents, phasesFrom_waitEvents, groupPhases_commandEvents,
    payloadData_of_length hpwr, payloadData_of_length hpsr, payloadData_of_length hpll, payloadData_of_length hvdcs,
    payloadData_of_length hcdi]
  rfl

/-! ### The phases of a trace with one event more -/

/-- A sample drives nothing. -/
theorem watch_sample_dc (c : Cfg) (w : BusWatch) (l : Bit) : (watch c w (.sample l)).dc = w.dc := by
  rw [watch_sample]
  split <;> rfl

/-- The observer's DC is the one the projection reads. -/
theorem phasesFrom_concat (c : Cfg) (w : BusWatch) (es : List Event) (e : Event) :
    phasesFrom w.dc (es ++ [e]) = phasesFrom w.dc es ++ phasesFrom (es.foldl (watch c) w).dc [e] := by
  induction es generalizing w with
  | nil => rfl
  | cons f es ih =>
    have hf := ih (watch c w f)
    rw [List.cons_append, List.foldl_cons]
    cases f with
    | drive p v => cases p <;> exact hf
    | hold ms => exact hf
    | sample l =>
      rw [watch_sample_dc] at hf
      exact hf
    | write bs r =>
      rw [watch_write_dc] at hf
      cases hdc : w.dc with
      | unknown => rw [hdc] at hf; exact hf
      | driven v => rw [hdc] at hf; cases v <;> exact congrArg (_ :: ·) hf

theorem phases_concat (c : Cfg) (es : List Event) (e : Event) :
    phases (es ++ [e]) = phases es ++ phasesFrom (watched c es).dc [e] :=
  phasesFrom_concat c BusWatch.start es e

theorem closedPhases_append (t : Opc) (ps qs : List Phase) :
    closedPhases t (ps ++ qs) = (closedPhases t ps && closedPhases t qs) := List.all_append

/-- One event on a bus whose DC is at `lv` keeps the set closed. -/
def KeepsClosed (t : Opc) (lv : PinLevel) (e : Event) : Prop := closedPhases t (phasesFrom lv [e]) = true

theorem keepsClosed_of_not_write {t : Opc} {lv : PinLevel} {e : Event} (h : ∀ bs r, e ≠ .write bs r) :
    KeepsClosed t lv e := by
  cases e with
  | drive p v => cases p <;> rfl
  | hold ms => rfl
  | sample l => rfl
  | write bs r => exact absurd rfl (h bs r)

/-- A write with DC low carries one byte of the closed set, one with DC high at least one byte. -/
theorem keepsClosed_write {t : Opc} {lv : PinLevel} {bs : List Byte} (r : Answer)
    (h : (lv = .driven false ∧ ∃ m : Command, bs = [t.code m]) ∨ (lv = .driven true ∧ bs ≠ [])) :
    KeepsClosed t lv (.write bs r) := by
  rcases h with ⟨rfl, m, rfl⟩ | ⟨rfl, hbs⟩
  · have hm : m ∈ Command.all := by cases m <;> decide
    simpa [KeepsClosed, phasesFrom, closedPhases] using ⟨m, hm, rfl⟩
  · simpa [KeepsClosed, phasesFrom, closedPhases] using hbs

/-- A state with the trace and DC of one that is closed is closed. -/
theorem State.PhasesOk.of_same {s t : State} (hs : s.PhasesOk) (hcfg : t.cfg = s.cfg) (htrace : t.trace = s.trace)
    (hdc : t.dc = s.dc) : t.PhasesOk := by
  rw [State.PhasesOk, hcfg, htrace, hdc]
  exact hs

/-- One event that keeps the set closed, with DC where the observer sees it. -/
theorem State.PhasesOk.event {s t : State} {e : Event} (hs : s.PhasesOk) (hcfg : t.cfg = s.cfg)
    (htrace : t.trace = s.trace ++ [e]) (he : KeepsClosed s.cfg.opc s.dc e)
    (hdc : (watched s.cfg (s.trace ++ [e])).dc = t.dc) : t.PhasesOk := by
  obtain ⟨hclosed, hold⟩ := hs
  rw [State.PhasesOk, hcfg, htrace, phases_concat s.cfg, closedPhases_append, hclosed, hold]
  exact ⟨he, hdc⟩

/-! ### The accepted DISPLAY -/

/-- A DISPLAY's buffer has `NBUF` bytes (R190). -/
def Accepted (c : Cfg) (op : Instr) : Prop := ∀ len d, op = .display len d → d.length = nbuf c

theorem State.opOk_ready {s : State} (h : s.seq = .ready) : s.OpOk := by simp [State.OpOk, h]

theorem State.opOk_running {s : State} {op : Instr} {k : Nat} (h : s.seq = .running op k) :
    s.OpOk ↔ Accepted s.cfg op := by cases op <;> simp [State.OpOk, Accepted, h]

theorem State.opOk_aborting {s : State} {op : Instr} {k : Nat} (h : s.seq = .aborting op k) :
    s.OpOk ↔ Accepted s.cfg op := by cases op <;> simp [State.OpOk, Accepted, h]

/-- The length check and the format give an accepted DISPLAY its `NBUF` bytes (R95, R271). -/
theorem accepted_of_checks {c : Cfg} {op : Instr} (hw : op.wellFormed = true) (hp : operandError c op = none) :
    Accepted c op := by
  rintro len d rfl
  have hd : d.length = len.toNat := by simpa [Instr.wellFormed] using hw
  have hlen : len.toNat = nbuf c := by simpa [operandError] using hp
  rw [hd, hlen]

theorem PrimCase.opOk {op : Instr} {k : Nat} {m : Micro} {s t : State} (h : PrimCase op k m s t)
    (hop : Accepted s.cfg op) : t.OpOk := by
  have hcfg := h.cfg_eq
  rw [← hcfg] at hop
  cases h with
  | goesOn _ ht =>
    rcases advance_eq op k m (s.effect m.prim) with ⟨-, ha⟩ | ⟨-, ha⟩
    · exact (State.opOk_running (by rw [ht, ha]; rfl)).2 hop
    · exact State.opOk_ready (by rw [ht, ha]; rfl)
  | fails _ _ _ _ _ ht => exact (State.opOk_aborting (by rw [ht]; rfl)).2 hop
  | timesOut _ _ _ _ _ ht => exact State.opOk_ready (by simp [ht])
  | waits _ _ _ ht => exact (State.opOk_running (by rw [ht]; rfl)).2 hop

/-! ### What an operation streams -/

/-- Every data phase of a body has at least one byte: the chunks have positive lengths and lie in the buffer (R192). -/
theorem streams_nonEmpty {c : Cfg} {op : Instr} (hc : legal c = true) (hop : Accepted c op) :
    ∀ x ∈ streams c op, x.nonEmpty := by
  obtain ⟨hpos, hsum⟩ := legal_chunking hc
  have hbuffer : ∀ x ∈ bufferChunks c, x.nonEmpty := chunksFrom_nonEmpty 0 c.chunking hpos
  cases op with
  | display len d => exact dataChunks_nonEmpty d c.chunking (by rw [hsum, hop len d rfl]) hpos
  | showBuf => exact hbuffer
  | init blank =>
    cases blank with
    | true => exact hbuffer
    | false => exact nofun
  | _ => exact nofun

theorem Source.get_ne_nil {p : PixelBuffer} {src : Source} {bs : List Byte} (hs : src.nonEmpty)
    (hg : src.get p = some bs) : bs ≠ [] := by
  cases src with
  | bytes b =>
    obtain rfl : b = bs := by simpa [Source.get] using hg
    exact hs
  | buffer a n =>
    have hlen : bs.length = n := p.readBytes_length a n bs hg
    exact List.ne_nil_of_length_pos (hlen ▸ hs)

/-- At a write of a body DC tells a command phase from a data phase, and the bytes are those of the kind. -/
theorem write_at_position {s : State} {op : Instr} {k : Nat} {m : Micro} {src : Source} {bs : List Byte}
    (hc : legal s.cfg = true) (hop : Accepted s.cfg op) (hm : (body s.cfg op)[k]? = some m)
    (hpin : pinFits s .dc ((body s.cfg op).take k)) (hp : m.prim = .write src) (hg : src.get s.pb = some bs) :
    (s.dc = .driven false ∧ ∃ n : Command, bs = [s.cfg.opc.code n]) ∨ (s.dc = .driven true ∧ bs ≠ []) := by
  obtain ⟨-, hf⟩ := body_fits s.cfg Source.nonEmpty (fun _ h => h) op k m (streams_nonEmpty hc hop) hm
  simp only [hp] at hf
  have hlevel : ∀ v, (((body s.cfg op).take k).foldl Track.next (Track.of op)).dc = some v → s.dc = .driven v := by
    intro v hv
    have hafter : pinAfter .dc ((body s.cfg op).take k) = some v := by rw [← track_of_pin]; exact hv
    simp only [pinFits, hafter] at hpin
    exact hpin
  obtain ⟨-, -, ⟨hlow, n, rfl⟩ | ⟨hhigh, hne⟩⟩ := hf
  · exact .inl ⟨hlevel false hlow, n, (Option.some.inj hg).symm⟩
  · exact .inr ⟨hlevel true hhigh, Source.get_ne_nil hne hg⟩

/-! ### The step -/

/-- A primitive that goes on records no write but one that keeps the set closed. -/
theorem State.PhasesOk.effect {s : State} {p : Prim} (hs : s.PhasesOk) (hgo : s.goesOn p)
    (hwrite : ∀ src bs, p = .write src → src.get s.pb = some bs → KeepsClosed s.cfg.opc s.dc (.write bs s.nextAnswer)) :
    (s.effect p).PhasesOk := by
  have hdc := watched_effect_dc p hs.2
  cases p with
  | drive q v =>
    have htrace : (s.effect (.drive q v)).trace = s.trace ++ [.drive q v] := by simp [State.effect]
    exact hs.event (by simp) htrace (keepsClosed_of_not_write nofun) (by rwa [← htrace])
  | hold ms => exact hs.event (by simp) rfl (keepsClosed_of_not_write nofun) hdc
  | memWrite a bs => exact hs
  | memReadAll => exact hs
  | sample =>
    exact hs.event (by simp) s.busSample_trace (keepsClosed_of_not_write nofun)
      (by rwa [← s.busSample_trace])
  | write src =>
    obtain ⟨bs, hbs⟩ := Option.isSome_iff_exists.1 hgo.1
    have htrace : (s.effect (.write src)).trace = s.trace ++ [.write bs s.nextAnswer] := by simp [State.effect, hbs]
    exact hs.event (by simp) htrace (hwrite src bs rfl hbs) (by rwa [← htrace])

/-- A primitive at a position keeps the bus closed. -/
theorem PrimCase.phasesOk {op : Instr} {k : Nat} {m : Micro} {s t : State} (h : PrimCase op k m s t)
    (hc : legal s.cfg = true) (hm : (body s.cfg op)[k]? = some m) (hpin : pinFits s .dc ((body s.cfg op).take k))
    (hop : Accepted s.cfg op) (hs : s.PhasesOk) : t.PhasesOk := by
  have hwrite : ∀ src bs, m.prim = .write src → src.get s.pb = some bs →
      KeepsClosed s.cfg.opc s.dc (.write bs s.nextAnswer) :=
    fun src bs hp hg => keepsClosed_write _ (write_at_position hc hop hm hpin hp hg)
  have hnot : ∀ l : Bit, KeepsClosed s.cfg.opc s.dc (.sample l) := fun l => keepsClosed_of_not_write nofun
  cases h with
  | goesOn hgo ht =>
    rw [ht]
    exact (hs.effect hgo hwrite).of_same (by simp) (by simp) (advance_pin op k m _ .dc)
  | fails src bs hp hg _ ht =>
    exact hs.event (by simp [ht]) (by simp [ht]) (hwrite src bs hp hg)
      (by simp [ht, watched_concat, watch_write_dc, hs.2])
  | timesOut _ _ hl _ _ ht =>
    exact hs.event (by simp [ht]) (by simp [ht]) (hnot s.nextLevel)
      (by simp [ht, watched_concat, watch_sample_not_idle _ _ _ hl, hs.2])
  | waits _ hl _ ht =>
    exact hs.event (by simp [ht]) (by simp [ht]) (hnot s.nextLevel)
      (by simp [ht, watched_concat, watch_sample_not_idle _ _ _ hl, hs.2])

theorem ReadyCase.phasesOk {i : Instr} {s t : State} (h : ReadyCase i s t) (hc : legal s.cfg = true)
    (hw : i.wellFormed = true) (hs : s.PhasesOk) : t.PhasesOk ∧ t.OpOk := by
  cases h with
  | check r _ ht =>
    exact ⟨hs.of_same (by simp [ht]) (by simp [ht]) (by simp [ht]), State.opOk_ready (by simp [ht])⟩
  | access _ h => cases h <;> exact ⟨hs, State.opOk_ready rfl⟩
  | begins hp _ h =>
    have hs' : (s.acts (entryActs i)).PhasesOk := hs.of_same (by simp) (by simp) (by simp)
    have hop : Accepted (s.acts (entryActs i)).cfg i := by
      simpa using accepted_of_checks hw ((preCheck_eq_none_iff i s).1 hp).2
    rcases performAt_zero_next i _ t h with ⟨m, hm, hcase⟩ | ⟨-, ht⟩
    · exact ⟨hcase.phasesOk (by simpa using hc) hm (fun h => absurd rfl h) hop hs', hcase.opOk hop⟩
    · rw [ht]
      exact ⟨hs', State.opOk_ready rfl⟩

/-- Settles O53: a step adds a write only at a position of a body, where the track of the body says what DC and the
bytes are; that a DISPLAY was accepted makes its chunks non-empty. -/
theorem stepKeepsTheBusClosed : Obligations.StepKeepsTheBusClosed := by
  intro s t hc hpins hop hs h
  cases step_next s t h with
  | waiting _ _ ht => rw [ht]; exact ⟨hs, hop⟩
  | illegal _ _ _ _ _ _ ht => rw [ht]; exact ⟨hs, State.opOk_ready rfl⟩
  | request _ _ _ _ _ hd h => exact h.phasesOk hc (decodeRequest_wellFormed hd) hs
  | position op k m hq hm h =>
    have hop' := (State.opOk_running hq).1 hop
    exact ⟨h.phasesOk hc hm ((State.pinsOk_running hq).1 hpins .dc) hop' hs, h.opOk hop'⟩
  | exhausted _ _ _ _ _ ht => rw [ht]; exact ⟨hs, State.opOk_ready rfl⟩
  | aborted _ _ _ ht =>
    rw [ht]
    exact ⟨hs.event rfl s.abort_trace (keepsClosed_of_not_write nofun)
      (by rw [watched_concat]; exact hs.2), State.opOk_ready rfl⟩

end Sys2Proof.Machine
end

section
/-! PROOFS. Encoding (30_encoding.md): each controller command completes its transaction (R97, R98, R130, R131). -/

namespace Sys2Proof.Machine

/-! ### A body is transactions and positions of no command -/

/-- The register writes that follow the transaction of a command, wherever it is sent (R136, R163, R190, R220). -/
def afterActs : Command → List Action
  | .cdi => [.setCtrl .idle]
  | .drf => [.setCtrl .busy, .clearPolls]
  | .pon | .dslp => [.clearPolls]
  | .psr | .pwr | .btst | .dtm1 | .dsp | .dtm2 | .pll | .tres | .vdcs => []

/-- The positions of a command's transaction, with the register writes that follow it. -/
def transactionPiece (c : Cfg) (n : Command) : List Micro := andThen (sendCommand c n) (afterActs n)

@[simp] theorem sendCommand_ne_nil (c : Cfg) (n : Command) : sendCommand c n ≠ [] := by
  simp [sendCommand, commandPhase]

@[simp] theorem transactionPiece_ne_nil (c : Cfg) (n : Command) : transactionPiece c n ≠ [] := by
  rw [← List.length_pos_iff, transactionPiece, andThen_length, List.length_pos_iff]
  exact sendCommand_ne_nil c n

/-- A list made of whole transactions and of positions that belong to none. Only CDI's transaction may end it. -/
inductive Transactions (c : Cfg) : List Micro → Prop
  | nil : Transactions c []
  | cons (m : Micro) (ms : List Micro) (hm : m.cmd = none) (h : Transactions c ms) : Transactions c (m :: ms)
  | send (n : Command) (ms : List Micro) (hend : ms = [] → n = .cdi) (h : Transactions c ms) :
      Transactions c (transactionPiece c n ++ ms)

theorem Transactions.append {c : Cfg} {ms ns : List Micro} (h₁ : Transactions c ms) (h₂ : Transactions c ns) :
    Transactions c (ms ++ ns) := by
  induction h₁ with
  | nil => exact h₂
  | cons m ms hm _ ih => exact .cons m _ hm ih
  | send n ms hend _ ih =>
    rw [List.append_assoc]
    exact .send n _ (fun h => hend (List.append_eq_nil_iff.1 h).1) ih

/-- Register writes after a list leave its positions to their command. -/
theorem cmd_of_mem_andThen {ms : List Micro} {o : Option Command} {as : List Action} (h : ∀ m ∈ ms, m.cmd = o) :
    ∀ m ∈ andThen ms as, m.cmd = o := by
  rcases List.eq_nil_or_concat ms with rfl | ⟨ns, n, rfl⟩
  · exact h
  · rw [List.concat_eq_append] at h ⊢
    rw [andThen_append]
    simpa [or_imp, forall_and] using h

/-- Positions that all belong to no command. -/
theorem transactions_of_none {c : Cfg} {ms : List Micro} (h : ∀ m ∈ ms, m.cmd = none) : Transactions c ms := by
  induction ms with
  | nil => exact .nil
  | cons m ms ih => exact .cons m ms (h m (by simp)) (ih fun m hm => h m (by simp [hm]))

/-- A command without register writes after it. -/
theorem Transactions.plain {c : Cfg} {ms : List Micro} (n : Command) (ha : afterActs n = []) (hne : ms ≠ [])
    (h : Transactions c ms) : Transactions c (sendCommand c n ++ ms) := by
  have hsend := Transactions.send n ms (fun h => absurd h hne) h
  rwa [transactionPiece, ha, andThen_none] at hsend

theorem transactions_dataPhases {β : Type} (c : Cfg) (g : β → Source) (l : List β) :
    Transactions c (l.flatMap fun b => sendData none (g b)) := by
  refine transactions_of_none fun m hm => ?_
  obtain ⟨b, -, hb⟩ := List.mem_flatMap.1 hm
  simp only [sendData, micro, List.mem_cons, List.not_mem_nil, or_false] at hb
  rcases hb with rfl | rfl | rfl | rfl <;> rfl

theorem transactions_displayBody (c : Cfg) (chunks : List Source) : Transactions c (displayBody c chunks) := by
  have hwait : Transactions c [{ prim := .sample, cmd := none, after := [.setCtrl .idle] }] := .cons _ _ rfl .nil
  have hdrf := Transactions.send .drf _ (by simp) hwait
  have hdsp := hdrf.plain .dsp rfl (by simp)
  have hdata := (transactions_dataPhases c (fun x => x) chunks).append hdsp
  have hbody := hdata.plain .dtm2 rfl (by simp)
  simpa [displayBody, thenWait, transactionPiece, afterActs, andThen_andThen] using hbody

theorem transactions_fillLoop (c : Cfg) (v : Byte) : Transactions c (fillLoop c v) := by
  refine transactions_of_none fun m hm => ?_
  rw [fillLoop_map] at hm
  obtain ⟨a, -, rfl⟩ := List.mem_map.1 hm
  rfl

theorem transactions_showBody (c : Cfg) : Transactions c (showBody c) :=
  .cons _ _ rfl (transactions_displayBody c _)

theorem transactions_pulse (c : Cfg) (as : List Action) : Transactions c (andThen resetPulse as) :=
  transactions_of_none (cmd_of_mem_andThen (by simp [resetPulse, micro]))

theorem transactions_blank (c : Cfg) (blank : Bit) : Transactions c (if blank then blankRefresh c else []) := by
  cases blank with
  | false => exact .nil
  | true =>
    have hshow := (transactions_fillLoop c whiteByte).append (transactions_showBody c)
    simpa [blankRefresh, showBody] using hshow

theorem transactions_initBody (c : Cfg) (blank : Bit) : Transactions c (initBody c blank) := by
  have hcdi := Transactions.send .cdi _ (fun _ => rfl) (transactions_blank c blank)
  have hvdcs := hcdi.plain .vdcs rfl (by simp)
  have htres := hvdcs.plain .tres rfl (by simp)
  have hpll := htres.plain .pll rfl (by simp)
  have hpsr := hpll.plain .psr rfl (by simp)
  have hwait := Transactions.cons { prim := .sample, cmd := none, after := [] } _ rfl hpsr
  have hpon := Transactions.send .pon _ (by simp) hwait
  have hpwr := hpon.plain .pwr rfl (by simp)
  have hbtst := hpwr.plain .btst rfl (by simp)
  have hbody := (transactions_pulse c [.setCtrl .initializing]).append hbtst
  simpa [initBody, thenWait, transactionPiece, afterActs] using hbody

theorem nbuf_pos {c : Cfg} (hc : legal c = true) : 0 < nbuf c := by
  obtain ⟨hw, -, hh, -⟩ := legal_panel hc
  rw [nbuf_eq_height_mul_rowBytes c hc]
  exact Nat.mul_pos hh (Nat.div_pos hw (by decide))

theorem transactions_clearBody {c : Cfg} (hc : legal c = true) : Transactions c (clearBody c) := by
  rw [clearBody_eq]
  refine (transactions_dataPhases c (fun _ => .bytes [whiteByte]) _).plain .dtm1 rfl fun hnil => ?_
  exact List.cons_ne_nil _ _ (List.flatMap_eq_nil_iff.1 hnil 0 (List.mem_range.2 (nbuf_pos hc)))

theorem transactions_sleepBody (c : Cfg) : Transactions c (sleepBody c) :=
  .send .dslp _ (by simp) (.cons _ _ rfl .nil)

/-- Every body is made of whole transactions and positions that belong to none (R97, R134). -/
theorem transactions_body {c : Cfg} (hc : legal c = true) (op : Instr) : Transactions c (body c op) := by
  cases op with
  | reset => exact transactions_pulse c _
  | init blank => exact transactions_initBody c blank
  | wake => exact transactions_initBody c false
  | display len data => exact transactions_displayBody c _
  | showBuf => exact transactions_showBody c
  | clear => exact transactions_clearBody hc
  | sleep => exact transactions_sleepBody c
  | fill v => exact transactions_fillLoop c v
  | _ => exact .nil

/-! ### Where a transaction begins -/

/-- The command that position `k` of a list belongs to. -/
def cmdAt (ms : List Micro) (k : Nat) : Option Command := ms[k]?.bind Micro.cmd

theorem cmdAt_append_left {ms ns : List Micro} {k : Nat} (h : k < ms.length) : cmdAt (ms ++ ns) k = cmdAt ms k := by
  rw [cmdAt, List.getElem?_append_left h, cmdAt]

theorem cmdAt_append_right (ms ns : List Micro) (j : Nat) : cmdAt (ms ++ ns) (ms.length + j) = cmdAt ns j := by
  simp [cmdAt, List.getElem?_append_right]

/-- Every position of a transaction belongs to its command. -/
theorem cmd_of_mem_transactionPiece {c : Cfg} {n : Command} {m : Micro} (h : m ∈ transactionPiece c n) :
    m.cmd = some n := by
  have hdata : ∀ m ∈ payloadPhase n (payload c n), m.cmd = some n := by
    cases payload c n with
    | nil => simp [payloadPhase]
    | cons p ps => simp [payloadPhase, sendData, micro]
  have hsend : ∀ m ∈ sendCommand c n, m.cmd = some n := by
    simpa [sendCommand, commandPhase, micro, or_imp, forall_and] using hdata
  exact cmd_of_mem_andThen hsend m h

theorem cmdAt_transactionPiece {c : Cfg} {n : Command} {k : Nat} (h : k < (transactionPiece c n).length) :
    cmdAt (transactionPiece c n) k = some n := by
  rw [cmdAt, List.getElem?_eq_getElem h]
  exact cmd_of_mem_transactionPiece (List.getElem_mem h)

/-- A position of a command that does not follow another of the same command is the first of a whole transaction. -/
theorem Transactions.begins {c : Cfg} {ms : List Micro} (h : Transactions c ms) {k : Nat} {n : Command}
    (hk : cmdAt ms k = some n) (hfirst : ∀ j, k = j + 1 → cmdAt ms j ≠ some n) :
    ∃ pre post, ms = pre ++ transactionPiece c n ++ post ∧ pre.length = k ∧ (post = [] → n = .cdi) := by
  induction h generalizing k with
  | nil => simp [cmdAt] at hk
  | cons m ms hm _ ih =>
    cases k with
    | zero => simp [cmdAt, hm] at hk
    | succ k =>
      obtain ⟨pre, post, rfl, rfl, hend⟩ := ih hk fun j hj => hfirst (j + 1) (by rw [hj])
      exact ⟨m :: pre, post, rfl, rfl, hend⟩
  | send o ms hend _ ih =>
    rcases Nat.lt_or_ge k (transactionPiece c o).length with hlt | hge
    · rw [cmdAt_append_left hlt, cmdAt_transactionPiece hlt] at hk
      obtain rfl : o = n := Option.some.inj hk
      cases k with
      | zero => exact ⟨[], ms, rfl, rfl, hend⟩
      | succ j =>
        have hj : j < (transactionPiece c o).length := by omega
        exact absurd (by rw [cmdAt_append_left hj, cmdAt_transactionPiece hj]) (hfirst j rfl)
    · obtain ⟨i, rfl⟩ := Nat.exists_eq_add_of_le hge
      rw [cmdAt_append_right] at hk
      obtain ⟨pre, post, rfl, rfl, hpost⟩ := ih hk fun j hj => by
        rw [← cmdAt_append_right (transactionPiece c o)]
        exact hfirst _ (by omega)
      exact ⟨transactionPiece c o ++ pre, post, by simp, by simp, hpost⟩

/-! ### A transaction played through -/

/-- A transaction has a position for each of its events. -/
theorem transactionPiece_length (c : Cfg) (n : Command) :
    (transactionPiece c n).length = (commandEvents (c.opc.code n) (payload c n)).length := by
  cases hp : payload c n <;>
    simp [transactionPiece, sendCommand, hp, payloadPhase, commandEvents, phaseEvents, dataEvents]

/-- The first position of a transaction drives CS_N high, with no register write after it (R130). -/
theorem transactionPiece_zero (c : Cfg) (n : Command) :
    (transactionPiece c n)[0]? = some (micro (some n) (.drive .csN true)) := rfl

/-- A transaction with a transport that answers ok, and the register writes after it. -/
theorem State.play_transactionPiece (s : State) (n : Command)
    (h : s.answersOk (if payload s.cfg n = [] then 1 else 2) = true) :
    s.Straight (transactionPiece s.cfg n) ∧
      s.play (transactionPiece s.cfg n) =
        State.acts { s with csN := .driven true, dc := .driven (payload s.cfg n != []),
                            answerIn := s.answersAfter (if payload s.cfg n = [] then 1 else 2),
                            trace := s.trace ++ commandEvents (s.cfg.opc.code n) (payload s.cfg n) }
          (afterActs n) := by
  obtain ⟨hstraight, hplay⟩ := s.play_sendCommand n h
  exact ⟨(s.straight_andThen _ _).2 hstraight, by
    rw [transactionPiece, s.play_andThen _ _ (sendCommand_ne_nil _ _), hplay]⟩

theorem State.acts_afterActs_ctrl (s : State) (n : Command) :
    (s.acts (afterActs n)).ctrl = if n = .drf then .busy else if n = .cdi then .idle else s.ctrl := by
  cases n <;> rfl

theorem State.acts_afterActs_polls (s : State) (n : Command) :
    (s.acts (afterActs n)).polls = if n = .pon ∨ n = .drf ∨ n = .dslp then 0 else s.polls := by
  cases n <;> rfl

/-- A piece inside a body goes on behind it, or ends the operation where nothing follows. -/
theorem run_piece {s : State} {op : Instr} {k : Nat} {pre ms post : List Micro} (hq : s.seq = .running op k)
    (hb : body s.cfg op = pre ++ ms ++ post) (hk : pre.length = k) (hms : ms ≠ []) (hs : s.Straight ms) :
    (post ≠ [] ∧ core.run ms.length s = .next ((s.play ms).setSeq (.running op (k + ms.length)))) ∨
      (post = [] ∧ core.run ms.length s = .next ((s.play ms).finish .ok [])) := by
  by_cases hpost : post = []
  · exact .inr ⟨hpost, run_play_end op ms s k pre hq (by rw [hb, hpost, List.append_nil]) hk hms hs⟩
  · exact .inl ⟨hpost, run_play op ms s k pre post hq hb hk hpost hs⟩

/-- The step at the first position of a transaction, the position and the run after it taken apart. -/
theorem run_first_of_piece {s : State} {op : Instr} {k : Nat} {n : Command} {pre post : List Micro}
    (hq : s.seq = .running op k) (hb : body s.cfg op = pre ++ transactionPiece s.cfg n ++ post) (hk : pre.length = k) :
    ∃ u, exec n.instr s = .next u ∧ u.trace = s.trace ++ [.drive .csN true] ∧ u.csN = .driven true ∧
      core.run ((transactionPiece s.cfg n).length - 1) u = core.run (transactionPiece s.cfg n).length s := by
  obtain ⟨m, hm⟩ : ∃ m, m = micro (some n) (.drive .csN true) := ⟨_, rfl⟩
  have hget : (body s.cfg op)[k]? = some m := by
    rw [hb, List.append_assoc, ← hk, List.getElem?_append_right (le_refl _), Nat.sub_self, hm]
    rfl
  have hstep : perform op k m s = .next (advance op k m (s.drive .csN true)) := by rw [hm]; rfl
  refine ⟨advance op k m (s.drive .csN true), ?_, by simp, advance_pin op k m _ .csN, ?_⟩
  · rw [exec_command_running n s op k m hq hget (by rw [hm]; rfl), hstep]
  · have hpos := List.length_pos_iff.2 (transactionPiece_ne_nil s.cfg n)
    rw [← core_run_succ _ s _ ((step_running s op k m hq hget).trans hstep), Nat.sub_add_cancel hpos]

/-- Settles O30: the position is the first of a whole transaction in the body, played through from there. -/
theorem commandsCompleteTheirTransactions : Obligations.CommandsCompleteTheirTransactions := by
  intro s op k n hc hq hn hfirst hok
  obtain ⟨pre, post, hb, hk, hend⟩ := (transactions_body hc op).begins hn hfirst
  obtain ⟨hstraight, hplay⟩ := s.play_transactionPiece n hok
  obtain ⟨u, hu, htrace, hcs, hrun⟩ := run_first_of_piece hq hb hk
  rw [← transactionPiece_length]
  rcases run_piece hq hb hk (transactionPiece_ne_nil _ _) hstraight with ⟨-, ht⟩ | ⟨hpost, ht⟩
  · refine ⟨u, _, hu, htrace, hcs, hrun.trans ht, ?_⟩
    rw [hplay]
    simp [State.acts_afterActs_ctrl, State.acts_afterActs_polls]
  · refine ⟨u, _, hu, htrace, hcs, hrun.trans ht, ?_⟩
    obtain rfl := hend hpost
    rw [hplay]
    simp [afterActs, response, Result.code]

end Sys2Proof.Machine
end

section
/-! PROOFS. Bus framer (40_bus_framer.md): the framer's primitives (R132), a failed write (R135), and the projection of
DISPLAY (R140, R192). -/

namespace Sys2Proof.Machine

/-! ### What the framer does to the block (R132) -/

/-- A drive of CS_N or DC, or a write: the primitives of the framer (R130, R131). -/
inductive Prim.Framing : Prim → Prop
  | csN (v : Bit) : Framing (.drive .csN v)
  | dc (v : Bit) : Framing (.drive .dc v)
  | write (src : Source) : Framing (.write src)

theorem framing_of_mem_sendData {cmd : Option Command} {src : Source} {m : Micro} (h : m ∈ sendData cmd src) :
    m.prim.Framing := by
  simp only [sendData, List.mem_cons, List.not_mem_nil, or_false] at h
  rcases h with rfl | rfl | rfl | rfl
  · exact .dc true
  · exact .csN false
  · exact .write src
  · exact .csN true

theorem framing_of_mem_commandPhase {c : Cfg} {n : Command} {m : Micro} (h : m ∈ commandPhase c n) :
    m.prim.Framing := by
  simp only [commandPhase, List.mem_cons, List.not_mem_nil, or_false] at h
  rcases h with rfl | rfl | rfl | rfl | rfl
  · exact .csN true
  · exact .dc false
  · exact .csN false
  · exact .write _
  · exact .csN true

theorem framing_of_mem_sendCommand {c : Cfg} {n : Command} {m : Micro} (h : m ∈ sendCommand c n) :
    m.prim.Framing := by
  rcases List.mem_append.1 h with hphase | hdata
  · exact framing_of_mem_commandPhase hphase
  · cases hp : payload c n with
    | nil => simp [hp, payloadPhase] at hdata
    | cons p ps => exact framing_of_mem_sendData (by rwa [hp] at hdata)

/-- Register writes after a list leave its primitives. -/
theorem exists_prim_of_mem_andThen {ms : List Micro} {as : List Action} {m : Micro} (h : m ∈ andThen ms as) :
    ∃ n ∈ ms, n.prim = m.prim := by
  rcases List.eq_nil_or_concat ms with rfl | ⟨ns, n, rfl⟩
  · exact absurd h List.not_mem_nil
  · rw [List.concat_eq_append] at h ⊢
    rw [andThen_append] at h
    rcases List.mem_append.1 h with hinit | hlast
    · exact ⟨m, List.mem_append_left _ hinit, rfl⟩
    · exact ⟨n, by simp, by rw [List.mem_singleton.1 hlast]⟩

theorem framing_of_mem_transactionPiece {c : Cfg} {n : Command} {m : Micro} (h : m ∈ transactionPiece c n) :
    m.prim.Framing := by
  obtain ⟨m', hm', hprim⟩ := exists_prim_of_mem_andThen h
  exact hprim ▸ framing_of_mem_sendCommand hm'

/-- In a list of whole transactions the positions of a command are the framer's. -/
theorem Transactions.framing {c : Cfg} {ms : List Micro} (h : Transactions c ms) :
    ∀ m ∈ ms, ∀ n, m.cmd = some n → m.prim.Framing := by
  induction h with
  | nil => simp
  | cons m ms hm _ ih => simpa [hm] using ih
  | send n ms _ _ ih =>
    intro m hm o ho
    rcases List.mem_append.1 hm with hsend | hrest
    · exact framing_of_mem_transactionPiece hsend
    · exact ih m hrest o ho

/-- CLEAR's body, of which a buffer of no bytes leaves the command alone. -/
theorem framing_of_mem_clearBody {c : Cfg} {m : Micro} (h : m ∈ clearBody c) : ∀ n, m.cmd = some n → m.prim.Framing := by
  rw [clearBody_eq] at h
  rcases List.mem_append.1 h with hsend | hdata
  · exact fun _ _ => framing_of_mem_sendCommand hsend
  · exact (transactions_dataPhases c (fun _ => .bytes [whiteByte]) _).framing m hdata

/-- Every position of a command in a body is the framer's, under any configuration. -/
theorem framing_of_mem_body {c : Cfg} {op : Instr} {m : Micro} {n : Command} (h : m ∈ body c op)
    (hn : m.cmd = some n) : m.prim.Framing := by
  cases op with
  | reset => exact (transactions_pulse c _).framing m h n hn
  | init blank => exact (transactions_initBody c blank).framing m h n hn
  | wake => exact (transactions_initBody c false).framing m h n hn
  | display len data => exact (transactions_displayBody c _).framing m h n hn
  | showBuf => exact (transactions_showBody c).framing m h n hn
  | clear => exact framing_of_mem_clearBody h n hn
  | sleep => exact (transactions_sleepBody c).framing m h n hn
  | fill v => exact (transactions_fillLoop c v).framing m h n hn
  | _ => exact absurd h List.not_mem_nil

@[simp] theorem advance_rstN (op : Instr) (k : Nat) (m : Micro) (s : State) : (advance op k m s).rstN = s.rstN :=
  advance_pin op k m s .rstN

@[simp] theorem advance_busyIn (op : Instr) (k : Nat) (m : Micro) (s : State) :
    (advance op k m s).busyIn = s.busyIn := by
  rcases advance_eq op k m s with ⟨-, h⟩ | ⟨-, h⟩ <;> simp [h]

@[simp] theorem advance_hreq (op : Instr) (k : Nat) (m : Micro) (s : State) : (advance op k m s).hreq = s.hreq := by
  rcases advance_eq op k m s with ⟨-, h⟩ | ⟨-, h⟩ <;> simp [h]

/-- What a step of the framer leaves unchanged, and the one event it appends (R132). -/
def State.FramedTo (s t : State) : Prop :=
  t.rstN = s.rstN ∧ t.busyIn = s.busyIn ∧ t.pb = s.pb ∧ t.cfg = s.cfg ∧ t.hreq = s.hreq ∧
  ((∃ v, t.trace = s.trace ++ [.drive .csN v]) ∨ (∃ v, t.trace = s.trace ++ [.drive .dc v]) ∨
    ∃ bs r, t.trace = s.trace ++ [.write bs r])

theorem framedTo_advance_effect {op : Instr} {k : Nat} {m : Micro} {s : State} {p : Prim} (hp : p.Framing) :
    s.FramedTo (advance op k m (s.effect p)) := by
  cases hp with
  | csN v => simp [State.FramedTo, State.effect]
  | dc v => simp [State.FramedTo, State.effect]
  | write src => simp [State.FramedTo, State.effect]

theorem framedTo_abort (s : State) : s.FramedTo s.abort := ⟨rfl, rfl, rfl, rfl, rfl, .inl ⟨true, rfl⟩⟩

theorem PrimCase.framedTo {op : Instr} {k : Nat} {m : Micro} {s t : State} (h : PrimCase op k m s t)
    (hm : m.prim.Framing) : s.FramedTo t := by
  have hnot : m.prim ≠ .sample := by rintro hp; rw [hp] at hm; cases hm
  cases h with
  | goesOn _ ht => exact ht ▸ framedTo_advance_effect hm
  | fails src bs _ _ _ ht => simp [ht, State.FramedTo]
  | timesOut _ hp => exact absurd hp hnot
  | waits hp => exact absurd hp hnot

/-- A controller command goes through only where the sequencer stands in its transaction: it performs the position's
primitive, or ends a failed transfer. -/
theorem exec_command_next {c : Command} {s t : State} (h : exec c.instr s = .next t) :
    (∃ op k m, m ∈ body s.cfg op ∧ m.cmd = some c ∧ PrimCase op k m s t) ∨ t = s.abort := by
  rw [exec_command] at h
  cases hq : s.seq with
  | ready => simp [transaction_ready c s hq] at h
  | running op k =>
    simp only [transaction, hq] at h
    split at h
    · next hc =>
      obtain ⟨m, hm, hcmd⟩ := get_of_commandAt _ _ _ _ hc
      rw [performAt_of_get _ _ _ _ hm] at h
      exact .inl ⟨op, k, m, List.mem_of_getElem? hm, hcmd, perform_next op k m s t h⟩
    · cases h
  | aborting op k =>
    simp only [transaction, hq] at h
    split at h
    · cases h; exact .inr rfl
    · cases h

theorem framing_cases {p : Prim} (h : p.Framing) :
    (∃ v, p = .drive .csN v) ∨ (∃ v, p = .drive .dc v) ∨ ∃ x, p = .write x := by
  cases h with
  | csN v => exact .inl ⟨v, rfl⟩
  | dc v => exact .inr (.inl ⟨v, rfl⟩)
  | write src => exact .inr (.inr ⟨src, rfl⟩)

/-- Settles O31: every position of a command is the framer's, and abortTransfer is a drive of CS_N. -/
theorem framerTouchesOnlyDcAndChipSelect : Obligations.FramerTouchesOnlyDcAndChipSelect := by
  refine ⟨fun cfg c cmd src m hm => framing_cases ?_, fun s t c h => ?_⟩
  · exact (List.mem_append.1 hm).elim framing_of_mem_sendCommand framing_of_mem_sendData
  · show s.FramedTo t
    rcases exec_command_next h with ⟨op, k, m, hm, hcmd, hcase⟩ | rfl
    · exact hcase.framedTo (framing_of_mem_body hm hcmd)
    · exact framedTo_abort s

/-! ### A failed write (R135, R273) -/

/-- A scripted failure is the answer the write gets. -/
theorem State.busWrite_fail {s : State} {rs : List Answer} (bs : List Byte) (hf : s.cfg.transportCanFail = true)
    (ha : s.answerIn = .fail :: rs) :
    s.nextAnswer = .fail ∧ s.busWrite bs = { s with answerIn := rs, trace := s.trace ++ [.write bs .fail] } := by
  have hr : s.nextAnswer = .fail := by simp [State.nextAnswer, hf, ha]
  exact ⟨hr, by simp [State.busWrite, hr, State.takeAnswer, hf, ha, State.emit]⟩

/-- The step of a failed write (R130, R131). -/
theorem step_failed_write {s : State} {op : Instr} {k : Nat} {m : Micro} {src : Source} {bs : List Byte}
    (hq : s.seq = .running op k) (hm : (body s.cfg op)[k]? = some m) (hp : m.prim = .write src)
    (hg : src.get s.pb = some bs) (hr : s.nextAnswer = .fail) :
    step s = .next ((s.busWrite bs).setSeq (.aborting op k)) := by
  rw [step_running s op k m hq hm]
  simp [perform, hp, hg, transfer, hr]

/-- Settles O32: the write enters abortTransfer, and the next step is its drive of CS_N with the error's end. -/
theorem failedWriteAbandonsTheOperation : Obligations.FailedWriteAbandonsTheOperation := by
  intro s op k m src bs hq hm hp hg hf rs ha
  obtain ⟨hr, hw⟩ := s.busWrite_fail bs hf ha
  have hk : k < (body s.cfg op).length := (List.getElem?_eq_some_iff.1 hm).1
  refine ⟨_, step_failed_write hq hm hp hg hr, by simp [hr], ?_⟩
  rw [step_aborting _ op k rfl (by simpa using hk), hw]
  simp [State.abort, State.drive, State.setPin, State.emit, State.finish, State.setCtrl, State.setSeq, Result.code,
    Ctrl.code]

/-! ### The projection of DISPLAY (R140, R192) -/

/-- Data phases, from any DC level, are the first data phases of what follows; what follows starts from some DC level. -/
theorem groupPhases_dataEvents (lv : PinLevel) (ds : List (List Byte)) (es : List Event) :
    ∃ lv', groupPhases (phasesFrom lv (ds.flatMap dataEvents ++ es)) =
      (ds ++ (groupPhases (phasesFrom lv' es)).1, (groupPhases (phasesFrom lv' es)).2) := by
  induction ds generalizing lv with
  | nil => exact ⟨lv, rfl⟩
  | cons d ds ih =>
    obtain ⟨lv', h⟩ := ih (.driven true)
    have hcons : groupPhases (phasesFrom lv ((d :: ds).flatMap dataEvents ++ es)) =
        (d :: (groupPhases (phasesFrom (.driven true) (ds.flatMap dataEvents ++ es))).1,
          (groupPhases (phasesFrom (.driven true) (ds.flatMap dataEvents ++ es))).2) := by
      rw [List.flatMap_cons, List.append_assoc]
      rfl
    exact ⟨lv', by rw [hcons, h]; rfl⟩

/-- Settles O47: the chunks are the data phases between DTM2's command phase and DSP's. -/
theorem displayProjectsToItsChunks : Obligations.DisplayProjectsToItsChunks := by
  intro c d n
  obtain ⟨lv, hdata⟩ := groupPhases_dataEvents (.driven (([] : List Byte) != [])) (split d c.chunking)
    (commandEvents c.opc.dsp [] ++ (commandEvents c.opc.drf [] ++ (waitEvents c n ++ [])))
  have hend : displayEvents c d n = displayEvents c d n ++ [] := (List.append_nil _).symm
  rw [txns, phases, hend]
  simp only [displayEvents, refreshEvents, List.append_assoc, phasesFrom_waitEvents, groupPhases_commandEvents, hdata]
  simp [payloadData, phasesFrom, groupPhases]

end Sys2Proof.Machine
end

section
/-! PROOFS. Bus framer (40_bus_framer.md): the wait-until-idle, with and without a timeout (R136, R274, R312). -/

namespace Sys2Proof.Machine

/-! ### One sample (R136, R274) -/

/-- A scripted level is the one the sample reads. -/
theorem State.busSample_scripted {s : State} {l : Bit} {ls : List Bit} (h : s.busyIn = l :: ls) :
    s.nextLevel = l ∧ s.busSample = { s with busyIn := ls, trace := s.trace ++ [.sample l] } := by
  have hl : s.nextLevel = l := by simp [State.nextLevel, h]
  exact ⟨hl, by simp [State.busSample, hl, State.takeLevel, h, State.emit]⟩

theorem step_sample {s : State} {op : Instr} {k : Nat} {m : Micro} (hq : s.seq = .running op k)
    (hm : (body s.cfg op)[k]? = some m) (hp : m.prim = .sample) : step s = .next (poll op k m s) := by
  rw [step_running s op k m hq hm]
  simp [perform, hp]

/-- A counted sample that is not the last the timeout allows: the wait stands where it was. -/
theorem step_sample_waits {s : State} {op : Instr} {k : Nat} {m : Micro} {l : Bit} {ls : List Bit}
    (hq : s.seq = .running op k) (hm : (body s.cfg op)[k]? = some m) (hp : m.prim = .sample)
    (hb : s.busyIn = l :: ls) (hl : l ≠ s.cfg.idleLevel) (hn : ∀ n, s.cfg.busyTimeout = some n → s.polls + 1 < n) :
    step s = .next { s with busyIn := ls, trace := s.trace ++ [.sample l], polls := s.polls + 1 } := by
  obtain ⟨hlevel, hsample⟩ := s.busSample_scripted hb
  have hpoll : poll op k m s = (s.busSample.setPolls (s.polls + 1)).setSeq (.running op k) := by
    cases ht : s.cfg.busyTimeout with
    | none => simp [poll, hlevel, hl, ht]
    | some n => simp [poll, hlevel, hl, ht, Nat.not_le.2 (hn n ht)]
  rw [step_sample hq hm hp, hpoll, hsample, ← hq]
  rfl

/-- The counted sample that reaches the timeout: BusyTimeout (R274, R278). -/
theorem step_sample_timesOut {s : State} {op : Instr} {k : Nat} {m : Micro} {l : Bit} {ls : List Bit} {n : Nat}
    (hq : s.seq = .running op k) (hm : (body s.cfg op)[k]? = some m) (hp : m.prim = .sample)
    (hb : s.busyIn = l :: ls) (hl : l ≠ s.cfg.idleLevel) (hn : s.cfg.busyTimeout = some n) (hk : n ≤ s.polls + 1) :
    step s = .next { s with busyIn := ls, trace := s.trace ++ [.sample l], polls := s.polls + 1, ctrl := .failed,
                            status := 0x04, seq := .ready, hrsp := s.hrsp ++ [[0x04, 0x06]] } := by
  obtain ⟨hlevel, hsample⟩ := s.busSample_scripted hb
  have hpoll : poll op k m s = (s.busSample.setPolls (s.polls + 1)).raise .busyTimeout := by
    simp [poll, hlevel, hl, hn, hk]
  rw [step_sample hq hm hp, hpoll, hsample]
  rfl

/-- The idle level ends the wait: the next position, or the end of the operation with `STATUS` OK. -/
theorem step_sample_idle {s : State} {op : Instr} {k : Nat} {m : Micro} {ls : List Bit}
    (hq : s.seq = .running op k) (hm : (body s.cfg op)[k]? = some m) (hp : m.prim = .sample)
    (hb : s.busyIn = s.cfg.idleLevel :: ls) :
    ∃ t : State, step s = .next t ∧ t.trace = s.trace ++ [.sample s.cfg.idleLevel] ∧ t.busyIn = ls ∧
      (t.seq = .running op (k + 1) ∨ (t.seq = .ready ∧ t.status = 0x00)) := by
  obtain ⟨hlevel, hsample⟩ := s.busSample_scripted hb
  have hpoll : poll op k m s = advance op k m s.busSample := by simp [poll, hlevel]
  refine ⟨_, step_sample hq hm hp, by simp [hpoll, hlevel], by simp [hpoll, hsample], ?_⟩
  rw [hpoll]
  rcases advance_eq op k m s.busSample with ⟨-, h⟩ | ⟨-, h⟩ <;> simp [h, Result.code]

/-- Settles O33: the three branches of one sample. -/
theorem oneSampleOfAWait : Obligations.OneSampleOfAWait := by
  intro s op k m l ls hq hm hp hb
  refine ⟨?_, fun hl n hn hk => step_sample_timesOut hq hm hp hb hl hn hk,
    fun hl hn => step_sample_waits hq hm hp hb hl hn⟩
  rintro rfl
  exact step_sample_idle hq hm hp hb

/-- Settles O34, by induction on the number of samples: each is counted and leaves the wait where it is. -/
theorem waitWithoutTimeoutHangs : Obligations.WaitWithoutTimeoutHangs := by
  intro s op k m n ls hq hm hp ht hb
  induction n generalizing s with
  | zero =>
    have hs : { s with busyIn := ls, polls := s.polls + 0, trace := s.trace ++ [] } = s := by
      rw [Nat.add_zero, List.append_nil, ← show s.busyIn = ls from hb]
    exact (core_run_zero s).trans (congrArg _ hs.symm)
  | succ n ih =>
    have hstep := step_sample_waits hq hm hp (hb.trans (by rw [List.replicate_succ, List.cons_append]))
      (Bool.not_ne_self _) (by simp [ht])
    have hrest := ih { s with busyIn := List.replicate n (!s.cfg.idleLevel) ++ ls, polls := s.polls + 1,
                              trace := s.trace ++ [.sample (!s.cfg.idleLevel)] } hq hm ht rfl
    refine (core_run_succ n s _ hstep).trans (hrest.trans ?_)
    simp [List.replicate_succ, Nat.add_assoc, Nat.add_comm 1 n]

/-! ### A position is left within the timeout (R136, R312) -/

/-- A step answers a next state or the model fault ReadUnwritten; a sample always the former (R14, R291). -/
theorem perform_outcome (op : Instr) (k : Nat) (m : Micro) (s : State) :
    (∃ t, perform op k m s = .next t) ∨ (perform op k m s = .fault .readUnwritten ∧ m.prim ≠ .sample) := by
  unfold perform
  cases hp : m.prim with
  | drive p v => exact .inl ⟨_, rfl⟩
  | hold ms => exact .inl ⟨_, rfl⟩
  | sample => exact .inl ⟨_, rfl⟩
  | memWrite a bs => exact .inl ⟨_, rfl⟩
  | write src => cases hg : src.get s.pb <;> simp [hg]
  | memReadAll => cases s.pb.readBytes 0 (nbuf s.cfg) <;> simp

/-- The operation has left position `k`: for the next position of its body, for abortTransfer or for its end. -/
def State.LeftAt (op : Instr) (k : Nat) (s t : State) : Prop :=
  t.cfg = s.cfg ∧
    (t.seq = .ready ∨ t.seq = .aborting op k ∨ (t.seq = .running op (k + 1) ∧ k + 1 < (body s.cfg op).length))

theorem leftAt_advance_effect (op : Instr) (k : Nat) (m : Micro) (s : State) (p : Prim) :
    s.LeftAt op k (advance op k m (s.effect p)) := by
  refine ⟨by simp, ?_⟩
  rcases advance_eq op k m (s.effect p) with ⟨hk, h⟩ | ⟨-, h⟩
  · exact .inr (.inr ⟨by simp [h], by simpa using hk⟩)
  · exact .inl (by simp [h])

theorem State.LeftAt.seq_ne {op : Instr} {k : Nat} {s t : State} (h : s.LeftAt op k t) : t.seq ≠ .running op k := by
  obtain ⟨-, hq | hq | ⟨hq, -⟩⟩ := h <;> simp [hq]

theorem core_run_fault (n : Nat) (s : State) {f : Fault} (h : step s = .fault f) : core.run (n + 1) s = .fault f := by
  have h' : core.step s = .fault f := h
  simp only [Host.Core.run, h']

/-- A step leaves its position, or counts one sample that does not reach the timeout. -/
theorem PrimCase.leftAt_or_counts {op : Instr} {k : Nat} {m : Micro} {s t : State} (h : PrimCase op k m s t) :
    s.LeftAt op k t ∨ ((∀ n, s.cfg.busyTimeout = some n → s.polls + 1 < n) ∧
      t.seq = .running op k ∧ t.polls = s.polls + 1 ∧ t.cfg = s.cfg) := by
  cases h with
  | goesOn _ ht => exact .inl (ht ▸ leftAt_advance_effect op k m s m.prim)
  | fails src bs _ _ _ ht => exact .inl ⟨by simp [ht], .inr (.inl (by simp [ht]))⟩
  | timesOut n _ _ _ _ ht => exact .inl ⟨by simp [ht], .inl (by simp [ht])⟩
  | waits _ _ hn ht => exact .inr ⟨hn, by simp [ht], by simp [ht], by simp [ht]⟩

/-- With a timeout a position is left, or its read of the buffer faults, within `r` steps, where the samples counted so
far and `r` more reach the timeout. -/
theorem run_leaves_position {op : Instr} {k : Nat} {m : Micro} {n r : Nat} {s : State} (hq : s.seq = .running op k)
    (hm : (body s.cfg op)[k]? = some m) (hn : s.cfg.busyTimeout = some n) (hpos : 0 < r) (hr : n ≤ s.polls + r) :
    ∃ j, j ≤ r ∧ ((∃ t, core.run j s = .next t ∧ s.LeftAt op k t) ∨
      (core.run j s = .fault .readUnwritten ∧ m.prim ≠ .sample)) := by
  induction r generalizing s with
  | zero => exact absurd hpos (Nat.lt_irrefl 0)
  | succ r ih =>
    have hstep := step_running s op k m hq hm
    rcases perform_outcome op k m s with ⟨t, ht⟩ | ⟨hfault, hprim⟩
    · rw [ht] at hstep
      rcases (perform_next op k m s t ht).leftAt_or_counts with hleft | ⟨hcount, hq', hpolls, hcfg⟩
      · exact ⟨1, by omega, .inl ⟨t, core_run_succ 0 s t hstep, hleft⟩⟩
      · have hlt := hcount n hn
        obtain ⟨j, hj, hrun⟩ := ih hq' (hcfg ▸ hm) (hcfg ▸ hn) (by omega) (by omega)
        refine ⟨j + 1, by omega, ?_⟩
        rw [core_run_succ j s t hstep]
        simpa only [State.LeftAt, hcfg] using hrun
    · exact ⟨1, by omega, .inr ⟨core_run_fault 0 s (hstep.trans hfault), hprim⟩⟩

/-- Settles O35: the timeout is the number of samples still allowed, and a sample does not fault. -/
theorem waitWithTimeoutEnds : Obligations.WaitWithTimeoutEnds := by
  intro s op k m n hq hm hp hn hpos hpolls
  obtain ⟨j, hj, ⟨t, hrun, hleft⟩ | ⟨-, hnot⟩⟩ := run_leaves_position hq hm hn hpos (by omega)
  · exact ⟨j, t, hj, hrun, hleft.seq_ne⟩
  · exact absurd hp hnot

/-! ### Every operation ends (R312) -/

/-- The operation under way ends: `SEQ` is Ready after some steps, or a read of the buffer faults. -/
def State.Ends (s : State) : Prop :=
  ∃ j : Nat, (∃ t : State, core.run j s = .next t ∧ t.seq = .ready) ∨ core.run j s = .fault .readUnwritten

theorem State.ends_of_ready {s : State} (h : s.seq = .ready) : s.Ends := ⟨0, .inl ⟨s, core_run_zero s, h⟩⟩

theorem State.Ends.of_run {s t : State} {j : Nat} (h : core.run j s = .next t) (ht : t.Ends) : s.Ends := by
  obtain ⟨i, hi⟩ := ht
  exact ⟨j + i, by rwa [core_run_add j i s t h]⟩

theorem State.ends_of_aborting {s : State} {op : Instr} {k : Nat} (hq : s.seq = .aborting op k)
    (hk : k < (body s.cfg op).length) : s.Ends :=
  .of_run (core_run_succ 0 s _ (step_aborting s op k hq hk)) (State.ends_of_ready (State.abort_seq s))

/-- By induction on the positions left: each is left in turn, and a failed write or a timeout ends the operation at
once. -/
theorem State.ends_of_running {op : Instr} {n : Nat} (d : Nat) {s : State} {k : Nat} (hq : s.seq = .running op k)
    (hk : k < (body s.cfg op).length) (hd : (body s.cfg op).length ≤ k + d) (hn : s.cfg.busyTimeout = some n) :
    s.Ends := by
  induction d generalizing s k with
  | zero => omega
  | succ d ih =>
    obtain ⟨j, -, ⟨t, hrun, hcfg, hleft⟩ | ⟨hfault, -⟩⟩ :=
      run_leaves_position hq (List.getElem?_eq_getElem hk) hn (Nat.succ_pos n) (by omega)
    · refine .of_run hrun ?_
      rw [← hcfg] at hk hd hn hleft
      rcases hleft with hready | habort | ⟨hnext, hk'⟩
      · exact State.ends_of_ready hready
      · exact State.ends_of_aborting habort hk
      · exact ih hnext hk' (by omega) hn
    · exact ⟨j, .inr hfault⟩

/-- Settles O36: `CtrlOk` puts a running operation inside its body, whose positions are left one after another. -/
theorem operationsEndUnderATimeout : Obligations.OperationsEndUnderATimeout := by
  intro s n hc hn
  show s.Ends
  cases hq : s.seq with
  | ready => exact State.ends_of_ready hq
  | running op k =>
    obtain ⟨hk, -⟩ := (State.ctrlOk_running hq).1 hc
    exact State.ends_of_running _ hq hk (Nat.le_add_left _ k) hn
  | aborting op k =>
    obtain ⟨hk, -⟩ := (State.ctrlOk_aborting hq).1 hc
    exact State.ends_of_aborting hq hk

end Sys2Proof.Machine
end

section
/-! PROOFS. Reset and initialization (41_reset_init.md): what the pieces of a body do in a run, one after
another (R37, R131, R136, R161). -/

namespace Sys2Proof.Machine

/-! ### Where a piece of a body leads -/

/-- The sequencer at position `k` of an operation, or the operation's end with `STATUS` OK where the body has no such
position (R37). -/
def State.goTo (s : State) (op : Instr) (k : Nat) : State :=
  if k < (body s.cfg op).length then s.setSeq (.running op k) else s.finish .ok []

theorem State.goTo_of_lt {s : State} {op : Instr} {k : Nat} (h : k < (body s.cfg op).length) :
    s.goTo op k = s.setSeq (.running op k) := if_pos h

theorem State.goTo_length (s : State) (op : Instr) : s.goTo op (body s.cfg op).length = s.finish .ok [] :=
  if_neg (Nat.lt_irrefl _)

theorem advance_eq_goTo (op : Instr) (k : Nat) (m : Micro) (s : State) :
    advance op k m s = (s.acts m.after).goTo op (k + 1) := by simp [advance, State.goTo]

/-- The piece `ms` takes `n` steps from `s` to `t`, the sequencer apart, wherever it stands in the body of an
operation. -/
def State.Runs (s : State) (ms : List Micro) (n : Nat) (t : State) : Prop :=
  t.cfg = s.cfg ∧ ∀ op pre post, body s.cfg op = pre ++ ms ++ post →
    core.run n (s.goTo op pre.length) = .next (t.goTo op (pre.length + ms.length))

theorem State.Runs.nil (s : State) : s.Runs [] 0 s := ⟨rfl, fun _ _ _ _ => rfl⟩

theorem State.Runs.append {s t u : State} {ms ns : List Micro} {m n : Nat} (h₁ : s.Runs ms m t) (h₂ : t.Runs ns n u) :
    s.Runs (ms ++ ns) (m + n) u := by
  obtain ⟨hcfg₁, hrun₁⟩ := h₁
  obtain ⟨hcfg₂, hrun₂⟩ := h₂
  refine ⟨hcfg₂.trans hcfg₁, fun op pre post hb => ?_⟩
  have hfirst := hrun₁ op pre (ns ++ post) (by simpa using hb)
  have hsecond := hrun₂ op (pre ++ ms) post (by simpa [hcfg₁] using hb)
  rw [core_run_add m n _ _ hfirst]
  simpa [Nat.add_assoc] using hsecond

/-- A straight piece takes as many steps as it has positions. -/
theorem State.runs_of_straight {s : State} {ms : List Micro} (h : s.Straight ms) : s.Runs ms ms.length (s.play ms) := by
  refine ⟨s.play_cfg ms, fun op pre post hb => ?_⟩
  rcases eq_or_ne ms [] with rfl | hms
  · rfl
  have hlen : (body s.cfg op).length = pre.length + ms.length + post.length := by simp [hb, Nat.add_assoc]
  have hpos := List.length_pos_iff.2 hms
  rw [State.goTo_of_lt (by omega)]
  rcases run_piece (s := s.setSeq (.running op pre.length)) rfl hb rfl hms ((s.straight_setSeq _ _).2 h) with
    ⟨hpost, hrun⟩ | ⟨rfl, hrun⟩
  · have hlt := List.length_pos_iff.2 hpost
    rw [hrun, State.goTo_of_lt (by rw [State.play_cfg]; omega), State.play_setSeq, State.setSeq_setSeq]
  · have hend : pre.length + ms.length = (body (s.play ms).cfg op).length := by simpa using hlen.symm
    rw [hrun, hend, State.goTo_length, State.play_setSeq, State.finish_setSeq]

/-- A piece that is the whole body of an operation ends it. -/
theorem State.Runs.whole {s t : State} {op : Instr} {n : Nat} (h : s.Runs (body s.cfg op) n t) :
    core.run n (s.goTo op 0) = .next (t.finish .ok []) := by
  obtain ⟨hcfg, hrun⟩ := h
  simpa [← hcfg, State.goTo_length] using hrun op [] [] (by simp)

/-- An accepted operation: the state after its first step, from where a run is the rest of the run from position 0. -/
theorem exec_begins {s : State} {op : Instr} {m : Micro} {rest : List Micro} (hq : s.seq = .ready)
    (hp : preCheck op s = none) (hb : body s.cfg op = m :: rest) (hrest : rest ≠ [])
    (hm : (s.acts (entryActs op)).goesOn m.prim) :
    ∃ u, exec op s = .next u ∧
      u = (((s.acts (entryActs op)).effect m.prim).acts m.after).setSeq (.running op 1) ∧
      ∀ n, core.run n u = core.run (n + 1) ((s.acts (entryActs op)).goTo op 0) := by
  have hget : (body s.cfg op)[0]? = some m := by simp [hb]
  have hlen : 1 < (body s.cfg op).length := by simpa [hb, List.length_pos_iff] using hrest
  have hperform : perform op 0 m (s.acts (entryActs op)) =
      .next ((((s.acts (entryActs op)).effect m.prim).acts m.after).setSeq (.running op 1)) := by
    rw [perform_goesOn op 0 m _ hm, advance_eq_goTo, State.goTo_of_lt (by simpa using hlen)]
  refine ⟨_, ?_, rfl, fun n => ?_⟩
  · rw [exec_accept s op (hasBody_of_get _ _ _ _ hget) hq hp, performAt_of_get _ _ m _ (by simpa using hget), hperform]
  · have hstep := step_running ((s.acts (entryActs op)).setSeq (.running op 0)) op 0 m rfl (by simpa using hget)
    rw [perform_setSeq, hperform] at hstep
    rw [State.goTo_of_lt (by simp; omega), core_run_succ n _ _ hstep]

/-! ### The reset pulse (R161) -/

/-- The state after the pulse. -/
def State.pulsed (s : State) : State := { s with rstN := .driven true, trace := s.trace ++ pulseEvents }

@[simp] theorem State.pulsed_cfg (s : State) : s.pulsed.cfg = s.cfg := rfl

theorem State.runs_pulse (s : State) (as : List Action) : s.Runs (andThen resetPulse as) 5 (s.pulsed.acts as) := by
  obtain ⟨hstraight, hplay⟩ := s.play_resetPulse
  have hrun := State.runs_of_straight ((s.straight_andThen _ as).2 hstraight)
  rwa [s.play_andThen resetPulse as (List.cons_ne_nil _ _), hplay, andThen_length] at hrun

/-! ### Transfers on the bus (R130, R131) -/

/-- The state after transfers that ended with CS_N high and DC at `d`: `w` answers taken, and the events `es`. -/
def State.bus (s : State) (d : Bit) (w : Nat) (es : List Event) : State :=
  { s with csN := .driven true, dc := .driven d, answerIn := s.answersAfter w, trace := s.trace ++ es }

@[simp] theorem State.bus_cfg (s : State) (d : Bit) (w : Nat) (es : List Event) : (s.bus d w es).cfg = s.cfg := rfl

@[simp] theorem State.bus_bus (s : State) (d d' : Bit) (w w' : Nat) (es es' : List Event) :
    (s.bus d w es).bus d' w' es' = s.bus d' (w + w') (es ++ es') := by
  have hanswers : (s.bus d w es).answersAfter w' = s.answersAfter (w + w') := State.answersAfter_add s _ w w' rfl rfl
  simp only [State.bus, List.append_assoc] at hanswers ⊢
  rw [hanswers]

theorem State.acts_acts (s : State) (as bs : List Action) : (s.acts as).acts bs = s.acts (as ++ bs) :=
  List.foldl_append.symm

theorem State.acts_bus (s : State) (d : Bit) (w : Nat) (es : List Event) (as : List Action) :
    (s.bus d w es).acts as = (s.acts as).bus d w es := by
  induction as generalizing s with
  | nil => rfl
  | cons a as ih =>
    cases a with
    | setCtrl c => exact ih (s.setCtrl c)
    | clearPolls => exact ih (s.setPolls 0)

theorem State.answersOk_bus {s : State} {w w' : Nat} (h : s.answersOk (w + w') = true) (d : Bit) (es : List Event) :
    (s.bus d w es).answersOk w' = true := State.answersOk_drop s _ w w' rfl rfl h

theorem State.answersOk_acts (s : State) (as : List Action) (w : Nat) : (s.acts as).answersOk w = s.answersOk w := by
  simp [State.answersOk]

/-- How many writes the transaction of a command makes (R130). -/
def commandWrites (c : Cfg) (n : Command) : Nat := if payload c n = [] then 1 else 2

/-- How many writes the transactions of a list of commands make. -/
def writesOf (c : Cfg) (ns : List Command) : Nat := (ns.map (commandWrites c)).sum

/-- The events of the transactions of a list of commands. -/
def eventsOf (c : Cfg) (ns : List Command) : List Event :=
  ns.flatMap fun n => commandEvents (c.opc.code n) (payload c n)

theorem transactionPiece_length_eq (c : Cfg) (n : Command) :
    (transactionPiece c n).length = 4 * commandWrites c n + 1 := by
  rw [transactionPiece_length, commandWrites]
  cases payload c n <;> simp [commandEvents, phaseEvents, dataEvents]

theorem State.runs_transaction (s : State) (n : Command) (h : s.answersOk (commandWrites s.cfg n) = true) :
    s.Runs (transactionPiece s.cfg n) (4 * commandWrites s.cfg n + 1)
      ((s.acts (afterActs n)).bus (payload s.cfg n != []) (commandWrites s.cfg n)
        (commandEvents (s.cfg.opc.code n) (payload s.cfg n))) := by
  obtain ⟨hstraight, hplay⟩ := s.play_transactionPiece n h
  have hrun := State.runs_of_straight hstraight
  rw [transactionPiece_length_eq, hplay] at hrun
  rw [← State.acts_bus]
  exact hrun

/-- Transactions one after another, DC left at the last phase of the last of them. -/
theorem State.runs_transactions (s : State) (ns : List Command) (n : Command)
    (h : s.answersOk (writesOf s.cfg (ns ++ [n])) = true) :
    s.Runs ((ns ++ [n]).flatMap (transactionPiece s.cfg)) (4 * writesOf s.cfg (ns ++ [n]) + (ns ++ [n]).length)
      ((s.acts ((ns ++ [n]).flatMap afterActs)).bus (payload s.cfg n != []) (writesOf s.cfg (ns ++ [n]))
        (eventsOf s.cfg (ns ++ [n]))) := by
  induction ns generalizing s with
  | nil => simpa [writesOf, eventsOf] using s.runs_transaction n (by simpa [writesOf] using h)
  | cons m ns ih =>
    have hsum : writesOf s.cfg (m :: ns ++ [n]) = commandWrites s.cfg m + writesOf s.cfg (ns ++ [n]) := rfl
    rw [hsum] at h ⊢
    have hfirst := s.runs_transaction m (s.answersOk_le _ _ h (Nat.le_add_right _ _))
    have hrest := ih ((s.acts (afterActs m)).bus (payload s.cfg m != []) (commandWrites s.cfg m)
      (commandEvents (s.cfg.opc.code m) (payload s.cfg m)))
      (by simpa using State.answersOk_bus (by rwa [State.answersOk_acts]) _ _)
    have hsteps : 4 * commandWrites s.cfg m + 1 + (4 * writesOf s.cfg (ns ++ [n]) + (ns ++ [n]).length) =
        4 * (commandWrites s.cfg m + writesOf s.cfg (ns ++ [n])) + (m :: ns ++ [n]).length := by
      simp only [List.cons_append, List.length_cons]; omega
    have hrun := hfirst.append hrest
    simp only [State.bus_cfg, State.acts_cfg, State.acts_bus, State.acts_acts, State.bus_bus, hsteps] at hrun
    exact hrun

/-! ### Data phases (R131) -/

/-- The bytes that each source of a list gives. -/
def Gives (p : PixelBuffer) : List Source → List (List Byte) → Prop := List.Forall₂ fun src bs => src.get p = some bs

theorem State.runs_sendData (s : State) {src : Source} {bs : List Byte} (hg : src.get s.pb = some bs)
    (hok : s.answersOk 1 = true) : s.Runs (sendData none src) 4 (s.bus true 1 (dataEvents bs)) := by
  obtain ⟨hstraight, hplay⟩ := s.play_sendData none src bs hg hok
  have hrun := State.runs_of_straight hstraight
  rwa [hplay] at hrun

/-- Data phases after a transfer leave DC at some level. -/
theorem State.runs_dataPhases {s : State} {chunks : List Source} {ds : List (List Byte)} (d : Bit) (w : Nat)
    (es : List Event) (hg : Gives s.pb chunks ds) (hok : s.answersOk (w + ds.length) = true) :
    ∃ d', (s.bus d w es).Runs (chunks.flatMap (sendData none)) (4 * chunks.length)
      (s.bus d' (w + ds.length) (es ++ ds.flatMap dataEvents)) := by
  induction hg generalizing d w es with
  | nil => exact ⟨d, by simpa using State.Runs.nil _⟩
  | @cons src bs chunks ds hsrc _ ih =>
    have hsplit : w + (bs :: ds).length = w + 1 + ds.length := by simp only [List.length_cons]; omega
    rw [hsplit] at hok ⊢
    have hfirst := (s.bus d w es).runs_sendData hsrc (State.answersOk_bus (s.answersOk_le _ _ hok (by omega)) d es)
    obtain ⟨d', hrest⟩ := ih true (w + 1) (es ++ dataEvents bs) hok
    rw [State.bus_bus] at hfirst
    refine ⟨d', ?_⟩
    have hrun := hfirst.append hrest
    simpa [Nat.mul_add, Nat.add_comm 4] using hrun

/-! ### The wait (R136) -/

/-- The position of a wait, with the register writes that follow it. -/
def waitMicro (as : List Action) : Micro := { prim := .sample, cmd := none, after := as }

/-- The state after `j` samples that are not idle, with the levels `ls` left. -/
def State.counted (s : State) (j : Nat) (ls : List Bit) : State :=
  { s with busyIn := ls, polls := s.polls + j,
           trace := s.trace ++ List.replicate j (.sample (!s.cfg.idleLevel)) }

theorem withinTimeout_iff (c : Cfg) (n : Nat) : withinTimeout c n = true ↔ ∀ t, c.busyTimeout = some t → n < t := by
  cases h : c.busyTimeout <;> simp [withinTimeout, h]

/-- Samples that are not idle and do not reach the timeout leave the wait where it is. -/
theorem run_counted {s : State} {op : Instr} {k : Nat} {as : List Action} {j : Nat} {ls : List Bit}
    (hq : s.seq = .running op k) (hm : (body s.cfg op)[k]? = some (waitMicro as))
    (hn : withinTimeout s.cfg (s.polls + j) = true) (hb : s.busyIn = List.replicate j (!s.cfg.idleLevel) ++ ls) :
    core.run j s = .next (s.counted j ls) := by
  rw [withinTimeout_iff] at hn
  induction j generalizing s with
  | zero =>
    have hs : s.counted 0 ls = s := by
      rw [State.counted, Nat.add_zero, List.replicate_zero, List.append_nil, ← show s.busyIn = ls from hb]
    exact (core_run_zero s).trans (congrArg _ hs.symm)
  | succ j ih =>
    have hstep := step_sample_waits hq hm rfl (hb.trans (by rw [List.replicate_succ, List.cons_append]))
      (Bool.not_ne_self _) (fun t ht => by have := hn t ht; omega)
    have hrest := ih (s := s.counted 1 (List.replicate j (!s.cfg.idleLevel) ++ ls)) hq hm
      (fun t ht => by have := hn t ht; simp only [State.counted]; omega) rfl
    refine (core_run_succ j s _ hstep).trans (hrest.trans ?_)
    simp [State.counted, List.replicate_succ, Nat.add_assoc, Nat.add_comm 1 j]

/-- The state after a wait that met `n` levels that are not idle and then the idle level. -/
def State.waited (s : State) (n : Nat) (ls : List Bit) : State :=
  { s with busyIn := ls, polls := n, trace := s.trace ++ waitEvents s.cfg n }

@[simp] theorem State.waited_cfg (s : State) (n : Nat) (ls : List Bit) : (s.waited n ls).cfg = s.cfg := rfl

/-- A whole wait, from no sample counted, takes a step for each sample. -/
theorem State.runs_wait (s : State) (as : List Action) (n : Nat) (ls : List Bit) (hpolls : s.polls = 0)
    (hn : withinTimeout s.cfg n = true) (hb : s.busyIn = waitLevels s.cfg n ++ ls) :
    s.Runs [waitMicro as] (n + 1) ((s.waited n ls).acts as) := by
  obtain ⟨u, hu⟩ : ∃ u, u = s.counted n (s.cfg.idleLevel :: ls) := ⟨_, rfl⟩
  have hcfg : u.cfg = s.cfg := by rw [hu]; rfl
  obtain ⟨hlevel, hsample⟩ := State.busSample_scripted (s := u) (l := s.cfg.idleLevel) (ls := ls) (by rw [hu]; rfl)
  have hwaited : u.busSample = s.waited n ls := by
    rw [hsample, hu]
    simp [State.counted, State.waited, waitEvents, hpolls]
  obtain ⟨-, hidle⟩ := State.runs_of_straight (s := u) (ms := [waitMicro as]) ⟨hlevel.trans (by rw [hcfg]), trivial⟩
  refine ⟨by simp [State.waited], fun op pre post hbody => ?_⟩
  have hget : (body s.cfg op)[pre.length]? = some (waitMicro as) := by simp [hbody]
  have hlen : pre.length < (body s.cfg op).length := (List.getElem?_eq_some_iff.1 hget).1
  have hcount : core.run n (s.goTo op pre.length) = .next (u.goTo op pre.length) := by
    rw [State.goTo_of_lt hlen, State.goTo_of_lt (s := u) (by rwa [hcfg]), hu]
    exact run_counted (ls := s.cfg.idleLevel :: ls) rfl hget
      (by simpa [hpolls] using hn) (hb.trans (by simp [waitLevels]))
  rw [core_run_add n 1 _ _ hcount, ← hwaited]
  exact hidle op pre post (by rwa [hcfg])

/-! ### A body that ends with a wait -/

/-- The operation waits behind a piece that begins its body: `STATE` stays, and the samples are the only events. -/
theorem State.Runs.waits {s t : State} {op : Instr} {ms : List Micro} {m n : Nat} {as : List Action} {ls : List Bit}
    (h : s.Runs ms m t) (hb : body s.cfg op = ms ++ [waitMicro as]) (hpolls : t.polls = 0)
    (hn : withinTimeout s.cfg n = true) (hbusy : t.busyIn = waitLevels s.cfg n ++ ls) {j : Nat} (hj : j ≤ n) :
    ∃ v, core.run (m + j) (s.goTo op 0) = .next v ∧ v.ctrl = t.ctrl ∧
      v.trace = t.trace ++ List.replicate j (.sample (!s.cfg.idleLevel)) := by
  obtain ⟨hcfg, hrun⟩ := h
  rw [← hcfg] at hn hbusy ⊢
  have hget : (body t.cfg op)[ms.length]? = some (waitMicro as) := by simp [hcfg, hb]
  have hmoved := hrun op [] [waitMicro as] hb
  rw [List.length_nil, Nat.zero_add, State.goTo_of_lt (List.getElem?_eq_some_iff.1 hget).1] at hmoved
  have hlevels : t.busyIn = List.replicate j (!t.cfg.idleLevel) ++
      (List.replicate (n - j) (!t.cfg.idleLevel) ++ t.cfg.idleLevel :: ls) := by
    rw [hbusy, waitLevels, ← List.append_assoc (List.replicate j _), List.replicate_append_replicate,
      Nat.add_sub_cancel' hj]
    simp
  have hwithin : withinTimeout t.cfg (t.polls + j) = true := by
    rw [withinTimeout_iff] at hn ⊢
    exact fun k hk => by have := hn k hk; omega
  have hcount := run_counted (s := t.setSeq (.running op ms.length)) rfl hget hwithin hlevels
  exact ⟨_, (core_run_add m j _ _ hmoved).trans hcount, rfl, rfl⟩

/-- A body that ends with a wait, run to its end. -/
theorem State.Runs.waited {s t : State} {op : Instr} {ms : List Micro} {m n : Nat} {as : List Action} {ls : List Bit}
    (h : s.Runs ms m t) (hb : body s.cfg op = ms ++ [waitMicro as]) (hpolls : t.polls = 0)
    (hn : withinTimeout s.cfg n = true) (hbusy : t.busyIn = waitLevels s.cfg n ++ ls) :
    core.run (m + (n + 1)) (s.goTo op 0) = .next (((t.waited n ls).acts as).finish .ok []) := by
  have hcfg : t.cfg = s.cfg := h.1
  rw [← hcfg] at hn hbusy
  exact State.Runs.whole (hb ▸ h.append (t.runs_wait as n ls hpolls hn hbusy))

end Sys2Proof.Machine
end

section
/-! PROOFS. Reset and initialization (41_reset_init.md): RESET, and INIT without the blank refresh (R160, R163). -/

namespace Sys2Proof.Machine

/-! ### RESET (R160) -/

/-- Settles O37: RESET's body is the pulse. -/
theorem resetPulsesTheController : Obligations.ResetPulsesTheController := by
  intro s hq
  obtain ⟨u, hexec, hu, hrun⟩ := exec_begins (op := .reset) hq rfl rfl (List.cons_ne_nil _ _) trivial
  have hwhole := State.Runs.whole (op := .reset) (State.runs_pulse (s.setCtrl .resetting) [.setCtrl .uninitialized])
  refine ⟨u, hexec, hu, (hrun 4).trans (hwhole.trans ?_)⟩
  rw [hq]
  rfl

/-! ### The initialization sequence (R163) -/

theorem initBody_eq (c : Cfg) (blank : Bit) : initBody c blank =
    andThen resetPulse [.setCtrl .initializing] ++ [.btst, .pwr, .pon].flatMap (transactionPiece c) ++ [waitMicro []] ++
      [.psr, .pll, .tres, .vdcs, .cdi].flatMap (transactionPiece c) ++ if blank then blankRefresh c else [] := by
  simp [initBody, thenWait, transactionPiece, afterActs, waitMicro]

/-- With BLANK the body goes on where it ends without (R163). -/
theorem initBody_true (c : Cfg) : initBody c true = initBody c false ++ blankRefresh c := by
  simp [initBody_eq]

/-- A command of a legal configuration makes two writes, or one where it has no payload (R98, R130). -/
theorem commandWrites_of_arity {c : Cfg} (hc : legal c = true) {n : Command} {k : Nat} (hn : arity n = some k) :
    commandWrites c n = if k = 0 then 1 else 2 := by
  simp only [commandWrites, ← List.length_eq_zero_iff, payload_length hc n k hn]

theorem initEvents_eq (c : Cfg) (n : Nat) : initEvents c n =
    pulseEvents ++ eventsOf c [.btst, .pwr, .pon] ++ waitEvents c n ++ eventsOf c [.psr, .pll, .tres, .vdcs, .cdi] := by
  simp [initEvents, eventsOf, payload, pBtst, tresPayload, Opc.code]

/-- The state at the wait after PON: five writes are made and no sample is counted (R161 to R166). -/
def State.powered (s : State) : State :=
  ((s.pulsed.setCtrl .initializing).setPolls 0).bus false 5 (eventsOf s.cfg [.btst, .pwr, .pon])

/-- The pulse, BTST, PWR and PON. -/
theorem State.runs_power (s : State) (hc : legal s.cfg = true) (hok : s.answersOk 5 = true) :
    s.Runs (andThen resetPulse [.setCtrl .initializing] ++ [.btst, .pwr, .pon].flatMap (transactionPiece s.cfg)) 28
      s.powered := by
  have hwrites : writesOf s.cfg ([.btst, .pwr] ++ [.pon]) = 5 := by
    simp [writesOf, commandWrites_of_arity hc (n := .btst) rfl, commandWrites_of_arity hc (n := .pwr) rfl,
      commandWrites_of_arity hc (n := .pon) rfl]
  have hrun := (s.pulsed.setCtrl .initializing).runs_transactions [.btst, .pwr] .pon (hwrites ▸ hok)
  simp only [State.setCtrl_cfg, State.pulsed_cfg, hwrites] at hrun
  exact (s.runs_pulse [.setCtrl .initializing]).append hrun

/-- PSR, PLL, TRES, VDCS and CDI: ten writes, then Idle (R168 to R172). -/
theorem State.runs_configure (s : State) (hc : legal s.cfg = true) (hok : s.answersOk 10 = true) :
    s.Runs ([.psr, .pll, .tres, .vdcs, .cdi].flatMap (transactionPiece s.cfg)) 45
      ((s.setCtrl .idle).bus true 10 (eventsOf s.cfg [.psr, .pll, .tres, .vdcs, .cdi])) := by
  have hwrites : writesOf s.cfg ([.psr, .pll, .tres, .vdcs] ++ [.cdi]) = 10 := by
    simp [writesOf, commandWrites_of_arity hc (n := .psr) rfl, commandWrites_of_arity hc (n := .pll) rfl,
      commandWrites_of_arity hc (n := .tres) rfl, commandWrites_of_arity hc (n := .vdcs) rfl,
      commandWrites_of_arity hc (n := .cdi) rfl]
  have hcdi : (payload s.cfg .cdi != []) = true := by
    have hlen := payload_length hc .cdi 1 rfl
    rw [bne_iff_ne, ← List.length_pos_iff, hlen]
    decide
  have hrun := s.runs_transactions [.psr, .pll, .tres, .vdcs] .cdi (by rwa [hwrites])
  rw [hwrites, hcdi] at hrun
  exact hrun

/-- The state INIT with BLANK 0 leaves (R163). -/
def State.afterInit (s : State) (n : Nat) (ls : List Bit) : State :=
  { s with ctrl := .idle, csN := .driven true, dc := .driven true, rstN := .driven true, polls := n,
           trace := s.trace ++ initEvents s.cfg n, busyIn := ls, answerIn := s.answersAfter 15 }

/-- INIT's body with BLANK 0, from the pulse to CDI. -/
theorem State.runs_init (s : State) (n : Nat) (ls : List Bit) (hc : legal s.cfg = true)
    (hn : withinTimeout s.cfg n = true) (hok : s.answersOk 15 = true) (hb : s.busyIn = waitLevels s.cfg n ++ ls) :
    s.Runs (initBody s.cfg false) (74 + n) (s.afterInit n ls) := by
  have hpower := s.runs_power hc (s.answersOk_le _ _ hok (by decide))
  have hwait := s.powered.runs_wait [] n ls rfl hn hb
  have hconfigure := (s.powered.waited n ls).runs_configure hc (State.answersOk_drop s _ 5 10 rfl rfl hok)
  have hend : ((s.powered.waited n ls).setCtrl .idle).bus true 10
      (eventsOf s.cfg [.psr, .pll, .tres, .vdcs, .cdi]) = s.afterInit n ls := by
    rw [State.bus, s.answersAfter_add ((s.powered.waited n ls).setCtrl .idle) 5 10 rfl rfl]
    simp [State.afterInit, State.powered, State.bus, State.waited, State.setCtrl, State.setPolls, State.pulsed,
      initEvents_eq]
  rw [← hend, initBody_eq, if_neg Bool.false_ne_true, List.append_nil, show 74 + n = 28 + (n + 1) + 45 by omega]
  exact (hpower.append hwait).append hconfigure

/-- INIT and WAKE, accepted: Resetting and the first drive of the pulse; from there a run is the rest of the run of the
body. -/
theorem exec_begins_pulse {s : State} {op : Instr} {blank : Bit} (hq : s.seq = .ready) (hp : preCheck op s = none)
    (hentry : entryActs op = [.setCtrl .resetting]) (hbody : ∀ c, body c op = initBody c blank) :
    ∃ u, exec op s = .next u ∧
      u = { s with ctrl := .resetting, rstN := .driven true, trace := s.trace ++ [.drive .rstN true],
                   seq := .running op 1 } ∧
      ∀ n, core.run n u = core.run (n + 1) ((s.setCtrl .resetting).goTo op 0) := by
  have hb : ∃ rest, rest ≠ [] ∧ body s.cfg op = micro none (.drive .rstN true) :: rest :=
    ⟨_, List.cons_ne_nil _ _, (hbody _).trans rfl⟩
  obtain ⟨rest, hrest, hb⟩ := hb
  have hbegins := exec_begins hq hp hb hrest trivial
  rw [hentry] at hbegins
  exact hbegins

/-- Settles O38: INIT's body with BLANK 0 is the whole body. -/
theorem initSendsTheSequence : Obligations.InitSendsTheSequence := by
  intro s n ls hc hq hn hok hb
  obtain ⟨u, hexec, hu, hrun⟩ := exec_begins_pulse (op := .init false) hq rfl rfl (fun _ => rfl)
  have hwhole := State.Runs.whole (op := .init false) ((s.setCtrl .resetting).runs_init n ls hc hn hok hb)
  refine ⟨u, hexec, hu, (hrun (73 + n)).trans ?_⟩
  rw [show 73 + n + 1 = 74 + n by omega, hwhole, hq]
  rfl

end Sys2Proof.Machine
end

section
/-! PROOFS. Reset and initialization (41_reset_init.md): INIT with the blank refresh, with the pieces of
FILL and DISPLAY it is made of (R163, R173, R190, R241). -/

namespace Sys2Proof.Machine

/-! ### Writing and reading the whole buffer (R14, R163) -/

theorem State.play_memWrites (s : State) (v : Byte) (a n : Nat) :
    s.Straight (memWrites v a n) ∧
      s.play (memWrites v a n) = s.setPb (s.pb.writeBytes a (List.replicate n v)) := by
  induction n generalizing s a with
  | zero => exact ⟨trivial, rfl⟩
  | succ n ih =>
    obtain ⟨hstraight, hplay⟩ := ih (s.setPb (s.pb.writeByte a v)) (a + 1)
    exact ⟨⟨trivial, hstraight⟩, hplay⟩

/-- The loop that writes one value to every byte takes a step for each (R37). -/
theorem State.runs_fillLoop (s : State) (v : Byte) :
    s.Runs (fillLoop s.cfg v) (nbuf s.cfg) (s.setPb (s.pb.writeBytes 0 (List.replicate (nbuf s.cfg) v))) := by
  obtain ⟨hstraight, hplay⟩ := s.play_memWrites v 0 (nbuf s.cfg)
  have hrun := State.runs_of_straight hstraight
  rwa [hplay, memWrites_eq, List.length_map, List.length_range', ← memWrites_eq] at hrun

/-- The read of a written buffer changes nothing. -/
theorem State.runs_memReadAll (s : State) {d : List Byte} (h : s.pb.readBytes 0 (nbuf s.cfg) = some d) :
    s.Runs [micro none .memReadAll] 1 s :=
  State.runs_of_straight (s := s) (ms := [micro none .memReadAll]) ⟨Option.isSome_iff_exists.2 ⟨d, h⟩, trivial⟩

/-- A byte that was just written is read back. -/
theorem PixelBuffer.readByte_writeBytes_replicate (p : PixelBuffer) (v : Byte) (a n b : Nat) (ha : a ≤ b)
    (hb : b < a + n) : (p.writeBytes a (List.replicate n v)).readByte b = some v := by
  induction n generalizing p a with
  | zero => omega
  | succ n ih =>
    rw [List.replicate_succ, PixelBuffer.writeBytes]
    rcases Nat.eq_or_lt_of_le ha with rfl | hlt
    · rw [PixelBuffer.readByte_writeBytes_below _ _ _ _ (Nat.lt_succ_self a), PixelBuffer.readByte_writeByte,
        if_pos rfl]
    · exact ih _ _ hlt (by omega)

/-- Reading consecutive bytes in two parts. -/
theorem PixelBuffer.readBytes_take_drop {p : PixelBuffer} {a m n : Nat} {d : List Byte}
    (h : p.readBytes a (m + n) = some d) :
    p.readBytes a m = some (d.take m) ∧ p.readBytes (a + m) n = some (d.drop m) := by
  induction m generalizing a d with
  | zero => simpa using h
  | succ m ih =>
    rw [Nat.succ_add] at h
    simp only [PixelBuffer.readBytes] at h ⊢
    split at h
    · next v vs hv hvs =>
      cases h
      obtain ⟨htake, hdrop⟩ := ih hvs
      rw [show a + (m + 1) = a + 1 + m by omega]
      simpa [hv, htake] using hdrop
    · cases h

/-! ### DISPLAY-body (R190) -/

/-- The chunks of a read buffer are the buffer's bytes, split (R76, R192). -/
theorem gives_chunksFrom {p : PixelBuffer} {a : Nat} {lens : List Nat} {d : List Byte}
    (h : p.readBytes a lens.sum = some d) : Gives p (chunksFrom a lens) (split d lens) := by
  induction lens generalizing a d with
  | nil => exact .nil
  | cons n lens ih =>
    obtain ⟨hfirst, hrest⟩ := PixelBuffer.readBytes_take_drop (h : p.readBytes a (n + lens.sum) = some d)
    exact .cons hfirst (ih hrest)

theorem chunksFrom_length (a : Nat) (lens : List Nat) : (chunksFrom a lens).length = lens.length := by
  induction lens generalizing a with
  | nil => rfl
  | cons n lens ih => simp [chunksFrom, ih]

/-- DISPLAY-body up to its wait. -/
def refreshBody (c : Cfg) (chunks : List Source) : List Micro :=
  transactionPiece c .dtm2 ++ chunks.flatMap (sendData none) ++ [.dsp, .drf].flatMap (transactionPiece c)

theorem displayBody_eq (c : Cfg) (chunks : List Source) :
    displayBody c chunks = refreshBody c chunks ++ [waitMicro [.setCtrl .idle]] := by
  simp [displayBody, refreshBody, thenWait, transactionPiece, afterActs, andThen_andThen, waitMicro]

/-- The state at the wait after DRF: Busy, with no sample counted (R194). -/
def State.refreshing (s : State) (d : List Byte) : State :=
  ((s.setCtrl .busy).setPolls 0).bus false (3 + s.cfg.chunking.length) (refreshEvents s.cfg d)

theorem State.runs_refresh {s : State} {chunks : List Source} {d : List Byte}
    (hg : Gives s.pb chunks (split d s.cfg.chunking)) (hlen : chunks.length = s.cfg.chunking.length)
    (hok : s.answersOk (3 + s.cfg.chunking.length) = true) :
    s.Runs (refreshBody s.cfg chunks) (15 + 4 * s.cfg.chunking.length) (s.refreshing d) := by
  have hlen' : (split d s.cfg.chunking).length = s.cfg.chunking.length := by rw [← hlen]; exact hg.length_eq.symm
  have hdtm2 := s.runs_transaction .dtm2 (s.answersOk_le _ _ hok (by simp [commandWrites, payload]; omega))
  obtain ⟨d', hdata⟩ := State.runs_dataPhases false 1 (commandEvents s.cfg.opc.dtm2 []) hg
    (s.answersOk_le _ _ hok (by omega))
  have hend := State.runs_transactions (s.bus d' (1 + (split d s.cfg.chunking).length)
    (commandEvents s.cfg.opc.dtm2 [] ++ (split d s.cfg.chunking).flatMap dataEvents)) [.dsp] .drf
    (State.answersOk_bus (w' := 2) (s.answersOk_le _ _ hok (by omega)) _ _)
  have hstate : ((s.bus d' (1 + (split d s.cfg.chunking).length)
      (commandEvents s.cfg.opc.dtm2 [] ++ (split d s.cfg.chunking).flatMap dataEvents)).acts
        [.setCtrl .busy, .clearPolls]).bus false 2 (eventsOf s.cfg [.dsp, .drf]) = s.refreshing d := by
    rw [State.acts_bus, State.bus_bus, hlen', show 1 + s.cfg.chunking.length + 2 = 3 + s.cfg.chunking.length by omega]
    simp [State.refreshing, refreshEvents, eventsOf, payload, Opc.code]
  rw [← hstate, ← hlen, show 15 + 4 * chunks.length = 5 + 4 * chunks.length + 10 by omega]
  exact (hdtm2.append hdata).append hend

/-! ### INIT with the blank refresh (R173) -/

/-- INIT's body with BLANK 1, up to the wait of the refresh. -/
def blankBody (c : Cfg) : List Micro :=
  initBody c false ++ fillLoop c whiteByte ++ [micro none .memReadAll] ++ refreshBody c (bufferChunks c)

theorem initBody_true_eq (c : Cfg) : initBody c true = blankBody c ++ [waitMicro [.setCtrl .idle]] := by
  simp [initBody_true, blankRefresh, displayBody_eq, blankBody]

/-- `PB` with every byte of the buffer white, as the blank refresh's loop leaves it (R163). -/
def State.whitePb (s : State) : PixelBuffer := s.pb.writeBytes 0 (List.replicate (nbuf s.cfg) whiteByte)

theorem State.readBytes_whitePb (s : State) :
    s.whitePb.readBytes 0 (nbuf s.cfg) = some (List.replicate (nbuf s.cfg) whiteByte) := by
  have hread := s.pb.readBytes_writeBytes 0 (List.replicate (nbuf s.cfg) whiteByte)
  rwa [List.length_replicate] at hread

/-- The state INIT with BLANK 1 waits in after DRF (R173, R194). -/
def State.blanking (s : State) (n : Nat) (ls : List Bit) : State :=
  { s with ctrl := .busy, csN := .driven true, dc := .driven false, rstN := .driven true, polls := 0, pb := s.whitePb,
           trace := s.trace ++ initEvents s.cfg n ++ refreshEvents s.cfg (List.replicate (nbuf s.cfg) whiteByte),
           busyIn := ls, answerIn := s.answersAfter (18 + s.cfg.chunking.length) }

/-- INIT's events, the loop, the read of the buffer, then DISPLAY's events on a white buffer. -/
theorem State.runs_blank (s : State) (n : Nat) (ls : List Bit) (hc : legal s.cfg = true)
    (hn : withinTimeout s.cfg n = true) (hok : s.answersOk (18 + s.cfg.chunking.length) = true)
    (hb : s.busyIn = waitLevels s.cfg n ++ ls) :
    s.Runs (blankBody s.cfg) (74 + n + nbuf s.cfg + 1 + (15 + 4 * s.cfg.chunking.length)) (s.blanking n ls) := by
  obtain ⟨-, hsum⟩ := legal_chunking hc
  have hwrites : 18 + s.cfg.chunking.length = 15 + (3 + s.cfg.chunking.length) := by omega
  rw [hwrites] at hok
  have hread := s.readBytes_whitePb
  have hinit := s.runs_init n ls hc hn (s.answersOk_le _ _ hok (by omega)) hb
  have hfill : (s.afterInit n ls).Runs (fillLoop s.cfg whiteByte) (nbuf s.cfg) ((s.afterInit n ls).setPb s.whitePb) :=
    (s.afterInit n ls).runs_fillLoop whiteByte
  have hreadAll := ((s.afterInit n ls).setPb s.whitePb).runs_memReadAll hread
  have hgives : Gives s.whitePb (bufferChunks s.cfg)
      (split (List.replicate (nbuf s.cfg) whiteByte) s.cfg.chunking) := gives_chunksFrom (by rwa [hsum])
  have hrefresh := State.runs_refresh (s := (s.afterInit n ls).setPb s.whitePb) hgives (chunksFrom_length 0 _)
    (State.answersOk_drop s _ 15 _ rfl rfl hok)
  have hend : ((s.afterInit n ls).setPb s.whitePb).refreshing (List.replicate (nbuf s.cfg) whiteByte) =
      s.blanking n ls := by
    rw [State.blanking, hwrites, ← s.answersAfter_add ((s.afterInit n ls).setPb s.whitePb) 15 _ rfl rfl]
    rfl
  rw [← hend]
  exact ((hinit.append hfill).append hreadAll).append hrefresh

/-- Settles O40: the blank refresh is DISPLAY-body on the buffer that its loop has written white. -/
theorem initBlankRefreshesWhite : Obligations.InitBlankRefreshesWhite := by
  intro s n n' ls hc hq hn hn' hok hb
  obtain ⟨u, hexec, hu, hrun⟩ := exec_begins_pulse (op := .init true) hq rfl rfl (fun _ => rfl)
  have hblank := (s.setCtrl .resetting).runs_blank n (waitLevels s.cfg n' ++ ls) hc hn hok hb
  have hbody : body (s.setCtrl .resetting).cfg (.init true) = blankBody s.cfg ++ [waitMicro [.setCtrl .idle]] :=
    initBody_true_eq s.cfg
  simp only [State.setCtrl_cfg] at hblank
  refine ⟨u, s.whitePb, hexec, hu, ?_, fun j hj => ?_, fun a ha => ?_, fun a ha => ?_⟩
  · have hend := hblank.waited hbody rfl hn' rfl
    rw [hrun, show 73 + n + nbuf s.cfg + 1 + (16 + 4 * s.cfg.chunking.length + n') + 1 =
      74 + n + nbuf s.cfg + 1 + (15 + 4 * s.cfg.chunking.length) + (n' + 1) by omega, hend, hq]
    rw [displayEvents, ← List.append_assoc]
    rfl
  · obtain ⟨v, hv, hctrl, htrace⟩ := hblank.waits hbody rfl hn' rfl hj
    refine ⟨v, ?_, hctrl, htrace⟩
    rw [hrun, ← hv]
    congr 1
    omega
  · exact s.pb.readByte_writeBytes_replicate whiteByte 0 (nbuf s.cfg) a (Nat.zero_le a) (by omega)
  · exact s.pb.readByte_writeBytes_above 0 a _ (by simpa using ha)

end Sys2Proof.Machine
end

section
/-! PROOFS. Refresh (42_refresh.md): DISPLAY's chunks, and the two operations made of DISPLAY-body, DISPLAY and SHOW
(R190 to R196). -/

namespace Sys2Proof.Machine

/-! ### Chunks (R192) -/

@[simp] theorem split_length (d : List Byte) (lens : List Nat) : (split d lens).length = lens.length := by
  induction lens generalizing d with
  | nil => rfl
  | cons n lens ih => simp [split, ih]

/-- The chunks are consecutive: together they are the start of the buffer, as long as their lengths add up to. -/
theorem flatten_split (d : List Byte) (lens : List Nat) : (split d lens).flatten = d.take lens.sum := by
  induction lens generalizing d with
  | nil => rfl
  | cons n lens ih => rw [split, List.flatten_cons, ih, List.sum_cons, List.take_add]

/-- Chunks that lie in the buffer have the configured lengths. -/
theorem map_length_split {d : List Byte} {lens : List Nat} (h : lens.sum ≤ d.length) :
    (split d lens).map List.length = lens := by
  induction lens generalizing d with
  | nil => rfl
  | cons n lens ih =>
    rw [List.sum_cons] at h
    rw [split, List.map_cons, ih (by rw [List.length_drop]; omega), List.length_take, Nat.min_eq_left (by omega)]

/-- Settles O29: the lengths of a legal chunking are positive and add up to `NBUF`. -/
theorem chunksConcatenateToTheBuffer : Obligations.ChunksConcatenateToTheBuffer := by
  intro c d hc hd
  obtain ⟨hpos, hsum⟩ := legal_chunking hc
  rw [← hsum] at hd
  refine ⟨?_, map_length_split hd.ge, fun s hs => ?_⟩
  · rw [flatten_split, ← hd, List.take_length]
  · exact dataChunks_nonEmpty d c.chunking hd.ge hpos (.bytes s) (List.mem_map_of_mem hs)

/-- The chunks of a buffer the host sent give their own bytes, whatever `PB` holds (R190, R192). -/
theorem gives_map_bytes (p : PixelBuffer) (ds : List (List Byte)) : Gives p (ds.map .bytes) ds := by
  induction ds with
  | nil => exact .nil
  | cons d ds ih => exact .cons rfl ih

/-! ### The end of a refresh (R190, R194) -/

/-- The state DISPLAY and SHOW leave: the wait has met `n` levels that are not idle, and the response is sent. -/
def State.refreshed (s : State) (d : List Byte) (n : Nat) (ls : List Bit) : State :=
  { s with status := 0x00, csN := .driven true, dc := .driven false, polls := n, busyIn := ls,
           answerIn := s.answersAfter (3 + s.cfg.chunking.length), trace := s.trace ++ displayEvents s.cfg d n,
           hrsp := s.hrsp ++ [[0x00, 0x03]] }

/-- Once DISPLAY-body stands at its wait, after the accepting step to `u` and `k` more, the operation is Busy up to the
idle sample, and ends in Idle. -/
theorem State.Runs.refreshed {s u : State} {op : Instr} {ms : List Micro} {d : List Byte} {m k n : Nat} {ls : List Bit}
    (h : s.Runs ms m (s.refreshing d)) (hm : m = k + 1) (hu : ∀ i, core.run i u = core.run (i + 1) (s.goTo op 0))
    (hb : body s.cfg op = ms ++ [waitMicro [.setCtrl .idle]]) (hq : s.seq = .ready) (hctrl : s.ctrl = .idle)
    (hn : withinTimeout s.cfg n = true) (hbusy : s.busyIn = waitLevels s.cfg n ++ ls) :
    core.run (m + n) u = .next (s.refreshed d n ls) ∧
      ∀ j, j ≤ n → ∃ v : State, core.run (k + j) u = .next v ∧ v.ctrl = .busy ∧
        v.trace = s.trace ++ refreshEvents s.cfg d ++ List.replicate j (.sample (!s.cfg.idleLevel)) := by
  refine ⟨(hu _).trans ((h.waited hb rfl hn hbusy).trans ?_), fun j hj => ?_⟩
  · rw [State.refreshed, displayEvents, ← List.append_assoc, hq, hctrl]
    rfl
  · rw [hu, Nat.add_right_comm, ← hm]
    exact h.waits hb rfl hn hbusy hj

/-! ### DISPLAY (R190 to R194) -/

/-- Settles O41: DISPLAY's body is DISPLAY-body over the chunks of the host's buffer. -/
theorem displayStreamsTheBuffer : Obligations.DisplayStreamsTheBuffer := by
  intro s len d n ls _ hq hctrl hlen _ hn hok hbusy
  have hcheck : preCheck (.display len d) s = none := by simp [preCheck, accepts, operandError, hctrl, hlen]
  have hbody : body s.cfg (.display len d) =
      refreshBody s.cfg (dataChunks s.cfg d) ++ [waitMicro [.setCtrl .idle]] := displayBody_eq _ _
  obtain ⟨u, hexec, hu, hrun⟩ :=
    exec_begins hq hcheck (m := micro (some .dtm2) (.drive .csN true)) hbody (by simp) trivial
  have hrefresh := State.runs_refresh (gives_map_bytes s.pb (split d s.cfg.chunking)) (by simp) hok
  exact ⟨u, hexec, hu, hrefresh.refreshed (by omega) hrun hbody hq hctrl hn hbusy⟩

/-! ### SHOW (R196) -/

theorem preCheck_showBuf {s : State} (h : s.ctrl = .idle) : preCheck .showBuf s = none := by
  simp [preCheck, accepts, operandError, h]

/-- SHOW up to its wait: the read of the whole buffer, then DISPLAY-body over the chunks of `PB` (R76, R196). -/
theorem State.runs_show {s : State} {d : List Byte} (hc : legal s.cfg = true)
    (hread : s.pb.readBytes 0 (nbuf s.cfg) = some d) (hok : s.answersOk (3 + s.cfg.chunking.length) = true) :
    s.Runs ([micro none .memReadAll] ++ refreshBody s.cfg (bufferChunks s.cfg)) (16 + 4 * s.cfg.chunking.length)
      (s.refreshing d) := by
  obtain ⟨-, hsum⟩ := legal_chunking hc
  have hrefresh := State.runs_refresh (gives_chunksFrom (by rwa [hsum])) (chunksFrom_length 0 _) hok
  rw [show 16 + 4 * s.cfg.chunking.length = 1 + (15 + 4 * s.cfg.chunking.length) by omega]
  exact (s.runs_memReadAll hread).append hrefresh

/-- Settles O42: SHOW waits behind a refresh of `PB`, as DISPLAY does behind one of the host's buffer. -/
theorem showStreamsThePixelBuffer : Obligations.ShowStreamsThePixelBuffer := by
  intro s d n ls hc hq hctrl hread hn hok hbusy
  have hbody : body s.cfg .showBuf =
      ([micro none .memReadAll] ++ refreshBody s.cfg (bufferChunks s.cfg)) ++ [waitMicro [.setCtrl .idle]] :=
    congrArg (List.cons _) (displayBody_eq _ _)
  obtain ⟨u, hexec, hu, hrun⟩ := exec_begins hq (preCheck_showBuf hctrl) hbody (by simp)
    (Option.isSome_iff_exists.2 ⟨d, hread⟩)
  exact ⟨u, hexec, hu, (State.runs_show hc hread hok).refreshed (by omega) hrun hbody hq hctrl hn hbusy⟩

/-- A read over an unwritten byte gives nothing (R14). -/
theorem PixelBuffer.readBytes_eq_none {p : PixelBuffer} {a n b : Nat} (h : p.readByte b = none) (ha : a ≤ b)
    (hb : b < a + n) : p.readBytes a n = none := by
  induction n generalizing a with
  | zero => omega
  | succ n ih =>
    rw [PixelBuffer.readBytes]
    rcases Nat.eq_or_lt_of_le ha with rfl | hlt
    · simp [h]
    · simp [ih hlt (by omega)]

/-- Settles O43: SHOW's first primitive reads the whole buffer. -/
theorem showOfAnUnwrittenBufferFaults : Obligations.ShowOfAnUnwrittenBufferFaults := by
  intro s a hq hctrl ha hnone
  have hread : s.pb.readBytes 0 (nbuf s.cfg) = none :=
    PixelBuffer.readBytes_eq_none hnone (Nat.zero_le a) (by omega)
  have hfirst : (body s.cfg .showBuf)[0]? = some (micro none .memReadAll) := rfl
  have hperform : perform .showBuf 0 (micro none .memReadAll) s = .fault .readUnwritten := by
    simp [perform, micro, hread]
  rw [exec_accept s .showBuf rfl hq (preCheck_showBuf hctrl)]
  exact (performAt_of_get _ _ _ s hfirst).trans hperform

end Sys2Proof.Machine
end

section
/-! PROOFS. Refresh (42_refresh.md): CLEAR, one data phase for each byte of an all-white image (R197, R198). -/

namespace Sys2Proof.Machine

/-- Data phases of which there is a last leave DC high (R131). -/
theorem State.runs_dataPhases_last {s : State} {chunks : List Source} {ds : List (List Byte)} {src : Source}
    {bs : List Byte} (d : Bit) (w : Nat) (es : List Event) (hg : Gives s.pb chunks ds) (hsrc : src.get s.pb = some bs)
    (hok : s.answersOk (w + ds.length + 1) = true) :
    (s.bus d w es).Runs ((chunks ++ [src]).flatMap (sendData none)) (4 * chunks.length + 4)
      (s.bus true (w + ds.length + 1) (es ++ (ds ++ [bs]).flatMap dataEvents)) := by
  obtain ⟨d', hfirst⟩ := State.runs_dataPhases d w es hg (s.answersOk_le _ _ hok (Nat.le_succ _))
  have hlast := State.runs_sendData (s.bus d' (w + ds.length) (es ++ ds.flatMap dataEvents)) hsrc
    (State.answersOk_bus hok _ _)
  simpa using hfirst.append hlast

/-- A white byte as the source of a write (R62, R197). -/
def whiteSource : Source := .bytes [whiteByte]

theorem clearBody_of_nbuf {c : Cfg} {k : Nat} (h : nbuf c = k + 1) : clearBody c =
    transactionPiece c .dtm1 ++ (List.replicate k whiteSource ++ [whiteSource]).flatMap (sendData none) := by
  rw [← List.replicate_succ', List.flatMap_replicate, clearBody, h, transactionPiece, afterActs, andThen_none]
  rfl

theorem clearEvents_of_nbuf {c : Cfg} {k : Nat} (h : nbuf c = k + 1) : clearEvents c =
    commandEvents c.opc.dtm1 [] ++ (List.replicate k [whiteByte] ++ [[whiteByte]]).flatMap dataEvents := by
  rw [← List.replicate_succ', List.flatMap_replicate, clearEvents, h]
  rfl

theorem gives_white (p : PixelBuffer) (k : Nat) :
    Gives p (List.replicate k whiteSource) (List.replicate k [whiteByte]) := by
  simpa [whiteSource] using gives_map_bytes p (List.replicate k [whiteByte])

/-- CLEAR's body: DTM1 and a data phase for each byte of a buffer that is not empty. -/
theorem State.runs_clear {s : State} (hpos : 0 < nbuf s.cfg) (hok : s.answersOk (1 + nbuf s.cfg) = true) :
    s.Runs (clearBody s.cfg) (5 + 4 * nbuf s.cfg) (s.bus true (1 + nbuf s.cfg) (clearEvents s.cfg)) := by
  obtain ⟨k, hk⟩ := Nat.exists_eq_succ_of_ne_zero hpos.ne'
  rw [hk] at hok
  have hdtm1 : s.Runs (transactionPiece s.cfg .dtm1) 5 (s.bus false 1 (commandEvents s.cfg.opc.dtm1 [])) :=
    s.runs_transaction .dtm1 (s.answersOk_le _ _ hok (Nat.le_add_right _ _))
  have hdata := State.runs_dataPhases_last (src := whiteSource) false 1 (commandEvents s.cfg.opc.dtm1 [])
    (gives_white s.pb k) rfl (by rwa [List.length_replicate])
  rw [List.length_replicate, List.length_replicate] at hdata
  rw [clearBody_of_nbuf hk, clearEvents_of_nbuf hk, hk]
  exact hdtm1.append hdata

/-- Settles O44: the buffer of a legal configuration is not empty, so DC is left at a data phase. -/
theorem clearSendsWhiteBytes : Obligations.ClearSendsWhiteBytes := by
  intro s hc hq hctrl hok
  have hcheck : preCheck .clear s = none := by simp [preCheck, accepts, operandError, hctrl]
  obtain ⟨u, hexec, hu, hrun⟩ := exec_begins hq hcheck (m := micro (some .dtm1) (.drive .csN true)) rfl
    (List.cons_ne_nil _ _) trivial
  have hwhole := State.Runs.whole (op := .clear) (State.runs_clear (nbuf_pos hc) hok)
  refine ⟨u, hexec, hu, ?_⟩
  rw [hrun, show 4 + 4 * nbuf s.cfg + 1 = 5 + 4 * nbuf s.cfg by omega]
  refine hwhole.trans ?_
  simp [State.finish, State.bus, hq, hctrl, Result.code, Ctrl.code]

end Sys2Proof.Machine
end

section
/-! PROOFS. Sleep and wake (43_sleep_wake.md): the two sequences, WAKE's and SLEEP's (R220, R221, R223). -/

namespace Sys2Proof.Machine

/-- Settles O39: WAKE's body is INIT's with BLANK 0. -/
theorem wakeRepeatsTheSequence : Obligations.WakeRepeatsTheSequence := by
  intro s n ls hc hq hctrl hn hok hb
  have hcheck : preCheck .wake s = none := by simp [preCheck, accepts, operandError, hctrl]
  obtain ⟨u, hexec, hu, hrun⟩ := exec_begins_pulse hq hcheck rfl (fun _ => rfl)
  have hwhole := State.Runs.whole (op := .wake) ((s.setCtrl .resetting).runs_init n ls hc hn hok hb)
  refine ⟨u, hexec, hu, (hrun (73 + n)).trans ?_⟩
  rw [show 73 + n + 1 = 74 + n by omega, hwhole, hq]
  rfl

theorem sleepBody_eq (c : Cfg) : sleepBody c = transactionPiece c .dslp ++ [waitMicro [.setCtrl .sleeping]] := rfl

/-- Settles O45: SLEEP's body is DSLP's transaction, of as many positions as events, and then its wait. -/
theorem sleepSendsDeepSleep : Obligations.SleepSendsDeepSleep := by
  intro s n ls hq hctrl hn hok hb
  have hcheck : preCheck .sleep s = none := by simp [preCheck, accepts, operandError, hctrl]
  obtain ⟨u, hexec, hu, hrun⟩ := exec_begins hq hcheck (m := micro (some .dslp) (.drive .csN true)) rfl
    (List.cons_ne_nil _ _) trivial
  have hlen : (commandEvents s.cfg.opc.dslp s.cfg.pDslp).length = 4 * commandWrites s.cfg .dslp + 1 :=
    (transactionPiece_length s.cfg .dslp).symm.trans (transactionPiece_length_eq s.cfg .dslp)
  have hwhole := (s.runs_transaction .dslp hok).waited (op := .sleep) (sleepBody_eq s.cfg) rfl hn hb
  refine ⟨u, hexec, hu, ?_⟩
  rw [hrun, hlen]
  refine hwhole.trans ?_
  rw [hq]
  rfl

end Sys2Proof.Machine
end

section
/-! PROOFS. Sleep and wake (43_sleep_wake.md): outside Idle and Busy only RESET, INIT and WAKE reach the bus (R222, R301,
R308, R309). -/

namespace Sys2Proof.Machine

/-! ### Idle and Busy inside an operation -/

/-- `STATE` is Idle or Busy, the values an operation begun in Idle goes through (R45). -/
def Ctrl.Awake (c : Ctrl) : Prop := c = .idle ∨ c = .busy

/-- Register writes that keep `STATE` in Idle or Busy. -/
def ActsAwake (as : List Action) : Prop := ∀ c : Ctrl, c.Awake → (as.foldl ctrlAct c).Awake

/-- The register writes of every position keep `STATE` in Idle or Busy. -/
def KeepsAwake (ms : List Micro) : Prop := ∀ m ∈ ms, ActsAwake m.after

theorem actsAwake_nil : ActsAwake [] := fun _ h => h

theorem KeepsAwake.append {ms ns : List Micro} (h₁ : KeepsAwake ms) (h₂ : KeepsAwake ns) : KeepsAwake (ms ++ ns) :=
  List.forall_mem_append.2 ⟨h₁, h₂⟩

theorem KeepsAwake.andThen {ms : List Micro} {as : List Action} (h : KeepsAwake ms) (ha : ActsAwake as) :
    KeepsAwake (andThen ms as) := by
  rcases List.eq_nil_or_concat ms with rfl | ⟨ns, n, rfl⟩
  · exact h
  · rw [List.concat_eq_append] at h ⊢
    rw [andThen_append]
    obtain ⟨hinit, hlast⟩ := List.forall_mem_append.1 h
    refine KeepsAwake.append hinit (List.forall_mem_singleton.2 fun c hc => ?_)
    rw [List.foldl_append]
    exact ha _ (hlast n (List.mem_singleton_self n) c hc)

theorem keepsAwake_flatMap {β : Type} {g : β → List Micro} (l : List β) (h : ∀ b, KeepsAwake (g b)) :
    KeepsAwake (l.flatMap g) := fun m hm => by
  obtain ⟨b, -, hb⟩ := List.mem_flatMap.1 hm
  exact h b m hb

/-- The framer writes no register but the pins (R132). -/
theorem keepsAwake_sendData (cmd : Option Command) (src : Source) : KeepsAwake (sendData cmd src) := by
  simp [KeepsAwake, sendData, micro, actsAwake_nil]

theorem keepsAwake_sendCommand (c : Cfg) (n : Command) : KeepsAwake (sendCommand c n) := by
  have hphase : KeepsAwake (commandPhase c n) := by simp [KeepsAwake, commandPhase, micro, actsAwake_nil]
  refine hphase.append ?_
  cases payload c n with
  | nil => exact fun _ h => absurd h List.not_mem_nil
  | cons p ps => exact keepsAwake_sendData _ _

/-- What follows a transaction leaves `STATE`, or makes it Idle after CDI and Busy after DRF. -/
theorem actsAwake_afterActs (n : Command) : ActsAwake (afterActs n) := by
  intro c hc
  cases n with
  | cdi => exact .inl rfl
  | drf => exact .inr rfl
  | _ => exact hc

theorem keepsAwake_transactionPiece (c : Cfg) (n : Command) : KeepsAwake (transactionPiece c n) :=
  (keepsAwake_sendCommand c n).andThen (actsAwake_afterActs n)

theorem keepsAwake_refreshBody (c : Cfg) (chunks : List Source) : KeepsAwake (refreshBody c chunks) :=
  ((keepsAwake_transactionPiece c .dtm2).append (keepsAwake_flatMap chunks (keepsAwake_sendData none))).append
    (keepsAwake_flatMap _ (keepsAwake_transactionPiece c))

theorem keepsAwake_clearBody (c : Cfg) : KeepsAwake (clearBody c) := by
  rw [clearBody, ← List.flatMap_replicate]
  exact (keepsAwake_sendCommand c .dtm1).append (keepsAwake_flatMap _ (keepsAwake_sendData none))

/-- An operation that begins in Idle leaves Idle and Busy with the register writes of its last position at most. -/
theorem body_keepsAwake (c : Cfg) (op : Instr) (h : entryCtrl op = some .idle) :
    ∃ ms last, body c op = ms ++ last ∧ last.length ≤ 1 ∧ KeepsAwake ms := by
  cases op with
  | display len d => exact ⟨_, _, displayBody_eq c _, le_rfl, keepsAwake_refreshBody c _⟩
  | showBuf =>
    have hread : KeepsAwake [micro none .memReadAll] := List.forall_mem_singleton.2 actsAwake_nil
    exact ⟨[micro none .memReadAll] ++ refreshBody c (bufferChunks c), _,
      congrArg (List.cons _) (displayBody_eq c _), le_rfl, hread.append (keepsAwake_refreshBody c _)⟩
  | clear => exact ⟨_, [], (List.append_nil _).symm, Nat.zero_le 1, keepsAwake_clearBody c⟩
  | sleep => exact ⟨_, _, sleepBody_eq c, le_rfl, keepsAwake_transactionPiece c .dslp⟩
  | _ => simp [entryCtrl] at h

theorem KeepsAwake.ctrlAfter {ms : List Micro} (h : KeepsAwake ms) {c : Ctrl} (hc : c.Awake) : (ctrlAfter c ms).Awake :=
  List.foldlRecOn ms _ hc fun c hc m hm => h m hm c hc

/-- `STATE` is Idle or Busy at every position of an operation that begins in Idle (R45). -/
theorem ctrlFits.awake {s : State} {op : Instr} {k : Nat} (h : ctrlFits s op k) (hd : entryCtrl op = some .idle) :
    s.ctrl.Awake := by
  obtain ⟨ms, last, hb, hlast, hawake⟩ := body_keepsAwake s.cfg op hd
  obtain ⟨hk, h⟩ := h
  rw [hd, hb] at h
  rw [hb, List.length_append] at hk
  have htake : (ms ++ last).take k = ms.take k := List.take_append_of_le_length (by omega)
  have hpieces : KeepsAwake (ms.take k) := fun m hm => hawake m (List.mem_of_mem_take hm)
  rw [show s.ctrl = _ from h, htake]
  exact hpieces.ctrlAfter (.inl rfl)

/-! ### The positions that reach the bus -/

/-- An operation that writes `STATE` begins with the reset pulse, or in Idle (R45). -/
theorem recovers_or_idle_of_entryCtrl {op : Instr} {d : Ctrl} (h : entryCtrl op = some d) :
    recovers op = true ∨ d = .idle := by
  cases op with
  | reset | init | wake => exact .inl rfl
  | display | showBuf | clear | sleep => exact .inr (Option.some.inj h).symm
  | _ => cases h

/-- Outside Idle and Busy every position is a write of `PB` or belongs to RESET, INIT or WAKE. -/
theorem awake_or_recovers {s : State} {op : Instr} {k : Nat} {m : Micro} (hs : ctrlFits s op k)
    (hm : (body s.cfg op)[k]? = some m) (hp : ∀ a bs, m.prim ≠ .memWrite a bs) :
    s.ctrl.Awake ∨ recovers op = true := by
  cases hd : entryCtrl op with
  | none =>
    obtain ⟨a, bs, hw⟩ := memWrite_of_no_entry s.cfg op k m hd hm
    exact absurd hw (hp a bs)
  | some d =>
    rcases recovers_or_idle_of_entryCtrl hd with hr | rfl
    · exact .inr hr
    · exact .inl (hs.awake hd)

/-- A write of `PB` is no event (R14). -/
theorem PrimCase.not_memWrite {op : Instr} {k : Nat} {m : Micro} {s t : State} (h : PrimCase op k m s t)
    (hne : t.trace ≠ s.trace) (a : Nat) (bs : List Byte) : m.prim ≠ .memWrite a bs := by
  intro hw
  cases h with
  | goesOn _ ht => exact hne (by rw [ht, advance_trace, hw]; rfl)
  | fails _ _ hp => cases hp.symm.trans hw
  | timesOut _ hp => cases hp.symm.trans hw
  | waits hp => cases hp.symm.trans hw

/-! ### What begins at Ready (R46) -/

/-- A step at a position leaves the sequencer in the same operation, if in any. -/
theorem PrimCase.op_eq {op op' : Instr} {k k' : Nat} {m : Micro} {s t : State} (h : PrimCase op k m s t)
    (hq : t.seq = .running op' k' ∨ t.seq = .aborting op' k') : op' = op := by
  rcases h.leftAt_or_counts with ⟨-, hready | habort | ⟨hnext, -⟩⟩ | ⟨-, hstays, -, -⟩ <;> simp_all

/-- An instruction met at Ready ends with no event, or performs the first position of its body. -/
theorem ReadyCase.ends_or_begins {i : Instr} {s t : State} (h : ReadyCase i s t) :
    (t.seq = .ready ∧ t.trace = s.trace) ∨ (accepts i s.ctrl = true ∧
      ∃ m, (body s.cfg i)[0]? = some m ∧ PrimCase i 0 m (s.acts (entryActs i)) t) := by
  cases h with
  | check r _ ht => exact .inl (by simp [ht])
  | access _ h => exact .inl ⟨by cases h <;> rfl, h.trace_eq⟩
  | begins hp _ h =>
    rcases performAt_zero_next i _ t h with ⟨m, hm, hc⟩ | ⟨-, ht⟩
    · exact .inr ⟨((preCheck_eq_none_iff i s).1 hp).1, m, by simpa using hm, hc⟩
    · exact .inl (by simp [ht])

/-- Outside Idle only RESET, INIT, WAKE in Sleeping, and FILL are accepted of the operations with a body (R46, R301). -/
theorem idle_or_recovers_or_fill {op : Instr} {c : Ctrl} (hb : hasBody op = true) (ha : accepts op c = true) :
    c = .idle ∨ (recovers op = true ∧ (op = .wake → c = .sleeping)) ∨ ∃ v, op = .fill v := by
  cases op with
  | reset | init => exact .inr (.inl ⟨rfl, nofun⟩)
  | wake => exact .inr (.inl ⟨rfl, fun _ => eq_of_beq ha⟩)
  | fill v => exact .inr (.inr ⟨v, rfl⟩)
  | display | showBuf | clear | sleep => exact .inl (eq_of_beq ha)
  | _ => cases hb

/-! ### The step -/

/-- A step with an event: at Ready it begins an operation of the acceptance table, elsewhere it performs a position that
reaches the bus. -/
theorem step_on_bus {s t : State} (hc : s.CtrlOk) (hp : s.PinsOk) (h : step s = .next t) (hne : t.trace ≠ s.trace) :
    s.ctrl.Awake ∨
      (∃ op k, (s.seq = .running op k ∨ s.seq = .aborting op k) ∧ recovers op = true) ∨
      (s.seq = .ready ∧ ∃ req rest op, s.hreq = req :: rest ∧ decodeRequest req = .ok op ∧ recovers op = true ∧
        (op = .wake → s.ctrl = .sleeping)) := by
  cases step_next s t h with
  | waiting _ _ ht => exact absurd (by rw [ht]) hne
  | illegal _ _ _ _ _ _ ht => exact absurd (by rw [ht]; rfl) hne
  | request req rest i hq hr hd h =>
    rcases h.ends_or_begins with ⟨-, htrace⟩ | ⟨ha, m, hm, hcase⟩
    · exact absurd htrace hne
    · rcases idle_or_recovers_or_fill (hasBody_of_get _ _ _ _ hm) ha with hidle | ⟨hrec, hwake⟩ | ⟨v, rfl⟩
      · exact .inl (.inl hidle)
      · exact .inr (.inr ⟨hq, req, rest, i, hr, hd, hrec, hwake⟩)
      · obtain ⟨a, bs, hw⟩ := memWrite_of_no_entry _ _ _ _ rfl hm
        exact absurd hw (hcase.not_memWrite (by simpa using hne) a bs)
  | position op k m hq hm h =>
    exact (awake_or_recovers ((State.ctrlOk_running hq).1 hc) hm (h.not_memWrite hne)).imp_right
      fun hrec => .inl ⟨op, k, .inl hq, hrec⟩
  | exhausted _ _ _ _ _ ht => exact absurd (by rw [ht]; rfl) hne
  | aborted op k hq _ =>
    obtain ⟨⟨m, hm, src, hw⟩, -⟩ := (State.pinsOk_aborting hq).1 hp
    exact (awake_or_recovers ((State.ctrlOk_aborting hq).1 hc) hm (by simp [hw])).imp_right
      fun hrec => .inl ⟨op, k, .inr hq, hrec⟩

/-- A step at Ready that leaves an operation under way has begun one of the acceptance table. -/
theorem step_begins {s t : State} {op : Instr} {k : Nat} (hq : s.seq = .ready) (h : step s = .next t)
    (ht : t.seq = .running op k ∨ t.seq = .aborting op k) :
    s.ctrl = .idle ∨ (recovers op = true ∧ (op = .wake → s.ctrl = .sleeping)) ∨ ∃ v, op = .fill v := by
  have hbegun : t.seq ≠ .ready := by rcases ht with ht | ht <;> simp [ht]
  cases step_next s t h with
  | waiting _ _ hts => exact absurd (hts ▸ hq) hbegun
  | illegal _ _ _ _ _ _ hts => exact absurd (by rw [hts]; rfl) hbegun
  | request req rest i _ _ _ h =>
    rcases h.ends_or_begins with ⟨hready, -⟩ | ⟨ha, m, hm, hcase⟩
    · exact absurd hready hbegun
    · obtain rfl := hcase.op_eq ht
      exact idle_or_recovers_or_fill (hasBody_of_get _ _ _ _ hm) ha
  | position _ _ _ hrun => cases hq.symm.trans hrun
  | exhausted _ _ hrun => cases hq.symm.trans hrun
  | aborted _ _ habort => cases hq.symm.trans habort

/-- Settles O54: at a position by the bodies, which leave Idle and Busy with their last position at most; at Ready by the
acceptance table. -/
theorem onlyRecoveryReachesTheBusOutsideIdle : Obligations.OnlyRecoveryReachesTheBusOutsideIdle :=
  fun _ _ hc hp h => ⟨fun hne => or_assoc.1 (step_on_bus hc hp h hne), fun hq _ _ ht => step_begins hq h ht⟩

end Sys2Proof.Machine
end

section
/-! PROOFS. The pixel buffer (44_pixel_buffer.md): DRAW, FILL, SETPIX, GETPIX and READBUF (R240 to R245), by what a read
over several bytes gives and by the one access each operation makes. -/

namespace Sys2Proof.Machine

/-! ### Reading several bytes (R14) -/

/-- A read over `n` bytes gives the list that holds, in address order, what a read of each byte gives. -/
theorem PixelBuffer.readBytes_eq_some_iff {p : PixelBuffer} {a n : Nat} {d : List Byte} :
    p.readBytes a n = some d ↔ d.length = n ∧ ∀ i < n, p.readByte (a + i) = d[i]? := by
  induction n generalizing a d with
  | zero => simp [eq_comm (a := ([] : List Byte))]
  | succ n ih =>
    constructor
    · intro h
      have hlen := p.readBytes_length a (n + 1) d h
      rw [PixelBuffer.readBytes] at h
      split at h
      · next v vs hv hvs =>
        cases h
        refine ⟨hlen, fun i hi => ?_⟩
        cases i with
        | zero => simpa using hv
        | succ i => simpa [Nat.add_assoc, Nat.add_comm 1] using (ih.1 hvs).2 i (by omega)
      · cases h
    · rintro ⟨hlen, hbytes⟩
      obtain ⟨v, vs, rfl⟩ := List.exists_cons_of_length_eq_add_one hlen
      have hfirst : p.readByte a = some v := by simpa using hbytes 0 (Nat.succ_pos n)
      have hrest : p.readBytes (a + 1) n = some vs := ih.2 ⟨by simpa using hlen, fun i hi => by
        simpa [Nat.add_assoc, Nat.add_comm 1] using hbytes (i + 1) (by omega)⟩
      simp [PixelBuffer.readBytes, hfirst, hrest]

/-- Every pixel of a white byte is 1 (R62); in `written`, that byte means all eight were written (R14). -/
theorem whiteByte_bit {b : Nat} (hb : b < 8) : whiteByte.getLsbD b = true := by interval_cases b <;> decide

/-- A byte read from the buffer has all its pixels written, each with its bit (R61). -/
theorem PixelBuffer.readPixel_of_readByte {p : PixelBuffer} {a b : Nat} {v : Byte} (h : p.readByte a = some v)
    (hb : b < 8) : p.readPixel a b = some (v.getLsbD b) := by
  simp only [PixelBuffer.readByte, Option.ite_none_right_eq_some, Option.some.injEq] at h
  obtain ⟨hwritten, rfl⟩ := h
  rw [PixelBuffer.readPixel, hwritten]
  exact if_pos (whiteByte_bit hb)

/-- The pixels of a buffer that was read are the bits of the bytes read. -/
theorem PixelBuffer.readPixel_of_readBytes {p : PixelBuffer} {n a b : Nat} {d : List Byte}
    (h : p.readBytes 0 n = some d) (ha : a < n) (hb : b < 8) :
    p.readPixel a b = d[a]?.map (fun v => v.getLsbD b) := by
  obtain ⟨rfl, hbytes⟩ := PixelBuffer.readBytes_eq_some_iff.1 h
  have hread : p.readByte a = some d[a] := by simpa [ha] using hbytes a ha
  rw [PixelBuffer.readPixel_of_readByte hread hb, List.getElem?_eq_getElem ha, Option.map_some]

/-! ### The operations of one access, accepted (R37, R281) -/

/-- An operation that ends well at Ready writes `STATUS` and sends its response, and nothing else (R96). -/
theorem State.finish_ok_of_ready {s : State} (hq : s.seq = .ready) (d : List Byte) :
    s.finish .ok d = { s with status := 0x00, hrsp := s.hrsp ++ [response 0x00 s.ctrl d] } := by
  rw [State.finish, ← hq]
  rfl

/-- The same for an operation that leaves `PB` as `p` (R40). -/
theorem State.setPb_finish_ok_of_ready {s : State} (hq : s.seq = .ready) (p : PixelBuffer) (d : List Byte) :
    (s.setPb p).finish .ok d = { s with pb := p, status := 0x00, hrsp := s.hrsp ++ [response 0x00 s.ctrl d] } :=
  State.finish_ok_of_ready (s := s.setPb p) hq d

/-- The operand check of SETPIX and GETPIX passes where both coordinates are below the panel's bounds (R275). -/
theorem inPanel_of_lt {c : Cfg} {x y : BitVec 16} (hx : x.toNat < c.width) (hy : y.toNat < c.height) :
    inPanel c x y = true := by
  simp [inPanel, hx, hy]

/-- What an accepted operation of one access answers is its access. -/
theorem AccessCase.exec_eq {s t : State} {i : Instr} (h : AccessCase s i t) (hq : s.seq = .ready)
    (hp : preCheck i s = none) : exec i s = .next t := by
  cases h with
  | draw len data => simp [exec, execDraw, immediate, hq, hp]
  | setpix x y v => simp [exec, execSetpix, immediate, hq, hp]
  | getpix x y v h => simp [exec, execGetpix, immediate, hq, hp, h]
  | readbuf d h => simp [exec, execReadbuf, immediate, hq, hp, h]

/-! ### DRAW (R240) -/

/-- Settles O21: the bytes just written are read back, and a read beyond them is not touched. -/
theorem drawCopiesTheBuffer : Obligations.DrawCopiesTheBuffer := by
  intro s len d hq hlen hd
  have hcheck : preCheck (.draw len d) s = none := (preCheck_eq_none_iff _ s).2 ⟨rfl, if_pos hlen⟩
  have hread : (s.pb.writeBytes 0 d).readBytes 0 (nbuf s.cfg) = some d := hd ▸ s.pb.readBytes_writeBytes 0 d
  refine ⟨s.pb.writeBytes 0 d, ?_, hread, fun a b ha hb => PixelBuffer.readPixel_of_readBytes hread ha hb,
    fun a ha => PixelBuffer.readByte_writeBytes_above _ _ _ _ (by omega)⟩
  rw [(AccessCase.draw len d).exec_eq hq hcheck, State.setPb_finish_ok_of_ready hq]

/-! ### FILL (R241) -/

/-- The step that accepts an operation is the one at its first position, which may be its last (FILL of one byte); a run
after it is the rest of the run from position 0. -/
theorem exec_first {s : State} {op : Instr} {m : Micro} {rest : List Micro} (hq : s.seq = .ready)
    (hp : preCheck op s = none) (hb : body s.cfg op = m :: rest) (hm : (s.acts (entryActs op)).goesOn m.prim) :
    exec op s = .next (advance op 0 m ((s.acts (entryActs op)).effect m.prim)) ∧
      ∀ n, core.run n (advance op 0 m ((s.acts (entryActs op)).effect m.prim)) =
        core.run (n + 1) ((s.acts (entryActs op)).goTo op 0) := by
  have hget : (body s.cfg op)[0]? = some m := by simp [hb]
  have hget' : (body (s.acts (entryActs op)).cfg op)[0]? = some m := by simpa using hget
  have hperform := perform_goesOn op 0 m _ hm
  refine ⟨?_, fun n => ?_⟩
  · rw [exec_accept s op (hasBody_of_get _ _ _ _ hget) hq hp, performAt_of_get _ _ m _ hget', hperform]
  · have hstep := step_running ((s.acts (entryActs op)).setSeq (.running op 0)) op 0 m rfl hget'
    rw [perform_setSeq, hperform] at hstep
    rw [State.goTo_of_lt (by simp [hb]), core_run_succ n _ _ hstep]

/-- The body of FILL over a buffer that is not empty begins with the write of byte 0. -/
theorem body_fill_of_pos {c : Cfg} {v : Byte} (h : 0 < nbuf c) :
    body c (.fill v) = micro none (.memWrite 0 [v]) :: memWrites v 1 (nbuf c - 1) := by
  obtain ⟨k, hk⟩ := Nat.exists_eq_succ_of_ne_zero h.ne'
  rw [body, fillLoop, hk]
  rfl

/-- Settles O22: the loop is the whole body, a step for each byte. -/
theorem fillWritesEveryByte : Obligations.FillWritesEveryByte := by
  intro s v hc hq
  have hpos := nbuf_pos hc
  obtain ⟨hexec, hrun⟩ := exec_first (op := .fill v) hq rfl (body_fill_of_pos hpos) trivial
  have hwhole := State.Runs.whole (op := .fill v) (s.runs_fillLoop v)
  refine ⟨_, s.pb.writeBytes 0 (List.replicate (nbuf s.cfg) v), hexec, advance_pb _ _ _ _, ?_,
    fun a ha => PixelBuffer.readByte_writeBytes_replicate _ _ _ _ _ (Nat.zero_le a) (by omega),
    fun a ha => PixelBuffer.readByte_writeBytes_above _ _ _ _ (by simpa using ha)⟩
  rw [hrun, Nat.sub_add_cancel hpos]
  exact hwhole.trans (congrArg _ (State.setPb_finish_ok_of_ready hq _ []))

/-! ### SETPIX (R242) -/

/-- Settles O23: a write of one pixel, at the address of R61. -/
theorem setpixWritesOnePixel : Obligations.SetpixWritesOnePixel := by
  intro s x y v hq hx hy
  have hcheck : preCheck (.setpix x y v) s = none :=
    (preCheck_eq_none_iff _ s).2 ⟨rfl, if_pos (inPanel_of_lt hx hy)⟩
  refine ⟨s.pb.writePixel (pixByte s.cfg x.toNat y.toNat) (pixBit x.toNat) v, ?_, fun a b hb => ?_⟩
  · rw [(AccessCase.setpix x y v).exec_eq hq hcheck, State.setPb_finish_ok_of_ready hq]
  · simp only [PixelBuffer.readPixel_writePixel _ _ _ _ _ _ hb, pixByte, pixBit, eq_comm]

/-! ### GETPIX (R243) -/

theorem preCheck_getpix {s : State} {x y : BitVec 16} (hx : x.toNat < s.cfg.width) (hy : y.toNat < s.cfg.height) :
    preCheck (.getpix x y) s = none :=
  (preCheck_eq_none_iff _ s).2 ⟨rfl, if_pos (inPanel_of_lt hx hy)⟩

theorem exec_getpix_written {s : State} {x y : BitVec 16} {v : Bit} (hq : s.seq = .ready)
    (hx : x.toNat < s.cfg.width) (hy : y.toNat < s.cfg.height)
    (hv : s.pb.readPixel (pixByte s.cfg x.toNat y.toNat) (pixBit x.toNat) = some v) :
    exec (.getpix x y) s =
      .next { s with status := 0x00, hrsp := s.hrsp ++ [response 0x00 s.ctrl [pixelByte v]] } := by
  rw [(AccessCase.getpix x y v hv).exec_eq hq (preCheck_getpix hx hy), State.finish_ok_of_ready hq]

/-- Settles O24: GETPIX reads the pixel at the address of R61, and has no answer where that read has none. -/
theorem getpixReadsOnePixel : Obligations.GetpixReadsOnePixel := by
  intro s x y hq hx hy
  refine ⟨fun v hv => exec_getpix_written hq hx hy hv, fun hnone => ?_⟩
  have hread : s.pb.readPixel (pixByte s.cfg x.toNat y.toNat) (pixBit x.toNat) = none := hnone
  simp [exec, execGetpix, immediate, hq, preCheck_getpix hx hy, hread]

/-! ### READBUF (R244) -/

theorem exec_readbuf_written {s : State} {d : List Byte} (hq : s.seq = .ready)
    (hd : s.pb.readBytes 0 (nbuf s.cfg) = some d) :
    exec .readbuf s = .next { s with status := 0x00, hrsp := s.hrsp ++ [response 0x00 s.ctrl d] } := by
  rw [(AccessCase.readbuf d hd).exec_eq hq rfl, State.finish_ok_of_ready hq]

/-- Settles O25: the read of the whole buffer is the list of its bytes, and gives nothing over an unwritten one. -/
theorem readbufReadsTheBuffer : Obligations.ReadbufReadsTheBuffer := by
  intro s hq
  refine ⟨fun d hlen hbytes => ?_, fun a ha hnone => ?_⟩
  · refine exec_readbuf_written hq (PixelBuffer.readBytes_eq_some_iff.2 ⟨hlen, fun i hi => ?_⟩)
    rw [Nat.zero_add, hbytes i hi]
  · have hcheck : preCheck .readbuf s = none := rfl
    have hread : s.pb.readBytes 0 (nbuf s.cfg) = none :=
      PixelBuffer.readBytes_eq_none hnone (Nat.zero_le a) (by omega)
    simp [exec, execReadbuf, immediate, hq, hcheck, hread]

/-! ### A white buffer (R245) -/

/-- Settles O26: a pixel of the panel lies in a byte of the buffer, whose bits are all 1. -/
theorem whiteBufferReadsWhite : Obligations.WhiteBufferReadsWhite := by
  intro s hc hq hwhite
  have hread : s.pb.readBytes 0 (nbuf s.cfg) = some (List.replicate (nbuf s.cfg) 0xFF) :=
    PixelBuffer.readBytes_eq_some_iff.2 ⟨List.length_replicate, fun i hi => by
      rw [Nat.zero_add, hwhite i hi, List.getElem?_replicate_of_lt hi]⟩
  refine ⟨fun x y hx hy => ?_, exec_readbuf_written hq hread⟩
  have hbyte := hwhite _ (pixByte_lt_nbuf s.cfg _ _ hc hx hy)
  have hpixel := PixelBuffer.readPixel_of_readByte hbyte (pixBit_lt x.toNat)
  exact exec_getpix_written hq hx hy (hpixel.trans (congrArg some (whiteByte_bit (pixBit_lt x.toNat))))

end Sys2Proof.Machine
end

section
/-! PROOFS. Exceptions (60_exceptions.md): what the checks before execution answer (R271, R272, R275, R277, R281), and a
host operation met while another runs (R290). -/

namespace Sys2Proof.Machine

/-! ### A failed check (R277, R281) -/

/-- An operation that a check turns away at Ready writes `STATUS` and sends its response, and nothing else (R277). -/
theorem exec_of_preCheck_some {s : State} {i : Instr} {r : Result} (hq : s.seq = .ready) (hp : preCheck i s = some r) :
    exec i s = .next { s with status := r.code, hrsp := s.hrsp ++ [response r.code s.ctrl []] } := by
  obtain ⟨hbus, hbusy⟩ := preCheck_not_fatal i s r hp
  rw [exec_preCheck s i r hq hp, State.raise_preCheck s r hbus hbusy, State.finish, ← hq]
  rfl

theorem preCheck_of_not_accepts {s : State} {i : Instr} (h : accepts i s.ctrl = false) :
    preCheck i s = some .invalidState := by
  simp [preCheck, h]

theorem preCheck_of_accepts {s : State} {i : Instr} (h : accepts i s.ctrl = true) :
    preCheck i s = operandError s.cfg i :=
  if_pos h

/-- The state check comes first: an operation outside its states is InvalidState, whatever its operands (R272, R281). -/
theorem exec_of_not_accepts {s : State} {i : Instr} (hq : s.seq = .ready) (h : accepts i s.ctrl = false) :
    exec i s = .next { s with status := 0x02, hrsp := s.hrsp ++ [response 0x02 s.ctrl []] } :=
  exec_of_preCheck_some hq (preCheck_of_not_accepts h)

/-- The operand check answers an operation that its state accepts (R271, R275, R281). -/
theorem exec_of_operandError {s : State} {i : Instr} {r : Result} (hq : s.seq = .ready)
    (ha : accepts i s.ctrl = true) (hr : operandError s.cfg i = some r) :
    exec i s = .next { s with status := r.code, hrsp := s.hrsp ++ [response r.code s.ctrl []] } :=
  exec_of_preCheck_some hq ((preCheck_of_accepts ha).trans hr)

/-- Settles O17: the acceptance table has no entry for these operations in such a state (R46). -/
theorem operationsOutsideTheirStateAreInvalid : Obligations.OperationsOutsideTheirStateAreInvalid := by
  intro s hq
  refine ⟨fun hctrl => ?_, fun hctrl => exec_of_not_accepts hq (beq_false_of_ne hctrl)⟩
  have hidle : (s.ctrl == .idle) = false := beq_false_of_ne hctrl
  exact ⟨fun _ _ => exec_of_not_accepts hq hidle, exec_of_not_accepts hq hidle, exec_of_not_accepts hq hidle,
    exec_of_not_accepts hq hidle⟩

/-- Settles O18: DISPLAY passes the state check in Idle and DRAW in every state, and `L` is not `NBUF`. -/
theorem wrongLengthIsSizeMismatch : Obligations.WrongLengthIsSizeMismatch := by
  intro s len d hq hlen
  have hdisplay : operandError s.cfg (.display len d) = some .sizeMismatch := if_neg hlen
  have hdraw : operandError s.cfg (.draw len d) = some .sizeMismatch := if_neg hlen
  refine ⟨fun hctrl => ?_, exec_of_operandError hq rfl hdraw⟩
  have haccepts : accepts (.display len d) s.ctrl = true := beq_iff_eq.2 hctrl
  exact exec_of_operandError hq haccepts hdisplay

/-- The operand check of SETPIX and GETPIX fails where a coordinate reaches the panel's bound (R275). -/
theorem not_inPanel_of_le {c : Cfg} {x y : BitVec 16} (h : c.width ≤ x.toNat ∨ c.height ≤ y.toNat) :
    ¬ inPanel c x y = true := by
  simp only [inPanel, Bool.and_eq_true, decide_eq_true_eq]
  omega

/-- Settles O19: no state check turns SETPIX or GETPIX away, and the coordinate check does. -/
theorem coordinatesOutsideThePanelAreOutOfRange : Obligations.CoordinatesOutsideThePanelAreOutOfRange := by
  intro s x y v hq hout
  have hsetpix : operandError s.cfg (.setpix x y v) = some .outOfRange := if_neg (not_inPanel_of_le hout)
  have hgetpix : operandError s.cfg (.getpix x y) = some .outOfRange := if_neg (not_inPanel_of_le hout)
  exact ⟨exec_of_operandError hq rfl hsetpix, exec_of_operandError hq rfl hgetpix⟩

/-! ### A host operation met while another runs (R290) -/

theorem exists_command_of_mem {i : Instr} (h : i ∈ Command.all.map Command.instr) : ∃ c : Command, i = c.instr := by
  obtain ⟨c, -, hc⟩ := List.mem_map.1 h
  exact ⟨c, hc.symm⟩

/-- The three shapes of a meaning: a controller command, a sequenced operation, an operation of one access. -/
theorem exec_shape (i : Instr) : (∃ c : Command, i = c.instr) ∨
    (∃ entry, exec i = sequenced i entry) ∨ ∃ effect, exec i = immediate i effect := by
  cases i with
  | reset | init _ | display _ _ | showBuf | clear | sleep | wake | fill _ => exact .inr (.inl ⟨_, rfl⟩)
  | draw _ _ | setpix _ _ _ | getpix _ _ | readbuf => exact .inr (.inr ⟨_, rfl⟩)
  | _ => exact .inl (exists_command_of_mem (by decide))

theorem sequenced_while_running {s : State} {op i : Instr} {k : Nat} (entry : List Action)
    (hq : s.seq = .running op k ∨ s.seq = .aborting op k) (hne : i ≠ op) :
    sequenced i entry s = .refused .requestWhileRunning := by
  rcases hq with hq | hq <;> simp [sequenced, hq, hne.symm]

theorem immediate_while_running {s : State} {op i : Instr} {k : Nat}
    (effect : State → Host.Outcome State Fault Refusal) (hq : s.seq = .running op k ∨ s.seq = .aborting op k) :
    immediate i effect s = .refused .requestWhileRunning := by
  rcases hq with hq | hq <;> simp [immediate, hq]

/-- Settles O13: what is no controller command is sequenced or of one access, and both shapes refuse. -/
theorem requestWhileRunningIsRefused : Obligations.RequestWhileRunningIsRefused := by
  intro s op i k hq hne hhost
  rcases exec_shape i with ⟨c, hc⟩ | ⟨entry, hexec⟩ | ⟨effect, hexec⟩
  · exact absurd hc (hhost c)
  · rw [hexec, sequenced_while_running entry hq hne]
  · rw [hexec, immediate_while_running effect hq]

end Sys2Proof.Machine
end

section
/-! PROOFS. Reset (70_reset_and_hazards.md): the checks of construction and the state it leaves (R300), which meets every
invariant of the steps. -/

namespace Sys2Proof.Machine

/-! ### The checks of construction (R300 (a) to (g)) -/

/-- The opcode bytes are distinct exactly where no byte belongs to two commands (R300 (d)). -/
theorem opcDistinct_iff (t : Opc) : opcDistinct t = true ↔ ∀ m n : Command, t.code m = t.code n → m = n := by
  refine ⟨fun ht _ _ h => Opc.code_injective ht h, fun hinj => decide_eq_true ?_⟩
  have hall : Command.all.Nodup := by decide
  exact hall.map fun m n h => hinj m n h

/-- A legal configuration, check by check; (f), the idle level, holds by its type. -/
theorem legal_iff (c : Cfg) : legal c = true ↔
    c.width % 8 = 0 ∧ (8 ≤ c.width ∧ c.width ≤ 65528 ∧ 1 ≤ c.height ∧ c.height ≤ 65535) ∧
      (c.pPwr.length = 5 ∧ c.pPsr.length = 1 ∧ c.pPll.length = 1 ∧ c.pVdcs.length = 1 ∧ c.pCdi.length = 1) ∧
      (∀ m n : Command, c.opc.code m = c.opc.code n → m = n) ∧ c.busyTimeout ≠ some 0 ∧
      c.chunking ≠ [] ∧ (∀ n ∈ c.chunking, 0 < n) ∧ c.chunking.sum = c.width * c.height / 8 := by
  simp only [legal, nbuf, Bool.and_eq_true, beq_iff_eq, bne_iff_ne, decide_eq_true_eq, List.all_eq_true,
    opcDistinct_iff, and_assoc]

/-! ### The outcome of construction -/

theorem construct_of_legal {c : Cfg} (hc : legal c = true) : construct c = .next (State.initial c) := if_pos hc

theorem construct_of_not_legal {c : Cfg} (hc : ¬ legal c = true) : construct c = .fault .badConfig := if_neg hc

/-- Construction leaves a state in one case only: the table's, with a legal configuration. -/
theorem construct_next {c : Cfg} {s : State} (h : construct c = .next s) : legal c = true ∧ s = State.initial c := by
  by_cases hc : legal c = true
  · rw [construct_of_legal hc] at h
    cases h
    exact ⟨hc, rfl⟩
  · rw [construct_of_not_legal hc] at h
    cases h

/-- Settles O15: the checks of construction are those of `legal`, and the state it leaves is the table's. -/
theorem constructionChecksAndSetsEveryRegister : Obligations.ConstructionChecksAndSetsEveryRegister :=
  fun c => ⟨fun hc => construct_of_legal ((legal_iff c).2 hc), fun hc => construct_of_not_legal (mt (legal_iff c).1 hc)⟩

/-! ### The invariants after construction -/

theorem legal_reference : legal Cfg.reference = true := by decide

theorem State.initial_pbOk (c : Cfg) : (State.initial c).PbOk := PixelBuffer.wf_empty _

/-- `STATE` is Uninitialized, a stable value (R44). -/
theorem State.initial_ctrlOk (c : Cfg) : (State.initial c).CtrlOk := (State.ctrlOk_ready rfl).2 rfl

/-- No pin has been driven, so none is low (R34, R36). -/
theorem State.initial_pinsOk (c : Cfg) : (State.initial c).PinsOk :=
  (State.pinsOk_ready rfl).2 ⟨PinLevel.noConfusion, PinLevel.noConfusion⟩

/-- No event has been recorded, so no idle sample is owed (R306). -/
theorem State.initial_busOk (c : Cfg) : (State.initial c).BusOk := (State.busOk_ready rfl).2 ⟨rfl, rfl, Bool.noConfusion⟩

/-- The empty trace has no phase, and DC is as unknown to its observer as to the register. -/
theorem State.initial_phasesOk (c : Cfg) : (State.initial c).PhasesOk := ⟨rfl, rfl⟩

/-- Settles O16: each invariant at Ready, over the empty trace and the empty buffer. -/
theorem constructionEstablishesTheInvariants : Obligations.ConstructionEstablishesTheInvariants := by
  refine ⟨construct_of_legal legal_reference, fun c s h => ?_⟩
  obtain ⟨hc, rfl⟩ := construct_next h
  exact ⟨hc, State.initial_pbOk c, State.initial_ctrlOk c, State.initial_pinsOk c, State.initial_busOk c,
    State.initial_phasesOk c, State.opOk_ready rfl⟩

end Sys2Proof.Machine
end
